-- ==== Sys2Proof/Word.lean ====
section
/-! DEFINITION. The word types of 00_scope.md R7 to R10. -/

namespace Sys2Proof

/-- A byte of main memory or of a ROM image (20_memory.md R78). -/
abbrev Byte := BitVec 8

/-- A DSP memory slot, a register of the register block, a slice of an accumulator (R7, R13). -/
abbrev Slot := BitVec 16

/-- An ALU command word or a transaction word (30_encoding.md R100, R106). -/
abbrev Word := BitVec 32

/-- A 40-bit accumulator or product value (10_state.md R24, R27). -/
abbrev Acc := BitVec 40

/-- `wrap40(v)`: the low 40 bits of an integer (R10). -/
def wrap40 (v : Int) : Acc := BitVec.ofInt 40 v

end Sys2Proof
end

