-- ==== Sys2Proof/Syntax.lean ====
section
/-! DEFINITION. The operand types and `Instr`, one constructor per row of spec/opcode_table.json: 66 ALU commands
(30_encoding.md R106 to R111), 96 register-block transactions (R100 to R102) and the two rows for an address the
register map does not hold (R104). -/

namespace Sys2Proof

/-- The 40-bit accumulators ac0 and ac1 (field `d` of an ALU command, R106). -/
inductive AccId | ac0 | ac1
deriving DecidableEq, Repr

/-- The accumulator the rules write `~D` (R107). -/
def AccId.other : AccId → AccId
  | .ac0 => .ac1
  | .ac1 => .ac0

/-- The 32-bit accumulators ax0 and ax1 (R26). -/
inductive AxId | ax0 | ax1
deriving DecidableEq, Repr

/-- One half of a 32-bit accumulator (R26). -/
inductive AxHalf | low | high
deriving DecidableEq, Repr

/-- `axreg(s) = [ax0.l, ax1.l, ax0.h, ax1.h][s]`, the source of format AR (R107). -/
inductive AxReg | ax0l | ax1l | ax0h | ax1h
deriving DecidableEq, Repr

/-- The engine registers RREG and WREG name (R108). -/
inductive Reg
  | acH (d : AccId) | sr | prodL | prodM1 | prodH | prodM2
  | axL (x : AxId) | axH (x : AxId) | acL (d : AccId) | acM (d : AccId)
deriving DecidableEq, Repr

/-- The port of a transaction (R14, R15, R100). -/
inductive Port | dsp | host
deriving DecidableEq, Repr

/-- The direction of an access (R100). -/
inductive Dir | read | write
deriving DecidableEq, Repr

/-- The registers of the register block (R102). -/
inductive IfxReg
  | coef (i : BitVec 4)
  | dscr | dsbl | dspa | dsmah | dsmal | fmt | acdat1 | acsah | acsal | aceah | aceal | accah | accal | ps | yn1 | yn2
  | acdat | gain | dirq | dmbh | dmbl | cmbh | cmbl
deriving DecidableEq, Repr

/-- `ifxMap`: where every register stands in the register block (R8, R102). The block is the top 256 slots of the data
space (R7), so a place is the low byte of the address. -/
structure IfxMap where
  /-- COEF[0] to COEF[15]. -/
  coef : Vector (BitVec 8) 16
  dscr : BitVec 8
  dsbl : BitVec 8
  dspa : BitVec 8
  dsmah : BitVec 8
  dsmal : BitVec 8
  fmt : BitVec 8
  acdat1 : BitVec 8
  acsah : BitVec 8
  acsal : BitVec 8
  aceah : BitVec 8
  aceal : BitVec 8
  accah : BitVec 8
  accal : BitVec 8
  ps : BitVec 8
  yn1 : BitVec 8
  yn2 : BitVec 8
  acdat : BitVec 8
  gain : BitVec 8
  dirq : BitVec 8
  dmbh : BitVec 8
  dmbl : BitVec 8
  cmbh : BitVec 8
  cmbl : BitVec 8
deriving DecidableEq, Repr

/-- The instructions: one constructor per row of the opcode table. A write transaction carries its 16-bit data value
(R100: a transaction is the pair of the transaction word and the data). -/
inductive Instr
  /-- CLR (R133). -/
  | clr (d : AccId)
  /-- ADD (R134). -/
  | add (d : AccId)
  /-- ADDR (R135). -/
  | addr (d : AccId) (r : AxReg)
  /-- ADDAX (R136). -/
  | addax (d : AccId) (x : AxId)
  /-- ADDP (R137). -/
  | addp (d : AccId)
  /-- ADDI (R138). -/
  | addi (d : AccId) (imm : BitVec 16)
  /-- ADDIS (R139). -/
  | addis (d : AccId) (imm : BitVec 8)
  /-- SUB (R142). -/
  | sub (d : AccId)
  /-- SUBR (R143). -/
  | subr (d : AccId) (r : AxReg)
  /-- SUBAX (R144). -/
  | subax (d : AccId) (x : AxId)
  /-- SUBP (R145). -/
  | subp (d : AccId)
  /-- INC (R140). -/
  | inc (d : AccId)
  /-- DEC (R146). -/
  | dec (d : AccId)
  /-- INCM (R141). -/
  | incm (d : AccId)
  /-- DECM (R147). -/
  | decm (d : AccId)
  /-- NEG (R148). -/
  | neg (d : AccId)
  /-- ABS (R149). -/
  | abs (d : AccId)
  /-- CMP (R150). -/
  | cmp
  /-- CMPI (R151). -/
  | cmpi (d : AccId) (imm : BitVec 16)
  /-- TST (R152). -/
  | tst (d : AccId)
  /-- TSTAXH (R153). -/
  | tstaxh (x : AxId)
  /-- MOV (R154). -/
  | mov (d : AccId)
  /-- MOVR (R155). -/
  | movr (d : AccId) (r : AxReg)
  /-- MOVAX (R156). -/
  | movax (d : AccId) (x : AxId)
  /-- MOVP (R157). -/
  | movp (d : AccId)
  /-- MOVNP (R158). -/
  | movnp (d : AccId)
  /-- ANDR (R182). -/
  | andr (d : AccId) (x : AxId)
  /-- ORR (R183). -/
  | orr (d : AccId) (x : AxId)
  /-- XORR (R184). -/
  | xorr (d : AccId) (x : AxId)
  /-- ANDC (R185). -/
  | andc (d : AccId)
  /-- ORC (R186). -/
  | orc (d : AccId)
  /-- XORC (R187). -/
  | xorc (d : AccId)
  /-- ANDI (R189). -/
  | andi (d : AccId) (imm : BitVec 16)
  /-- ORI (R190). -/
  | ori (d : AccId) (imm : BitVec 16)
  /-- XORI (R191). -/
  | xori (d : AccId) (imm : BitVec 16)
  /-- NOT (R188). -/
  | not (d : AccId)
  /-- ANDF (R192). -/
  | andf (d : AccId) (imm : BitVec 16)
  /-- ANDCF (R193). -/
  | andcf (d : AccId) (imm : BitVec 16)
  /-- LSL (R194). -/
  | lsl (d : AccId) (n : BitVec 6)
  /-- LSR (R195). -/
  | lsr (d : AccId) (n : BitVec 6)
  /-- ASL (R196). -/
  | asl (d : AccId) (n : BitVec 6)
  /-- ASR (R197). -/
  | asr (d : AccId) (n : BitVec 6)
  /-- LSL16 (R198). -/
  | lsl16 (d : AccId)
  /-- LSR16 (R199). -/
  | lsr16 (d : AccId)
  /-- ASR16 (R200). -/
  | asr16 (d : AccId)
  /-- MUL (R214). -/
  | mul (x : AxId)
  /-- MULX (R215). -/
  | mulx (h0 : AxHalf) (h1 : AxHalf)
  /-- MULC (R216). -/
  | mulc (d : AccId) (x : AxId)
  /-- MULAC (R217). -/
  | mulac (d : AccId) (x : AxId)
  /-- MULMV (R218). -/
  | mulmv (d : AccId) (x : AxId)
  /-- MADD (R219). -/
  | madd (x : AxId)
  /-- MSUB (R220). -/
  | msub (x : AxId)
  /-- MADDX (R221). -/
  | maddx (h0 : AxHalf) (h1 : AxHalf)
  /-- MSUBX (R222). -/
  | msubx (h0 : AxHalf) (h1 : AxHalf)
  /-- MADDC (R223). -/
  | maddc (d : AccId) (x : AxId)
  /-- MSUBC (R224). -/
  | msubc (d : AccId) (x : AxId)
  /-- CLRP (R225). -/
  | clrp
  /-- TSTPROD (R226). -/
  | tstprod
  /-- SET15 (R240). -/
  | set15
  /-- CLR15 (R241). -/
  | clr15
  /-- SET40 (R242). -/
  | set40
  /-- CLR40 (R243). -/
  | clr40
  /-- M2 (R244). -/
  | m2
  /-- M0 (R244). -/
  | m0
  /-- RREG (R246). -/
  | rreg (r : Reg)
  /-- WREG (R245). -/
  | wreg (r : Reg) (v : BitVec 16)
  /-- RD.D COEF (R332). -/
  | rdDCoef (i : BitVec 4)
  /-- WR.D COEF (R330). -/
  | wrDCoef (i : BitVec 4) (v : BitVec 16)
  /-- RD.H COEF (R342). -/
  | rdHCoef (i : BitVec 4)
  /-- WR.H COEF (R342). -/
  | wrHCoef (i : BitVec 4) (v : BitVec 16)
  /-- RD.D DSCR (R301). -/
  | rdDDscr
  /-- WR.D DSCR (R300). -/
  | wrDDscr (v : BitVec 16)
  /-- RD.H DSCR (R301). -/
  | rdHDscr
  /-- WR.H DSCR (R300). -/
  | wrHDscr (v : BitVec 16)
  /-- RD.D DSBL (R301). -/
  | rdDDsbl
  /-- WR.D DSBL (R304). -/
  | wrDDsbl (v : BitVec 16)
  /-- RD.H DSBL (R301). -/
  | rdHDsbl
  /-- WR.H DSBL (R304). -/
  | wrHDsbl (v : BitVec 16)
  /-- RD.D DSPA (R301). -/
  | rdDDspa
  /-- WR.D DSPA (R300). -/
  | wrDDspa (v : BitVec 16)
  /-- RD.H DSPA (R301). -/
  | rdHDspa
  /-- WR.H DSPA (R300). -/
  | wrHDspa (v : BitVec 16)
  /-- RD.D DSMAH (R301). -/
  | rdDDsmah
  /-- WR.D DSMAH (R300). -/
  | wrDDsmah (v : BitVec 16)
  /-- RD.H DSMAH (R301). -/
  | rdHDsmah
  /-- WR.H DSMAH (R300). -/
  | wrHDsmah (v : BitVec 16)
  /-- RD.D DSMAL (R301). -/
  | rdDDsmal
  /-- WR.D DSMAL (R300). -/
  | wrDDsmal (v : BitVec 16)
  /-- RD.H DSMAL (R301). -/
  | rdHDsmal
  /-- WR.H DSMAL (R300). -/
  | wrHDsmal (v : BitVec 16)
  /-- RD.D FMT (R332). -/
  | rdDFmt
  /-- WR.D FMT (R330). -/
  | wrDFmt (v : BitVec 16)
  /-- RD.H FMT (R342). -/
  | rdHFmt
  /-- WR.H FMT (R342). -/
  | wrHFmt (v : BitVec 16)
  /-- RD.D ACDAT1 (R342). -/
  | rdDAcdat1
  /-- WR.D ACDAT1 (R341). -/
  | wrDAcdat1 (v : BitVec 16)
  /-- RD.H ACDAT1 (R342). -/
  | rdHAcdat1
  /-- WR.H ACDAT1 (R342). -/
  | wrHAcdat1 (v : BitVec 16)
  /-- RD.D ACSAH (R332). -/
  | rdDAcsah
  /-- WR.D ACSAH (R330). -/
  | wrDAcsah (v : BitVec 16)
  /-- RD.H ACSAH (R342). -/
  | rdHAcsah
  /-- WR.H ACSAH (R342). -/
  | wrHAcsah (v : BitVec 16)
  /-- RD.D ACSAL (R332). -/
  | rdDAcsal
  /-- WR.D ACSAL (R330). -/
  | wrDAcsal (v : BitVec 16)
  /-- RD.H ACSAL (R342). -/
  | rdHAcsal
  /-- WR.H ACSAL (R342). -/
  | wrHAcsal (v : BitVec 16)
  /-- RD.D ACEAH (R332). -/
  | rdDAceah
  /-- WR.D ACEAH (R330). -/
  | wrDAceah (v : BitVec 16)
  /-- RD.H ACEAH (R342). -/
  | rdHAceah
  /-- WR.H ACEAH (R342). -/
  | wrHAceah (v : BitVec 16)
  /-- RD.D ACEAL (R332). -/
  | rdDAceal
  /-- WR.D ACEAL (R330). -/
  | wrDAceal (v : BitVec 16)
  /-- RD.H ACEAL (R342). -/
  | rdHAceal
  /-- WR.H ACEAL (R342). -/
  | wrHAceal (v : BitVec 16)
  /-- RD.D ACCAH (R332). -/
  | rdDAccah
  /-- WR.D ACCAH (R330). -/
  | wrDAccah (v : BitVec 16)
  /-- RD.H ACCAH (R342). -/
  | rdHAccah
  /-- WR.H ACCAH (R342). -/
  | wrHAccah (v : BitVec 16)
  /-- RD.D ACCAL (R332). -/
  | rdDAccal
  /-- WR.D ACCAL (R330). -/
  | wrDAccal (v : BitVec 16)
  /-- RD.H ACCAL (R342). -/
  | rdHAccal
  /-- WR.H ACCAL (R342). -/
  | wrHAccal (v : BitVec 16)
  /-- RD.D PS (R332). -/
  | rdDPs
  /-- WR.D PS (R330). -/
  | wrDPs (v : BitVec 16)
  /-- RD.H PS (R342). -/
  | rdHPs
  /-- WR.H PS (R342). -/
  | wrHPs (v : BitVec 16)
  /-- RD.D YN1 (R332). -/
  | rdDYn1
  /-- WR.D YN1 (R330). -/
  | wrDYn1 (v : BitVec 16)
  /-- RD.H YN1 (R342). -/
  | rdHYn1
  /-- WR.H YN1 (R342). -/
  | wrHYn1 (v : BitVec 16)
  /-- RD.D YN2 (R332). -/
  | rdDYn2
  /-- WR.D YN2 (R330). -/
  | wrDYn2 (v : BitVec 16)
  /-- RD.H YN2 (R342). -/
  | rdHYn2
  /-- WR.H YN2 (R342). -/
  | wrHYn2 (v : BitVec 16)
  /-- RD.D ACDAT (R334). -/
  | rdDAcdat
  /-- WR.D ACDAT (R342). -/
  | wrDAcdat (v : BitVec 16)
  /-- RD.H ACDAT (R342). -/
  | rdHAcdat
  /-- WR.H ACDAT (R342). -/
  | wrHAcdat (v : BitVec 16)
  /-- RD.D GAIN (R332). -/
  | rdDGain
  /-- WR.D GAIN (R330). -/
  | wrDGain (v : BitVec 16)
  /-- RD.H GAIN (R342). -/
  | rdHGain
  /-- WR.H GAIN (R342). -/
  | wrHGain (v : BitVec 16)
  /-- RD.D DIRQ (R283). -/
  | rdDDirq
  /-- WR.D DIRQ (R282). -/
  | wrDDirq (v : BitVec 16)
  /-- RD.H DIRQ (R283). -/
  | rdHDirq
  /-- WR.H DIRQ (R283). -/
  | wrHDirq (v : BitVec 16)
  /-- RD.D DMBH (R275). -/
  | rdDDmbh
  /-- WR.D DMBH (R272). -/
  | wrDDmbh (v : BitVec 16)
  /-- RD.H DMBH (R275). -/
  | rdHDmbh
  /-- WR.H DMBH (R277). -/
  | wrHDmbh (v : BitVec 16)
  /-- RD.D DMBL (R276). -/
  | rdDDmbl
  /-- WR.D DMBL (R273). -/
  | wrDDmbl (v : BitVec 16)
  /-- RD.H DMBL (R274). -/
  | rdHDmbl
  /-- WR.H DMBL (R277). -/
  | wrHDmbl (v : BitVec 16)
  /-- RD.D CMBH (R275). -/
  | rdDCmbh
  /-- WR.D CMBH (R277). -/
  | wrDCmbh (v : BitVec 16)
  /-- RD.H CMBH (R275). -/
  | rdHCmbh
  /-- WR.H CMBH (R272). -/
  | wrHCmbh (v : BitVec 16)
  /-- RD.D CMBL (R274). -/
  | rdDCmbl
  /-- WR.D CMBL (R277). -/
  | wrDCmbl (v : BitVec 16)
  /-- RD.H CMBL (R276). -/
  | rdHCmbl
  /-- WR.H CMBL (R273). -/
  | wrHCmbl (v : BitVec 16)
  /-- RD.D or WR.D at 0xFF00 + `lo`, an address the register map does not hold (R104); `v` is the data of a write. -/
  | unknownD (dir : Dir) (lo : BitVec 8) (v : BitVec 16)
  /-- RD.H or WR.H at 0xFF00 + `lo`, an address the register map does not hold (R104); `v` is the data of a write. -/
  | unknownH (dir : Dir) (lo : BitVec 8) (v : BitVec 16)
deriving DecidableEq, Repr

end Sys2Proof
end

