-- ==== Sys2Proof/Decode.lean ====
section
/-! DEFINITION. The decoder of ALU commands and transactions (30_encoding.md R100, R102 to R109) and the encoder, both
written from the same tables. `decode` is total on every word; `none` is a refused word (R100, R109). -/

namespace Sys2Proof

/-! ### Bits of operand fields -/

/-- Bit 23, `d` (R106). -/
def AccId.bit : AccId → BitVec 1
  | .ac0 => 0
  | .ac1 => 1

def accOf (b : BitVec 1) : AccId := if b = 0 then .ac0 else .ac1

def AxId.bit : AxId → BitVec 1
  | .ax0 => 0
  | .ax1 => 1

def axOf (b : BitVec 1) : AxId := if b = 0 then .ax0 else .ax1

def AxHalf.bit : AxHalf → BitVec 1
  | .low => 0
  | .high => 1

def halfOf (b : BitVec 1) : AxHalf := if b = 0 then .low else .high

/-- The two bits of `axreg(s)` (R107). -/
def AxReg.bits : AxReg → BitVec 2
  | .ax0l => 0
  | .ax1l => 1
  | .ax0h => 2
  | .ax1h => 3

def axRegOf (b : BitVec 2) : AxReg :=
  match b.toNat with
  | 0 => .ax0l
  | 1 => .ax1l
  | 2 => .ax0h
  | _ => .ax1h

/-- The engine register numbers (R108). -/
def Reg.num : Reg → BitVec 8
  | .acH .ac0 => 0x10
  | .acH .ac1 => 0x11
  | .sr => 0x13
  | .prodL => 0x14
  | .prodM1 => 0x15
  | .prodH => 0x16
  | .prodM2 => 0x17
  | .axL .ax0 => 0x18
  | .axL .ax1 => 0x19
  | .axH .ax0 => 0x1A
  | .axH .ax1 => 0x1B
  | .acL .ac0 => 0x1C
  | .acL .ac1 => 0x1D
  | .acM .ac0 => 0x1E
  | .acM .ac1 => 0x1F

/-- The register of a number; every number outside R108's table is refused (R247). -/
def regOf (b : BitVec 8) : Option Reg :=
  match b.toNat with
  | 0x10 => some (.acH .ac0)
  | 0x11 => some (.acH .ac1)
  | 0x13 => some .sr
  | 0x14 => some .prodL
  | 0x15 => some .prodM1
  | 0x16 => some .prodH
  | 0x17 => some .prodM2
  | 0x18 => some (.axL .ax0)
  | 0x19 => some (.axL .ax1)
  | 0x1A => some (.axH .ax0)
  | 0x1B => some (.axH .ax1)
  | 0x1C => some (.acL .ac0)
  | 0x1D => some (.acL .ac1)
  | 0x1E => some (.acM .ac0)
  | 0x1F => some (.acM .ac1)
  | _ => none

/-! ### ALU command words (R106, R107) -/

/-- The fields of an ALU command word: op = bits 31:24, d = 23, s = 22:20, z = 19:16, imm = 15:0 (R106). -/
structure Fields where
  op : BitVec 8
  d : BitVec 1
  s : BitVec 3
  z : BitVec 4
  imm : BitVec 16
deriving DecidableEq, Repr

def Fields.ofWord (w : Word) : Fields :=
  { op := w.extractLsb' 24 8
    d := w.extractLsb' 23 1
    s := w.extractLsb' 20 3
    z := w.extractLsb' 16 4
    imm := w.extractLsb' 0 16 }

def Fields.toWord (f : Fields) : Word := f.op ++ f.d ++ f.s ++ f.z ++ f.imm

/-- Format A: s = 0, imm = 0 (R107). -/
def formA (f : Fields) (k : AccId → Instr) : Option Instr :=
  if f.s = 0 ∧ f.z = 0 ∧ f.imm = 0 then some (k (accOf f.d)) else none

/-- Format AR: s[1:0] selects `axreg(s)`, s[2] = 0 (R107). -/
def formAR (f : Fields) (k : AccId → AxReg → Instr) : Option Instr :=
  if f.s.extractLsb' 2 1 = 0 ∧ f.z = 0 ∧ f.imm = 0 then
    some (k (accOf f.d) (axRegOf (f.s.extractLsb' 0 2)))
  else none

/-- Formats AX and AH, and format X of the commands that use an accumulator: s[0] selects ax0 or ax1, s[2:1] = 0 (R107). -/
def formAX (f : Fields) (k : AccId → AxId → Instr) : Option Instr :=
  if f.s.extractLsb' 1 2 = 0 ∧ f.z = 0 ∧ f.imm = 0 then
    some (k (accOf f.d) (axOf (f.s.extractLsb' 0 1)))
  else none

/-- Format X without an accumulator, and TSTAXH: d = 0, s[0] selects ax0 or ax1, s[2:1] = 0 (R107, R153). -/
def formX1 (f : Fields) (k : AxId → Instr) : Option Instr :=
  if f.d = 0 ∧ f.s.extractLsb' 1 2 = 0 ∧ f.z = 0 ∧ f.imm = 0 then
    some (k (axOf (f.s.extractLsb' 0 1)))
  else none

/-- Format X of MULX, MADDX and MSUBX: d = 0, s[1] selects the half of ax0, s[0] the half of ax1, s[2] = 0 (R107, R213). -/
def formX2 (f : Fields) (k : AxHalf → AxHalf → Instr) : Option Instr :=
  if f.d = 0 ∧ f.s.extractLsb' 2 1 = 0 ∧ f.z = 0 ∧ f.imm = 0 then
    some (k (halfOf (f.s.extractLsb' 1 1)) (halfOf (f.s.extractLsb' 0 1)))
  else none

/-- Format AI: s = 0 (R107). -/
def formAI (f : Fields) (k : AccId → BitVec 16 → Instr) : Option Instr :=
  if f.s = 0 ∧ f.z = 0 then some (k (accOf f.d) f.imm) else none

/-- Format AI8: s = 0, imm[15:8] = 0 (R107). -/
def formAI8 (f : Fields) (k : AccId → BitVec 8 → Instr) : Option Instr :=
  if f.s = 0 ∧ f.z = 0 ∧ f.imm.extractLsb' 8 8 = 0 then
    some (k (accOf f.d) (f.imm.extractLsb' 0 8))
  else none

/-- Format AS6: s = 0, imm[15:6] = 0 (R107). -/
def formAS6 (f : Fields) (k : AccId → BitVec 6 → Instr) : Option Instr :=
  if f.s = 0 ∧ f.z = 0 ∧ f.imm.extractLsb' 6 10 = 0 then
    some (k (accOf f.d) (f.imm.extractLsb' 0 6))
  else none

/-- Format N: d = 0, s = 0, imm = 0 (R107). -/
def formN (f : Fields) (i : Instr) : Option Instr :=
  if f.d = 0 ∧ f.s = 0 ∧ f.z = 0 ∧ f.imm = 0 then some i else none

/-- Format R of RREG: bits 23:16 = r, bits 15:0 = 0 (R106, R246). -/
def formRead (f : Fields) (k : Reg → Instr) : Option Instr :=
  if f.imm = 0 then (regOf (f.d ++ f.s ++ f.z)).map k else none

/-- Format R of WREG: bits 23:16 = r, bits 15:0 = the value (R106, R245). -/
def formWrite (f : Fields) (k : Reg → BitVec 16 → Instr) : Option Instr :=
  (regOf (f.d ++ f.s ++ f.z)).map (fun r => k r f.imm)

/-- Decodes an ALU command word; an op value with no row is refused (R109, R111). -/
def decodeFields (f : Fields) : Option Instr :=
  match f.op.toNat with
  | 0x01 => formA f .clr
  | 0x02 => formA f .add
  | 0x03 => formAR f .addr
  | 0x04 => formAX f .addax
  | 0x05 => formA f .addp
  | 0x06 => formAI f .addi
  | 0x07 => formAI8 f .addis
  | 0x08 => formA f .sub
  | 0x09 => formAR f .subr
  | 0x0A => formAX f .subax
  | 0x0B => formA f .subp
  | 0x0C => formA f .inc
  | 0x0D => formA f .dec
  | 0x0E => formA f .incm
  | 0x0F => formA f .decm
  | 0x10 => formA f .neg
  | 0x11 => formA f .abs
  | 0x12 => formN f .cmp
  | 0x13 => formAI f .cmpi
  | 0x14 => formA f .tst
  | 0x15 => formX1 f .tstaxh
  | 0x16 => formA f .mov
  | 0x17 => formAR f .movr
  | 0x18 => formAX f .movax
  | 0x19 => formA f .movp
  | 0x1A => formA f .movnp
  | 0x20 => formAX f .andr
  | 0x21 => formAX f .orr
  | 0x22 => formAX f .xorr
  | 0x23 => formA f .andc
  | 0x24 => formA f .orc
  | 0x25 => formA f .xorc
  | 0x26 => formAI f .andi
  | 0x27 => formAI f .ori
  | 0x28 => formAI f .xori
  | 0x29 => formA f .not
  | 0x2A => formAI f .andf
  | 0x2B => formAI f .andcf
  | 0x30 => formAS6 f .lsl
  | 0x31 => formAS6 f .lsr
  | 0x32 => formAS6 f .asl
  | 0x33 => formAS6 f .asr
  | 0x34 => formA f .lsl16
  | 0x35 => formA f .lsr16
  | 0x36 => formA f .asr16
  | 0x40 => formX1 f .mul
  | 0x41 => formX2 f .mulx
  | 0x42 => formAX f .mulc
  | 0x43 => formAX f .mulac
  | 0x44 => formAX f .mulmv
  | 0x45 => formX1 f .madd
  | 0x46 => formX1 f .msub
  | 0x47 => formX2 f .maddx
  | 0x48 => formX2 f .msubx
  | 0x49 => formAX f .maddc
  | 0x4A => formAX f .msubc
  | 0x4B => formN f .clrp
  | 0x4C => formN f .tstprod
  | 0x50 => formN f .set15
  | 0x51 => formN f .clr15
  | 0x52 => formN f .set40
  | 0x53 => formN f .clr40
  | 0x54 => formN f .m2
  | 0x55 => formN f .m0
  | 0x58 => formRead f .rreg
  | 0x59 => formWrite f .wreg
  | _ => none

def decodeCommand (w : Word) : Option Instr := decodeFields (Fields.ofWord w)

/-! ### Transaction words (R100 to R104) -/

def Port.bit : Port → BitVec 1
  | .dsp => 0
  | .host => 1

def portOf (b : BitVec 1) : Port := if b = 0 then .dsp else .host

def Dir.bit : Dir → BitVec 1
  | .read => 0
  | .write => 1

def dirOf (b : BitVec 1) : Dir := if b = 0 then .read else .write

/-- The default register map (R102). -/
def IfxMap.standard : IfxMap :=
  { coef := #v[0xA0, 0xA1, 0xA2, 0xA3, 0xA4, 0xA5, 0xA6, 0xA7, 0xA8, 0xA9, 0xAA, 0xAB, 0xAC, 0xAD, 0xAE, 0xAF]
    dscr := 0xC9
    dsbl := 0xCB
    dspa := 0xCD
    dsmah := 0xCE
    dsmal := 0xCF
    fmt := 0xD1
    acdat1 := 0xD3
    acsah := 0xD4
    acsal := 0xD5
    aceah := 0xD6
    aceal := 0xD7
    accah := 0xD8
    accal := 0xD9
    ps := 0xDA
    yn1 := 0xDB
    yn2 := 0xDC
    acdat := 0xDD
    gain := 0xDE
    dirq := 0xFB
    dmbh := 0xFC
    dmbl := 0xFD
    cmbh := 0xFE
    cmbl := 0xFF }

/-- Where a map puts a register. -/
def IfxMap.place (m : IfxMap) : IfxReg → BitVec 8
  | .coef i => m.coef[i.toNat]
  | .dscr => m.dscr
  | .dsbl => m.dsbl
  | .dspa => m.dspa
  | .dsmah => m.dsmah
  | .dsmal => m.dsmal
  | .fmt => m.fmt
  | .acdat1 => m.acdat1
  | .acsah => m.acsah
  | .acsal => m.acsal
  | .aceah => m.aceah
  | .aceal => m.aceal
  | .accah => m.accah
  | .accal => m.accal
  | .ps => m.ps
  | .yn1 => m.yn1
  | .yn2 => m.yn2
  | .acdat => m.acdat
  | .gain => m.gain
  | .dirq => m.dirq
  | .dmbh => m.dmbh
  | .dmbl => m.dmbl
  | .cmbh => m.cmbh
  | .cmbl => m.cmbl

/-- The address of a place in the register block, 0xFF00 to 0xFFFF (R7, R14). -/
def blockAddr (lo : BitVec 8) : BitVec 16 := 0xFF#8 ++ lo

/-- The address of a register (R102). -/
def IfxMap.addr (m : IfxMap) (r : IfxReg) : BitVec 16 := blockAddr (m.place r)

/-- Every register, in the order of R102's table. -/
def IfxReg.all : List IfxReg :=
  [.coef 0, .coef 1, .coef 2, .coef 3, .coef 4, .coef 5, .coef 6, .coef 7, .coef 8, .coef 9, .coef 10, .coef 11, .coef 12,
    .coef 13, .coef 14, .coef 15, .dscr, .dsbl, .dspa, .dsmah, .dsmal, .fmt, .acdat1, .acsah, .acsal, .aceah, .aceal,
    .accah, .accal, .ps, .yn1, .yn2, .acdat, .gain, .dirq, .dmbh, .dmbl, .cmbh, .cmbl]

/-- The register an address names, if the map holds it (R102, R103). Of two registers at one address the first in the
table's order is taken: DESIGN CHOICE (log 8). -/
def IfxMap.regAt (m : IfxMap) (a : BitVec 16) : Option IfxReg := IfxReg.all.find? (fun r => decide (m.addr r = a))

/-- The instruction that is a transaction of a port and a direction on a register. A read carries no data (R100). -/
def txnInstr (p : Port) (w : Dir) (r : IfxReg) (v : BitVec 16) : Instr :=
  match p, w, r with
  | .dsp, .read, .coef i => .rdDCoef i
  | .dsp, .write, .coef i => .wrDCoef i v
  | .host, .read, .coef i => .rdHCoef i
  | .host, .write, .coef i => .wrHCoef i v
  | .dsp, .read, .dscr => .rdDDscr
  | .dsp, .write, .dscr => .wrDDscr v
  | .host, .read, .dscr => .rdHDscr
  | .host, .write, .dscr => .wrHDscr v
  | .dsp, .read, .dsbl => .rdDDsbl
  | .dsp, .write, .dsbl => .wrDDsbl v
  | .host, .read, .dsbl => .rdHDsbl
  | .host, .write, .dsbl => .wrHDsbl v
  | .dsp, .read, .dspa => .rdDDspa
  | .dsp, .write, .dspa => .wrDDspa v
  | .host, .read, .dspa => .rdHDspa
  | .host, .write, .dspa => .wrHDspa v
  | .dsp, .read, .dsmah => .rdDDsmah
  | .dsp, .write, .dsmah => .wrDDsmah v
  | .host, .read, .dsmah => .rdHDsmah
  | .host, .write, .dsmah => .wrHDsmah v
  | .dsp, .read, .dsmal => .rdDDsmal
  | .dsp, .write, .dsmal => .wrDDsmal v
  | .host, .read, .dsmal => .rdHDsmal
  | .host, .write, .dsmal => .wrHDsmal v
  | .dsp, .read, .fmt => .rdDFmt
  | .dsp, .write, .fmt => .wrDFmt v
  | .host, .read, .fmt => .rdHFmt
  | .host, .write, .fmt => .wrHFmt v
  | .dsp, .read, .acdat1 => .rdDAcdat1
  | .dsp, .write, .acdat1 => .wrDAcdat1 v
  | .host, .read, .acdat1 => .rdHAcdat1
  | .host, .write, .acdat1 => .wrHAcdat1 v
  | .dsp, .read, .acsah => .rdDAcsah
  | .dsp, .write, .acsah => .wrDAcsah v
  | .host, .read, .acsah => .rdHAcsah
  | .host, .write, .acsah => .wrHAcsah v
  | .dsp, .read, .acsal => .rdDAcsal
  | .dsp, .write, .acsal => .wrDAcsal v
  | .host, .read, .acsal => .rdHAcsal
  | .host, .write, .acsal => .wrHAcsal v
  | .dsp, .read, .aceah => .rdDAceah
  | .dsp, .write, .aceah => .wrDAceah v
  | .host, .read, .aceah => .rdHAceah
  | .host, .write, .aceah => .wrHAceah v
  | .dsp, .read, .aceal => .rdDAceal
  | .dsp, .write, .aceal => .wrDAceal v
  | .host, .read, .aceal => .rdHAceal
  | .host, .write, .aceal => .wrHAceal v
  | .dsp, .read, .accah => .rdDAccah
  | .dsp, .write, .accah => .wrDAccah v
  | .host, .read, .accah => .rdHAccah
  | .host, .write, .accah => .wrHAccah v
  | .dsp, .read, .accal => .rdDAccal
  | .dsp, .write, .accal => .wrDAccal v
  | .host, .read, .accal => .rdHAccal
  | .host, .write, .accal => .wrHAccal v
  | .dsp, .read, .ps => .rdDPs
  | .dsp, .write, .ps => .wrDPs v
  | .host, .read, .ps => .rdHPs
  | .host, .write, .ps => .wrHPs v
  | .dsp, .read, .yn1 => .rdDYn1
  | .dsp, .write, .yn1 => .wrDYn1 v
  | .host, .read, .yn1 => .rdHYn1
  | .host, .write, .yn1 => .wrHYn1 v
  | .dsp, .read, .yn2 => .rdDYn2
  | .dsp, .write, .yn2 => .wrDYn2 v
  | .host, .read, .yn2 => .rdHYn2
  | .host, .write, .yn2 => .wrHYn2 v
  | .dsp, .read, .acdat => .rdDAcdat
  | .dsp, .write, .acdat => .wrDAcdat v
  | .host, .read, .acdat => .rdHAcdat
  | .host, .write, .acdat => .wrHAcdat v
  | .dsp, .read, .gain => .rdDGain
  | .dsp, .write, .gain => .wrDGain v
  | .host, .read, .gain => .rdHGain
  | .host, .write, .gain => .wrHGain v
  | .dsp, .read, .dirq => .rdDDirq
  | .dsp, .write, .dirq => .wrDDirq v
  | .host, .read, .dirq => .rdHDirq
  | .host, .write, .dirq => .wrHDirq v
  | .dsp, .read, .dmbh => .rdDDmbh
  | .dsp, .write, .dmbh => .wrDDmbh v
  | .host, .read, .dmbh => .rdHDmbh
  | .host, .write, .dmbh => .wrHDmbh v
  | .dsp, .read, .dmbl => .rdDDmbl
  | .dsp, .write, .dmbl => .wrDDmbl v
  | .host, .read, .dmbl => .rdHDmbl
  | .host, .write, .dmbl => .wrHDmbl v
  | .dsp, .read, .cmbh => .rdDCmbh
  | .dsp, .write, .cmbh => .wrDCmbh v
  | .host, .read, .cmbh => .rdHCmbh
  | .host, .write, .cmbh => .wrHCmbh v
  | .dsp, .read, .cmbl => .rdDCmbl
  | .dsp, .write, .cmbl => .wrDCmbl v
  | .host, .read, .cmbl => .rdHCmbl
  | .host, .write, .cmbl => .wrHCmbl v

/-- The data an instruction carries for a direction: a read's is 0 (R100: data is supplied with a write). -/
def dataOf (w : Dir) (v : BitVec 16) : BitVec 16 :=
  match w with
  | .read => 0
  | .write => v

/-- The instruction at an address of 0xFF00 to 0xFFFF the register map does not hold (R104). -/
def unknownInstr (p : Port) (w : Dir) (lo : BitVec 8) (v : BitVec 16) : Instr :=
  match p with
  | .dsp => .unknownD w lo (dataOf w v)
  | .host => .unknownH w lo (dataOf w v)

/-- The 32-bit transaction word: bits 31:18 = 0, bit 17 = port, bit 16 = direction, bits 15:0 = address (R100). -/
def txnWord (p : Port) (w : Dir) (a : BitVec 16) : Word := 0#14 ++ p.bit ++ w.bit ++ a

/-- Decodes the pair of a transaction word and its data (R100, R103, R104). A word with a bit of 31:18 set is refused,
and so is an address below 0xFF00, which names no register: a DSP-port word with such an address is no register
transaction (R103), and as an ALU command it has the reserved op 0x00 (R109, R111). -/
def decodeTransaction (m : IfxMap) (w : Word) (v : BitVec 16) : Option Instr :=
  if w.extractLsb' 18 14 = 0 then
    match m.regAt (w.extractLsb' 0 16) with
    | some r => some (txnInstr (portOf (w.extractLsb' 17 1)) (dirOf (w.extractLsb' 16 1)) r v)
    | none =>
      if w.extractLsb' 8 8 = 0xFF then
        some (unknownInstr (portOf (w.extractLsb' 17 1)) (dirOf (w.extractLsb' 16 1)) (w.extractLsb' 0 8) v)
      else none
  else none

/-! ### The decoder -/

/-- Decodes a word and the data beside it, with the register map `m`. Op 0x00 is reserved (R111), so a word whose top byte
is 0 can only be a transaction word, and every other word an ALU command. -/
def decode (m : IfxMap) (w : Word) (v : BitVec 16) : Option Instr :=
  if w.extractLsb' 24 8 = 0 then decodeTransaction m w v else decodeCommand w

/-- The host's question, with the default register map, which the opcode table's rows are written with: the instruction
whose bits are `w`, the word in bits 31:0 and the data in bits 47:32. -/
def decodeTableWord (nbits w : Nat) : Option Instr :=
  decode .standard (BitVec.ofNat 32 (w % 2 ^ nbits)) (BitVec.ofNat 16 (w % 2 ^ nbits / 2 ^ 32))

/-! ### The encoder -/

/-- What an issuer supplies for one instruction: its 32-bit word and, beside it, the 16-bit data of a write (R100). -/
structure Code where
  word : Word
  data : BitVec 16
deriving DecidableEq, Repr

def Fields.code (f : Fields) : Code := { word := f.toWord, data := 0 }

def codeA (op : BitVec 8) (d : AccId) : Code := (Fields.mk op d.bit 0 0 0).code
def codeAR (op : BitVec 8) (d : AccId) (r : AxReg) : Code := (Fields.mk op d.bit (0#1 ++ r.bits) 0 0).code
def codeAX (op : BitVec 8) (d : AccId) (x : AxId) : Code := (Fields.mk op d.bit (0#2 ++ x.bit) 0 0).code
def codeX1 (op : BitVec 8) (x : AxId) : Code := (Fields.mk op 0 (0#2 ++ x.bit) 0 0).code
def codeX2 (op : BitVec 8) (h0 h1 : AxHalf) : Code := (Fields.mk op 0 (0#1 ++ h0.bit ++ h1.bit) 0 0).code
def codeAI (op : BitVec 8) (d : AccId) (imm : BitVec 16) : Code := (Fields.mk op d.bit 0 0 imm).code
def codeAI8 (op : BitVec 8) (d : AccId) (imm : BitVec 8) : Code := (Fields.mk op d.bit 0 0 (0#8 ++ imm)).code
def codeAS6 (op : BitVec 8) (d : AccId) (n : BitVec 6) : Code := (Fields.mk op d.bit 0 0 (0#10 ++ n)).code
def codeN (op : BitVec 8) : Code := (Fields.mk op 0 0 0 0).code
def codeR (op : BitVec 8) (r : Reg) (v : BitVec 16) : Code :=
  (Fields.mk op (r.num.extractLsb' 7 1) (r.num.extractLsb' 4 3) (r.num.extractLsb' 0 4) v).code
def codeRead (op : BitVec 8) (r : Reg) : Code := codeR op r 0
def codeWrite (op : BitVec 8) (r : Reg) (v : BitVec 16) : Code := codeR op r v

def codeTxn (m : IfxMap) (p : Port) (w : Dir) (r : IfxReg) (v : BitVec 16) : Code :=
  { word := txnWord p w (m.addr r), data := v }
def codeUnknown (p : Port) (w : Dir) (lo : BitVec 8) (v : BitVec 16) : Code :=
  { word := txnWord p w (blockAddr lo), data := v }

/-- The word of an instruction with the register map `m` and the data beside it (R100, R106, R107). -/
def encode (m : IfxMap) : Instr → Code
  | .clr d => codeA 0x01 d
  | .add d => codeA 0x02 d
  | .addr d r => codeAR 0x03 d r
  | .addax d x => codeAX 0x04 d x
  | .addp d => codeA 0x05 d
  | .addi d imm => codeAI 0x06 d imm
  | .addis d imm => codeAI8 0x07 d imm
  | .sub d => codeA 0x08 d
  | .subr d r => codeAR 0x09 d r
  | .subax d x => codeAX 0x0A d x
  | .subp d => codeA 0x0B d
  | .inc d => codeA 0x0C d
  | .dec d => codeA 0x0D d
  | .incm d => codeA 0x0E d
  | .decm d => codeA 0x0F d
  | .neg d => codeA 0x10 d
  | .abs d => codeA 0x11 d
  | .cmp => codeN 0x12
  | .cmpi d imm => codeAI 0x13 d imm
  | .tst d => codeA 0x14 d
  | .tstaxh x => codeX1 0x15 x
  | .mov d => codeA 0x16 d
  | .movr d r => codeAR 0x17 d r
  | .movax d x => codeAX 0x18 d x
  | .movp d => codeA 0x19 d
  | .movnp d => codeA 0x1A d
  | .andr d x => codeAX 0x20 d x
  | .orr d x => codeAX 0x21 d x
  | .xorr d x => codeAX 0x22 d x
  | .andc d => codeA 0x23 d
  | .orc d => codeA 0x24 d
  | .xorc d => codeA 0x25 d
  | .andi d imm => codeAI 0x26 d imm
  | .ori d imm => codeAI 0x27 d imm
  | .xori d imm => codeAI 0x28 d imm
  | .not d => codeA 0x29 d
  | .andf d imm => codeAI 0x2A d imm
  | .andcf d imm => codeAI 0x2B d imm
  | .lsl d n => codeAS6 0x30 d n
  | .lsr d n => codeAS6 0x31 d n
  | .asl d n => codeAS6 0x32 d n
  | .asr d n => codeAS6 0x33 d n
  | .lsl16 d => codeA 0x34 d
  | .lsr16 d => codeA 0x35 d
  | .asr16 d => codeA 0x36 d
  | .mul x => codeX1 0x40 x
  | .mulx h0 h1 => codeX2 0x41 h0 h1
  | .mulc d x => codeAX 0x42 d x
  | .mulac d x => codeAX 0x43 d x
  | .mulmv d x => codeAX 0x44 d x
  | .madd x => codeX1 0x45 x
  | .msub x => codeX1 0x46 x
  | .maddx h0 h1 => codeX2 0x47 h0 h1
  | .msubx h0 h1 => codeX2 0x48 h0 h1
  | .maddc d x => codeAX 0x49 d x
  | .msubc d x => codeAX 0x4A d x
  | .clrp => codeN 0x4B
  | .tstprod => codeN 0x4C
  | .set15 => codeN 0x50
  | .clr15 => codeN 0x51
  | .set40 => codeN 0x52
  | .clr40 => codeN 0x53
  | .m2 => codeN 0x54
  | .m0 => codeN 0x55
  | .rreg r => codeRead 0x58 r
  | .wreg r v => codeWrite 0x59 r v
  | .rdDCoef i => codeTxn m .dsp .read (.coef i) 0
  | .wrDCoef i v => codeTxn m .dsp .write (.coef i) v
  | .rdHCoef i => codeTxn m .host .read (.coef i) 0
  | .wrHCoef i v => codeTxn m .host .write (.coef i) v
  | .rdDDscr => codeTxn m .dsp .read .dscr 0
  | .wrDDscr v => codeTxn m .dsp .write .dscr v
  | .rdHDscr => codeTxn m .host .read .dscr 0
  | .wrHDscr v => codeTxn m .host .write .dscr v
  | .rdDDsbl => codeTxn m .dsp .read .dsbl 0
  | .wrDDsbl v => codeTxn m .dsp .write .dsbl v
  | .rdHDsbl => codeTxn m .host .read .dsbl 0
  | .wrHDsbl v => codeTxn m .host .write .dsbl v
  | .rdDDspa => codeTxn m .dsp .read .dspa 0
  | .wrDDspa v => codeTxn m .dsp .write .dspa v
  | .rdHDspa => codeTxn m .host .read .dspa 0
  | .wrHDspa v => codeTxn m .host .write .dspa v
  | .rdDDsmah => codeTxn m .dsp .read .dsmah 0
  | .wrDDsmah v => codeTxn m .dsp .write .dsmah v
  | .rdHDsmah => codeTxn m .host .read .dsmah 0
  | .wrHDsmah v => codeTxn m .host .write .dsmah v
  | .rdDDsmal => codeTxn m .dsp .read .dsmal 0
  | .wrDDsmal v => codeTxn m .dsp .write .dsmal v
  | .rdHDsmal => codeTxn m .host .read .dsmal 0
  | .wrHDsmal v => codeTxn m .host .write .dsmal v
  | .rdDFmt => codeTxn m .dsp .read .fmt 0
  | .wrDFmt v => codeTxn m .dsp .write .fmt v
  | .rdHFmt => codeTxn m .host .read .fmt 0
  | .wrHFmt v => codeTxn m .host .write .fmt v
  | .rdDAcdat1 => codeTxn m .dsp .read .acdat1 0
  | .wrDAcdat1 v => codeTxn m .dsp .write .acdat1 v
  | .rdHAcdat1 => codeTxn m .host .read .acdat1 0
  | .wrHAcdat1 v => codeTxn m .host .write .acdat1 v
  | .rdDAcsah => codeTxn m .dsp .read .acsah 0
  | .wrDAcsah v => codeTxn m .dsp .write .acsah v
  | .rdHAcsah => codeTxn m .host .read .acsah 0
  | .wrHAcsah v => codeTxn m .host .write .acsah v
  | .rdDAcsal => codeTxn m .dsp .read .acsal 0
  | .wrDAcsal v => codeTxn m .dsp .write .acsal v
  | .rdHAcsal => codeTxn m .host .read .acsal 0
  | .wrHAcsal v => codeTxn m .host .write .acsal v
  | .rdDAceah => codeTxn m .dsp .read .aceah 0
  | .wrDAceah v => codeTxn m .dsp .write .aceah v
  | .rdHAceah => codeTxn m .host .read .aceah 0
  | .wrHAceah v => codeTxn m .host .write .aceah v
  | .rdDAceal => codeTxn m .dsp .read .aceal 0
  | .wrDAceal v => codeTxn m .dsp .write .aceal v
  | .rdHAceal => codeTxn m .host .read .aceal 0
  | .wrHAceal v => codeTxn m .host .write .aceal v
  | .rdDAccah => codeTxn m .dsp .read .accah 0
  | .wrDAccah v => codeTxn m .dsp .write .accah v
  | .rdHAccah => codeTxn m .host .read .accah 0
  | .wrHAccah v => codeTxn m .host .write .accah v
  | .rdDAccal => codeTxn m .dsp .read .accal 0
  | .wrDAccal v => codeTxn m .dsp .write .accal v
  | .rdHAccal => codeTxn m .host .read .accal 0
  | .wrHAccal v => codeTxn m .host .write .accal v
  | .rdDPs => codeTxn m .dsp .read .ps 0
  | .wrDPs v => codeTxn m .dsp .write .ps v
  | .rdHPs => codeTxn m .host .read .ps 0
  | .wrHPs v => codeTxn m .host .write .ps v
  | .rdDYn1 => codeTxn m .dsp .read .yn1 0
  | .wrDYn1 v => codeTxn m .dsp .write .yn1 v
  | .rdHYn1 => codeTxn m .host .read .yn1 0
  | .wrHYn1 v => codeTxn m .host .write .yn1 v
  | .rdDYn2 => codeTxn m .dsp .read .yn2 0
  | .wrDYn2 v => codeTxn m .dsp .write .yn2 v
  | .rdHYn2 => codeTxn m .host .read .yn2 0
  | .wrHYn2 v => codeTxn m .host .write .yn2 v
  | .rdDAcdat => codeTxn m .dsp .read .acdat 0
  | .wrDAcdat v => codeTxn m .dsp .write .acdat v
  | .rdHAcdat => codeTxn m .host .read .acdat 0
  | .wrHAcdat v => codeTxn m .host .write .acdat v
  | .rdDGain => codeTxn m .dsp .read .gain 0
  | .wrDGain v => codeTxn m .dsp .write .gain v
  | .rdHGain => codeTxn m .host .read .gain 0
  | .wrHGain v => codeTxn m .host .write .gain v
  | .rdDDirq => codeTxn m .dsp .read .dirq 0
  | .wrDDirq v => codeTxn m .dsp .write .dirq v
  | .rdHDirq => codeTxn m .host .read .dirq 0
  | .wrHDirq v => codeTxn m .host .write .dirq v
  | .rdDDmbh => codeTxn m .dsp .read .dmbh 0
  | .wrDDmbh v => codeTxn m .dsp .write .dmbh v
  | .rdHDmbh => codeTxn m .host .read .dmbh 0
  | .wrHDmbh v => codeTxn m .host .write .dmbh v
  | .rdDDmbl => codeTxn m .dsp .read .dmbl 0
  | .wrDDmbl v => codeTxn m .dsp .write .dmbl v
  | .rdHDmbl => codeTxn m .host .read .dmbl 0
  | .wrHDmbl v => codeTxn m .host .write .dmbl v
  | .rdDCmbh => codeTxn m .dsp .read .cmbh 0
  | .wrDCmbh v => codeTxn m .dsp .write .cmbh v
  | .rdHCmbh => codeTxn m .host .read .cmbh 0
  | .wrHCmbh v => codeTxn m .host .write .cmbh v
  | .rdDCmbl => codeTxn m .dsp .read .cmbl 0
  | .wrDCmbl v => codeTxn m .dsp .write .cmbl v
  | .rdHCmbl => codeTxn m .host .read .cmbl 0
  | .wrHCmbl v => codeTxn m .host .write .cmbl v
  | .unknownD w lo v => codeUnknown .dsp w lo v
  | .unknownH w lo v => codeUnknown .host w lo v

/-- The port an instruction is issued on: the core issues ALU commands and DSP-port transactions, the host host-port
transactions (R5, R6). -/
def Instr.port : Instr → Port
  | .clr .. | .add .. | .addr .. | .addax .. | .addp .. | .addi .. | .addis .. | .sub .. | .subr .. | .subax ..
  | .subp .. | .inc .. | .dec .. | .incm .. | .decm .. | .neg .. | .abs .. | .cmp | .cmpi .. | .tst ..
  | .tstaxh .. | .mov .. | .movr .. | .movax .. | .movp .. | .movnp .. | .andr .. | .orr .. | .xorr .. | .andc ..
  | .orc .. | .xorc .. | .andi .. | .ori .. | .xori .. | .not .. | .andf .. | .andcf .. | .lsl .. | .lsr ..
  | .asl .. | .asr .. | .lsl16 .. | .lsr16 .. | .asr16 .. | .mul .. | .mulx .. | .mulc .. | .mulac .. | .mulmv ..
  | .madd .. | .msub .. | .maddx .. | .msubx .. | .maddc .. | .msubc .. | .clrp | .tstprod | .set15 | .clr15
  | .set40 | .clr40 | .m2 | .m0 | .rreg .. | .wreg .. | .rdDCoef .. | .wrDCoef .. | .rdDDscr | .wrDDscr ..
  | .rdDDsbl | .wrDDsbl .. | .rdDDspa | .wrDDspa .. | .rdDDsmah | .wrDDsmah .. | .rdDDsmal | .wrDDsmal ..
  | .rdDFmt | .wrDFmt .. | .rdDAcdat1 | .wrDAcdat1 .. | .rdDAcsah | .wrDAcsah .. | .rdDAcsal | .wrDAcsal ..
  | .rdDAceah | .wrDAceah .. | .rdDAceal | .wrDAceal .. | .rdDAccah | .wrDAccah .. | .rdDAccal | .wrDAccal ..
  | .rdDPs | .wrDPs .. | .rdDYn1 | .wrDYn1 .. | .rdDYn2 | .wrDYn2 .. | .rdDAcdat | .wrDAcdat .. | .rdDGain
  | .wrDGain .. | .rdDDirq | .wrDDirq .. | .rdDDmbh | .wrDDmbh .. | .rdDDmbl | .wrDDmbl .. | .rdDCmbh
  | .wrDCmbh .. | .rdDCmbl | .wrDCmbl .. | .unknownD .. => .dsp
  | .rdHCoef .. | .wrHCoef .. | .rdHDscr | .wrHDscr .. | .rdHDsbl | .wrHDsbl .. | .rdHDspa | .wrHDspa ..
  | .rdHDsmah | .wrHDsmah .. | .rdHDsmal | .wrHDsmal .. | .rdHFmt | .wrHFmt .. | .rdHAcdat1 | .wrHAcdat1 ..
  | .rdHAcsah | .wrHAcsah .. | .rdHAcsal | .wrHAcsal .. | .rdHAceah | .wrHAceah .. | .rdHAceal | .wrHAceal ..
  | .rdHAccah | .wrHAccah .. | .rdHAccal | .wrHAccal .. | .rdHPs | .wrHPs .. | .rdHYn1 | .wrHYn1 .. | .rdHYn2
  | .wrHYn2 .. | .rdHAcdat | .wrHAcdat .. | .rdHGain | .wrHGain .. | .rdHDirq | .wrHDirq .. | .rdHDmbh
  | .wrHDmbh .. | .rdHDmbl | .wrHDmbl .. | .rdHCmbh | .wrHCmbh .. | .rdHCmbl | .wrHCmbl .. | .unknownH .. => .host

/-! ### The core's own words (context, R112, R113) -/

/-- A word of the DSP core is packable when its top nibble is 3 or more, and full-word when it is 0, 1 or 2 (R112, R113;
90_conflicts.md C4). -/
def coreWordPackable (w : Slot) : Bool := decide (3 ≤ (w.extractLsb' 12 4).toNat)

end Sys2Proof
end

