-- ==== Sys2Proof/Config.lean ====
section
/-! DEFINITION. The implementation parameters of 00_scope.md R8, as one record of plain data that State holds and no
step changes, so that a statement over every state holds for every value of every parameter. A parameter that is a
function (the two accelerator kernels, the mask policy) is its default of the spec or one of a family of opaque
functions, which stand for any other choice (notes/assumptions/10.md). -/

namespace Sys2Proof

/-- Memory: (byte address, byte) pairs in one canonical form (Machine/Ops.lean, `Memory.wf`). -/
abbrev Memory := List Host.Cell

/-- The sixteen ADPCM coefficient slots (10_state.md R42). -/
abbrev Coefs := Vector (BitVec 16) 16

/-- The accelerator's five sample formats (46_accelerator.md R331). -/
inductive Format | adpcm4 | raw8 | raw16 | pcm8 | pcm16
deriving DecidableEq, Repr

/-- `fmtCode`: the register value that selects each format (R331). -/
structure FmtCodes where
  adpcm4 : BitVec 16
  raw8 : BitVec 16
  raw16 : BitVec 16
  pcm8 : BitVec 16
  pcm16 : BitVec 16
deriving DecidableEq, Repr

/-- `excId`: the ids of the exceptions the engine queues (60_exceptions.md R377). -/
structure ExcIds where
  rawReadOvf : BitVec 3
  rawWriteOvf : BitVec 3
  adpcmOvf : BitVec 3
  int : BitVec 3
deriving DecidableEq, Repr

/-- The vectored exceptions by source: the accelerator overflow and the external interrupt (R376). -/
inductive ExcSource | overflow | interrupt
deriving DecidableEq, Repr

/-- A parameter that is a function: the spec's default, or the `n`-th of the other choices. -/
inductive Choice
  | standard
  | custom (n : Nat)
deriving DecidableEq, Repr

/-- `adpcmDecode` where it is not the default of R338: a free function of the nibble, ps, the coefficients, yn1 and yn2,
giving the sample and the new yn1 and yn2. -/
opaque Config.customAdpcm : Nat → BitVec 4 → BitVec 16 → Coefs → BitVec 16 → BitVec 16 →
    BitVec 16 × BitVec 16 × BitVec 16

/-- `pcmScale` where it is not the default of R336: a free function of the sample and the gain. -/
opaque Config.customPcm : Nat → Int → BitVec 16 → BitVec 16

/-- `maskPolicy` where it is not the default of R378: a free function of the source, the exception id and SR. -/
opaque Config.customMask : Nat → ExcSource → BitVec 3 → BitVec 16 → Bool

/-- The parameters (R8). -/
structure Config where
  /-- Register addresses (R102, D2). -/
  ifxMap : IfxMap
  /-- Addresses accepted and ignored (R104, D3). -/
  knownUnknown : List (BitVec 16)
  /-- Bytes of main memory (R80, D13); the spec gives no default. -/
  mainMemSize : Nat
  /-- Required alignment of the DMA main-memory address (R82, D11). -/
  dmaMainAlign : Nat
  fmtCode : FmtCodes
  adpcmDecode : Choice
  pcmScale : Choice
  excId : ExcIds
  maskPolicy : Choice
  /-- Whether exception entry clears the enable bit (R381, D23). -/
  entryClearsEnable : Bool
  /-- Depth limit of the call and data stacks, `none` if unbounded (R23, D24). -/
  stackDepth : Option Nat
  /-- Core steps an external interrupt is deferred (R383, R384). -/
  intDelay : Nat
  /-- Core steps a soft reset is deferred (R384, R385). -/
  softResetDelay : Nat
  /-- Where a soft reset sends the pc (R386, D26). -/
  softResetTarget : BitVec 16
  /-- The four product slices CLRP writes: l, m1, h, m2 (R225, D42). -/
  clrpSlices : BitVec 16 × BitVec 16 × BitVec 16 × BitVec 16
  /-- `ramResetImage` of instruction RAM and of data RAM (10_state.md R47, C9). -/
  iramImage : Memory
  dramImage : Memory
deriving DecidableEq, Repr

/-- The defaults of R8. DESIGN CHOICE, unsafe, where the spec gives none: mainMemSize (log 6), intDelay and
softResetDelay (log 7), the RAM reset images (log 9). -/
def Config.default : Config :=
  { ifxMap := .standard
    knownUnknown := []
    mainMemSize := 2 ^ 32
    dmaMainAlign := 1
    fmtCode := { adpcm4 := 0, raw8 := 1, raw16 := 2, pcm8 := 3, pcm16 := 4 }
    adpcmDecode := .standard
    pcmScale := .standard
    excId := { rawReadOvf := 3, rawWriteOvf := 4, adpcmOvf := 5, int := 7 }
    maskPolicy := .standard
    entryClearsEnable := false
    stackDepth := none
    intDelay := 0
    softResetDelay := 0
    softResetTarget := 0
    clrpSlices := (0x0000, 0xFFF0, 0x00FF, 0x0010)
    iramImage := []
    dramImage := [] }

end Sys2Proof
end

