-- ==== Sys2Proof/Machine/State.lean ====
section
/-! DEFINITION. The machine's state: every piece of state 10_state.md, 20_memory.md and 60_exceptions.md give the engine,
the parameters (`cfg`), and the model's own input and output fields. Plain data throughout. -/

namespace Sys2Proof.Machine

/-- The product register's slices; of prod.h only bits 7:0 are stored (10_state.md R27). -/
structure ProdReg where
  l : BitVec 16
  m1 : BitVec 16
  h : BitVec 8
  m2 : BitVec 16
deriving DecidableEq, Repr

/-- The ALU's registers (R20): one value per accumulator, from which every slice view is derived (R25, R248). -/
structure Alu where
  ac0 : Acc
  ac1 : Acc
  ax0 : BitVec 32
  ax1 : BitVec 32
  prod : ProdReg
  sr : BitVec 16
deriving DecidableEq, Repr

/-- One mailbox (R40). -/
structure Mailbox where
  hi : BitVec 15
  lo : BitVec 16
  ready : Bool
deriving DecidableEq, Repr

/-- The two mailboxes: CMB is host to DSP, DMB is DSP to host (44_mailbox.md R270). -/
inductive MailboxId | cmb | dmb
deriving DecidableEq, Repr

/-- The DMA descriptor (R41). -/
structure Dma where
  mmaddr : BitVec 32
  dspaddr : BitVec 16
  len : BitVec 16
  ctl : BitVec 16
deriving DecidableEq, Repr

/-- The accelerator descriptor (R42). -/
structure Accel where
  fmt : BitVec 16
  coef : Coefs
  ps : BitVec 16
  yn1 : BitVec 16
  yn2 : BitVec 16
  gain : BitVec 16
  startAddr : BitVec 32
  endAddr : BitVec 32
  cur : BitVec 32
  ovfPending : Bool
  ovfVector : BitVec 3
deriving DecidableEq, Repr

/-- Four core registers of one kind; the source gives no width (R21, N5), so none is assumed. -/
structure Quad where
  r0 : Nat
  r1 : Nat
  r2 : Nat
  r3 : Nat
deriving DecidableEq, Repr

/-- The core's own registers and loop stacks, which the engine neither reads nor writes but a hard reset clears
(R21, 70_reset_and_hazards.md R410). -/
structure CoreFile where
  ar : Quad
  ix : Quad
  wr : Quad
  gpr : Quad
  loopAddr : List Nat
  loopCount : List Nat
deriving DecidableEq, Repr

/-- The memory arrays (20_memory.md R70). -/
inductive Region | iram | irom | dram | drom | main
deriving DecidableEq, Repr

/-- The call stack and the data stack (R23). -/
inductive StackId | call | data
deriving DecidableEq, Repr

/-- The fault kinds with their info (60_exceptions.md R371): what `raise Fatal` records in `State.fault` (R373). `step`
answers one when it stands in a faulted state, where no agent has a step. Every one is a condition the spec calls fatal,
so stopping there is what the spec says: safe. -/
inductive Fault
  /-- Core data access at an unmapped data address (R73). Safe. -/
  | unmappedData (addr : BitVec 16) (dir : Dir)
  /-- Core data write to data ROM or instruction ROM (R74). Safe. -/
  | romWrite (addr : BitVec 16)
  /-- Instruction fetch at an untranslatable address, with the pc of the instruction (R75; log 16). Safe. -/
  | unmappedFetch (pc : BitVec 16)
  /-- Register-block address in neither the map nor `knownUnknown` (R104). Safe. -/
  | unknownRegister (addr : BitVec 16)
  /-- An access marked F in the register map (R105, R277). Safe. -/
  | accessDenied (port : Port) (addr : BitVec 16) (dir : Dir)
  /-- DMA slot address untranslatable, beyond 0xFFFF or not a legal target (R305). Safe. -/
  | badDspAddress (addr : Nat)
  /-- DMA or accelerator access of `n` bytes at `addr` beyond `mainMemSize` (R80, R81, R305). Safe. -/
  | mainOutOfRange (addr : Nat) (n : Nat)
  /-- Odd DMA length (R305). Safe. -/
  | dmaOddLength (len : BitVec 16)
  /-- DMA main-memory address not a multiple of `dmaMainAlign` (R305). Safe. -/
  | dmaMisaligned (mmaddr : BitVec 32)
  /-- Accelerator fetch or raw write with a code that selects no format (R334, R341). Safe. -/
  | unknownFormat (fmt : BitVec 16)
  /-- Accelerator raw write in ADPCM4 format (R341). Safe. -/
  | accelAdpcmWrite
  /-- Push onto a stack that holds `stackDepth` entries (R23). Safe. -/
  | stackOverflow
  /-- Pop of an empty stack (R23, R379). Safe. -/
  | stackUnderflow
deriving DecidableEq, Repr

/-- Why a step has no meaning to give. -/
inductive Refusal
  /-- `exec`'s answer for an instruction without a meaning. No arm answers it. Safe. -/
  | notModelled (mnemonic : String)
  /-- A word that encodes no ALU command and no transaction (30_encoding.md R100, R109, R247): "the decoder refuses
  it". Raised by the step that takes the word. Safe. -/
  | notAnInstruction (w : Word)
  /-- A word of one port supplied on the other: the core issues no host-port transaction and the host no ALU command or
  DSP-port transaction (00_scope.md R5, R6). Raised by the step that takes the word. Safe. -/
  | wrongPort (w : Word)
deriving DecidableEq, Repr

/-- The report kinds with their info (R372). R372 and 20_memory.md R77 name no info of a LoadSizeMismatch; that it records
which ROM image had the wrong size is a DESIGN CHOICE (log 29). -/
inductive Report
  | mailboxOverwrite (mailbox : MailboxId)
  | loadSizeMismatch (rom : Region)
  | knownUnknown (addr : BitVec 16)
  | writeOnlyRead (addr : BitVec 16)
  | overflowLost (vector : BitVec 3)
deriving DecidableEq, Repr

/-- A 16-bit value a core instruction uses (log 30). -/
inductive CoreVal
  /-- A value the core has of its own: an immediate, or a register of its own, which the environment gives (R21). -/
  | given (v : BitVec 16)
  /-- The value last returned to the core: by a read of memory or of a register, by RREG or by a pop (R100, R246). -/
  | returned
deriving DecidableEq, Repr

/-- One operation of a core instruction, as the engine sees it (R5, R113, R250). No operation is conditional (log 25). -/
inductive CoreOp
  /-- An ALU command or a DSP-port transaction, by its word and the data of a write (R100, R106). -/
  | issue (w : Word) (data : BitVec 16)
  /-- A data access at a data address (20_memory.md R72, R76), with the data of a write (log 28). -/
  | access (dir : Dir) (addr : BitVec 16) (data : CoreVal)
  /-- RREG of a register: its value is returned to the core (43_alu_regs_modes.md R246, R251). -/
  | readReg (r : Reg)
  /-- WREG of a register with a value the core has (43_alu_regs_modes.md R245, R251). -/
  | writeReg (r : Reg) (v : CoreVal)
  /-- The core pushes a value (R23). -/
  | push (st : StackId) (v : CoreVal)
  /-- The core pops a value (R23). -/
  | pop (st : StackId)
  /-- The core changes its own registers and loop stacks (R21). -/
  | own (f : CoreFile)
deriving DecidableEq, Repr

/-- The length of a core instruction in slots (R22, R112). -/
inductive InstrLen | one | two
deriving DecidableEq, Repr

/-- How a core instruction ends. -/
inductive CoreFlow
  /-- The pc advances by the instruction's length (R22). -/
  | next
  /-- The pc is set to the target when condition code `cc` holds, and advances otherwise (R22, R36). The condition gates
  the pc alone, not the operations before it; a RETcc jumps to the entry its pop returned, `jump cc .returned`: DESIGN
  CHOICE (log 25). -/
  | jump (cc : BitVec 4) (target : CoreVal)
  /-- IFcc (R36): when condition code `cc` does not hold the next instruction, `nextLen` slots long, is skipped: DESIGN CHOICE
  (log 25). -/
  | skip (cc : BitVec 4) (nextLen : InstrLen)
  /-- ReturnFromException (60_exceptions.md R379). -/
  | returnFromException
  /-- HALT (70_reset_and_hazards.md R414). -/
  | halt
deriving DecidableEq, Repr

/-- One instruction of the DSP core: its own bit pattern is not in the source (R115), so it is given by the engine
operations it issues, in the order the core chooses (R250), its length and how it ends. -/
structure CoreInstr where
  ops : List CoreOp
  len : InstrLen
  flow : CoreFlow
deriving DecidableEq, Repr

/-- The host's control inputs (R16, R383, R385, R412, R413). -/
inductive HostInput
  | assertInterrupt | requestSoftReset | assertReset | deassertReset | assertHalt | deassertHalt
deriving DecidableEq, Repr

/-- One event of the total order (20_memory.md R86, 70_reset_and_hazards.md R430): a whole step of the core, a host-port
transaction by its word and data, or a host control input. -/
inductive Event
  | core
  | hostTxn (w : Word) (data : BitVec 16)
  | hostInput (c : HostInput)
deriving DecidableEq, Repr

/-- The machine's state. -/
structure State where
  /-- ALU registers (R20, R24 to R31). -/
  alu : Alu
  /-- Program counter, a slot address (R22). -/
  pc : BitVec 16
  /-- Call stack, most recent entry first (R23). -/
  callStack : List (BitVec 16)
  /-- Data stack, most recent entry first (R23). -/
  dataStack : List (BitVec 16)
  /-- The core's own registers (R21). -/
  coreFile : CoreFile
  /-- Host to DSP mailbox (R40). -/
  cmb : Mailbox
  /-- DSP to host mailbox (R40). -/
  dmb : Mailbox
  /-- DMA descriptor (R41). -/
  dma : Dma
  /-- Accelerator descriptor (R42). -/
  accel : Accel
  /-- Pending external interrupt (R43). -/
  intPending : Bool
  intCount : Nat
  /-- Pending soft reset (R43). -/
  srPending : Bool
  srCount : Nat
  /-- Control lines (R44). -/
  resetLine : Bool
  haltLine : Bool
  halted : Bool
  /-- Host interrupt output (R45). -/
  hostIrqCount : Nat
  /-- Fault state (R46, R373). -/
  fault : Option Fault
  /-- Reports, oldest first (R46, R374). -/
  log : List Report
  /-- The memory arrays (R47, R70). -/
  iram : Memory
  irom : Memory
  dram : Memory
  drom : Memory
  main : Memory
  /-- The parameters (R8); no step changes them. -/
  cfg : Config
  /-- MODEL's own: the value last returned to the core (R100, R246). -/
  coreData : BitVec 16
  /-- MODEL's own: the value the last host-port read returned (R100). -/
  hostData : BitVec 16
  /-- MODEL's own: the slots of the instruction fetched last (R75, R82). -/
  fetched : List Slot
  /-- MODEL's own: the instructions the core will execute, in order. -/
  program : List CoreInstr
  /-- MODEL's own: the events still to come, in order (R86, R431). -/
  schedule : List Event
deriving DecidableEq, Repr

/-- What a meaning and a step answer. -/
abbrev Result := Host.Outcome State Fault Refusal

/-! ### Reset values (70_reset_and_hazards.md R411) -/

def ProdReg.reset : ProdReg := { l := 0, m1 := 0, h := 0, m2 := 0 }

def Alu.reset : Alu := { ac0 := 0, ac1 := 0, ax0 := 0, ax1 := 0, prod := ProdReg.reset, sr := 0 }

def Mailbox.reset : Mailbox := { hi := 0, lo := 0, ready := false }

def Dma.reset : Dma := { mmaddr := 0, dspaddr := 0, len := 0, ctl := 0 }

def Accel.reset : Accel :=
  { fmt := 0, coef := Vector.replicate 16 0, ps := 0, yn1 := 0, yn2 := 0, gain := 0, startAddr := 0, endAddr := 0,
    cur := 0, ovfPending := false, ovfVector := 0 }

def Quad.reset : Quad := { r0 := 0, r1 := 0, r2 := 0, r3 := 0 }

def CoreFile.reset : CoreFile :=
  { ar := Quad.reset, ix := Quad.reset, wr := Quad.reset, gpr := Quad.reset, loopAddr := [], loopCount := [] }

/-- The machine right after reset (R410, R411), with nothing listed in any memory. DESIGN CHOICE, unsafe, where the spec
gives no value: both lines low (log 11), the parameters without default (log 6, 7, 9), the model's own fields (log 1, 13). -/
def State.reset : State :=
  { alu := Alu.reset
    pc := 0x8000
    callStack := []
    dataStack := []
    coreFile := CoreFile.reset
    cmb := Mailbox.reset
    dmb := Mailbox.reset
    dma := Dma.reset
    accel := Accel.reset
    intPending := false
    intCount := 0
    srPending := false
    srCount := 0
    resetLine := false
    haltLine := false
    halted := false
    hostIrqCount := 0
    fault := none
    log := []
    iram := []
    irom := []
    dram := []
    drom := []
    main := []
    cfg := Config.default
    coreData := 0
    hostData := 0
    fetched := []
    program := []
    schedule := [] }

end Sys2Proof.Machine
end

