-- ==== Sys2Proof/Machine/Flags.lean ====
section
/-! DEFINITION. The status register's bits, every flag function, and the condition codes (10_state.md R30 to R36). -/

namespace Sys2Proof.Machine

/-- The named bits of SR (R29, R30). -/
inductive Flag
  | carry | overflow | zero | sign | above32 | topTwo | bitTest | sticky | ie | eie | am | sxm | su
deriving DecidableEq, Repr

/-- The position of a named bit (R30). Bits 8, 10 and 12 are reserved: stored, read back, without effect. -/
def Flag.bit : Flag → Nat
  | .carry => 0
  | .overflow => 1
  | .zero => 2
  | .sign => 3
  | .above32 => 4
  | .topTwo => 5
  | .bitTest => 6
  | .sticky => 7
  | .ie => 9
  | .eie => 11
  | .am => 13
  | .sxm => 14
  | .su => 15

/-- Reads `SR.F` (R11). -/
def srGet (sr : BitVec 16) (f : Flag) : Bool := sr.getLsbD f.bit

/-- Writes `SR.F` and no other bit (R11). -/
def srPut (sr : BitVec 16) (f : Flag) (b : Bool) : BitVec 16 :=
  if b then sr ||| (1#16 <<< f.bit) else sr &&& ~~~(1#16 <<< f.bit)

/-- `v = sext_32(v)`: the value fits in 32 signed bits (R10, R32). -/
def fits32 (v : Acc) : Bool := decide ((v.extractLsb' 0 32).signExtend 40 = v)

/-- `flags40(v, c, o)`: writes bits 5:0, and sets the sticky bit when `o` (R32). -/
def flags40 (sr : BitVec 16) (v : Acc) (c o : Bool) : BitVec 16 :=
  let sr := srPut sr .carry c
  let sr := srPut sr .overflow o
  let sr := srPut sr .zero (decide (v = 0))
  let sr := srPut sr .sign (decide (v.toInt < 0))
  let sr := srPut sr .above32 (!fits32 v)
  let sr := srPut sr .topTwo (v.getLsbD 31 == v.getLsbD 30)
  if o then srPut sr .sticky true else sr

/-- `flags16(w, as)` of the logic operations (R33). -/
def flags16 (sr : BitVec 16) (w : BitVec 16) (as32 : Bool) : BitVec 16 :=
  let sr := srPut sr .carry false
  let sr := srPut sr .overflow false
  let sr := srPut sr .zero (decide (w = 0))
  let sr := srPut sr .sign (w.getLsbD 15)
  let sr := srPut sr .above32 as32
  srPut sr .topTwo (w.getLsbD 15 == w.getLsbD 14)

/-- `addC(a, b)` (R34). -/
def addC (a b : Acc) : Bool := decide (2 ^ 40 ≤ a.toNat + b.toNat)

/-- `addO(a, b)`: the exact sum leaves the signed 40-bit range (R34). -/
def addO (a b : Acc) : Bool := decide (a.toInt + b.toInt < -2 ^ 39 ∨ 2 ^ 39 ≤ a.toInt + b.toInt)

/-- `subC(a, b)`: carry is no borrow (R34). -/
def subC (a b : Acc) : Bool := decide (b.toNat ≤ a.toNat)

/-- `subO(a, b)`: the exact difference leaves the signed 40-bit range (R34). -/
def subO (a b : Acc) : Bool := decide (a.toInt - b.toInt < -2 ^ 39 ∨ 2 ^ 39 ≤ a.toInt - b.toInt)

/-- The sixteen condition codes of the core's conditional instructions (R36). -/
def condHolds (cc : BitVec 4) (sr : BitVec 16) : Bool :=
  let c := srGet sr .carry
  let o := srGet sr .overflow
  let z := srGet sr .zero
  let s := srGet sr .sign
  let as32 := srGet sr .above32
  let tt := srGet sr .topTwo
  let lz := srGet sr .bitTest
  match cc.toNat with
  | 0x0 => s == o
  | 0x1 => s != o
  | 0x2 => (s == o) && !z
  | 0x3 => (s != o) || z
  | 0x4 => !z
  | 0x5 => z
  | 0x6 => !c
  | 0x7 => c
  | 0x8 => !as32
  | 0x9 => as32
  | 0xA => (as32 || tt) && !z
  | 0xB => !((as32 || tt) && !z)
  | 0xC => !lz
  | 0xD => lz
  | 0xE => o
  | _ => true

end Sys2Proof.Machine
end

