-- ==== Sys2Proof/Machine/Operands.lean ====
section
/-! DEFINITION. Every operand form of the ALU commands: accumulator slices, the 16-bit sources, immediates, the product
value, shifts and the multiplier (10_state.md R24 to R28, 30_encoding.md R107, 41 R181, 42 R210 to R213). -/

namespace Sys2Proof.Machine

/-! ### Accumulators (R24, R25) -/

def accL (a : Acc) : BitVec 16 := a.extractLsb' 0 16
def accM (a : Acc) : BitVec 16 := a.extractLsb' 16 16
def accH (a : Acc) : BitVec 8 := a.extractLsb' 32 8

/-- `acN.h ++ acN.m ++ acN.l` (R24). -/
def mkAcc (h : BitVec 8) (m l : BitVec 16) : Acc := h ++ m ++ l

/-- The stored 40-bit value of accumulator `d`; its `toInt` is `acc(d)` (R11, R24). -/
def State.acc (d : AccId) (s : State) : Acc :=
  match d with
  | .ac0 => s.alu.ac0
  | .ac1 => s.alu.ac1

/-! ### The 32-bit accumulators (R26) -/

def State.ax (x : AxId) (s : State) : BitVec 32 :=
  match x with
  | .ax0 => s.alu.ax0
  | .ax1 => s.alu.ax1

def State.axLow (x : AxId) (s : State) : BitVec 16 := (s.ax x).extractLsb' 0 16
def State.axHigh (x : AxId) (s : State) : BitVec 16 := (s.ax x).extractLsb' 16 16

def State.axHalf (x : AxId) (h : AxHalf) (s : State) : BitVec 16 :=
  match h with
  | .low => s.axLow x
  | .high => s.axHigh x

/-- `x[axreg(s)]` (R107). -/
def State.axReg (r : AxReg) (s : State) : BitVec 16 :=
  match r with
  | .ax0l => s.axLow .ax0
  | .ax1l => s.axLow .ax1
  | .ax0h => s.axHigh .ax0
  | .ax1h => s.axHigh .ax1

/-- `ax(x)` as a 40-bit operand: the signed 32-bit value (R26, G1). -/
def State.axAcc (x : AxId) (s : State) : Acc := wrap40 (s.ax x).toInt

/-! ### 16-bit and 8-bit values placed in the middle slice (40_alu_arith.md R132, R139) -/

def hi16 (w : BitVec 16) : Acc := wrap40 (w.toInt * 2 ^ 16)
def hi8 (b : BitVec 8) : Acc := wrap40 (b.toInt * 2 ^ 16)

/-! ### The product register (R27, R28) -/

/-- `prod()` (R27). -/
def ProdReg.value (p : ProdReg) : Acc :=
  wrap40 (p.h.toInt * 2 ^ 32 + ((p.m1.toNat : Int) + (p.m2.toNat : Int)) * 2 ^ 16 + (p.l.toNat : Int))

/-- The slices a product value is stored as (R28). -/
def packProd (v : Acc) : ProdReg :=
  { l := v.extractLsb' 0 16, m1 := v.extractLsb' 16 16, h := v.extractLsb' 32 8, m2 := 0 }

/-- `prod()` of a state (R11, R27). -/
def State.prod (s : State) : Acc := s.alu.prod.value

/-! ### Shifts (R181) -/

/-- `shl(a, n) = wrap40(u40(a) * 2^n)`. -/
def shl (a : Acc) (n : Nat) : Acc := wrap40 ((a.toNat : Int) * 2 ^ n)

/-- `shrl(a, n) = wrap40(floor(u40(a) / 2^n))`. -/
def shrl (a : Acc) (n : Nat) : Acc := wrap40 ((a.toNat / 2 ^ n : Nat) : Int)

/-- `shra(a, n) = floor(a / 2^n)`. -/
def shra (a : Acc) (n : Nat) : Acc := wrap40 (a.toInt / 2 ^ n)

/-! ### The multiplier (R210 to R213) -/

/-- Signed by signed, unsigned by unsigned, unsigned by signed (R210). -/
inductive MulKind | ss | uu | us
deriving DecidableEq, Repr

/-- `mult(a, b, k)`: doubled when SR.AM = 0 (R210). -/
def mult (sr : BitVec 16) (a b : BitVec 16) (k : MulKind) : Int :=
  let raw : Int :=
    match k with
    | .ss => a.toInt * b.toInt
    | .uu => (a.toNat : Int) * (b.toNat : Int)
    | .us => (a.toNat : Int) * b.toInt
  if srGet sr .am then raw else raw * 2

/-- `kx(s)`: with SR.SU = 1 two low halves give UU, one low and one high half US, two high halves SS; with SR.SU = 0
every pair gives SS (R211, R213). -/
def mulxKind (sr : BitVec 16) (h0 h1 : AxHalf) : MulKind :=
  if srGet sr .su then
    match h0, h1 with
    | .low, .low => .uu
    | .low, .high => .us
    | .high, .low => .us
    | .high, .high => .ss
  else .ss

/-- `mx(s)` ordered as `kx(s)` requires: the unsigned operand of US stands first (R213). -/
def State.mulxOperands (h0 h1 : AxHalf) (s : State) : BitVec 16 × BitVec 16 :=
  match h0, h1 with
  | .high, .low => (s.axLow .ax1, s.axHigh .ax0)
  | _, _ => (s.axHalf .ax0 h0, s.axHalf .ax1 h1)

/-- The product of MUL, MADD, MSUB, MULAC and MULMV: axS.l by axS.h, SS (R211, R214). -/
def State.mulAx (x : AxId) (s : State) : Int := mult s.alu.sr (s.axLow x) (s.axHigh x) .ss

/-- The product of MULX, MADDX and MSUBX (R215). -/
def State.mulX (h0 h1 : AxHalf) (s : State) : Int :=
  mult s.alu.sr (s.mulxOperands h0 h1).1 (s.mulxOperands h0 h1).2 (mulxKind s.alu.sr h0 h1)

/-- The product of MULC, MADDC and MSUBC: the stored acD.m by axS.h, SS (R211, R216). -/
def State.mulC (d : AccId) (x : AxId) (s : State) : Int := mult s.alu.sr (accM (s.acc d)) (s.axHigh x) .ss

end Sys2Proof.Machine
end

