-- ==== Sys2Proof/Machine/Ops.lean ====
section
/-! DEFINITION. The named operations over memory and registers, faults and reports, the stacks, taking an exception and
returning from one, the reset actions and the host's control inputs. -/

namespace Sys2Proof

/-! ### One memory array: bytes by address in canonical form -/

/-- What an address that is not listed reads as. DESIGN CHOICE, unsafe (log 9): the spec gives RAM contents as the
parameter `ramResetImage` and says nothing of main memory. -/
def unlistedByte : Byte := 0

def Memory.read : Memory → Nat → Byte
  | [], _ => unlistedByte
  | (b, v) :: t, a => if b = a then v else Memory.read t a

/-- Stores a byte; a byte equal to what an unlisted address reads as removes the entry. -/
def Memory.write : Memory → Nat → Byte → Memory
  | [], a, v => if v = unlistedByte then [] else [(a, v)]
  | (b, w) :: t, a, v =>
    if a < b then (if v = unlistedByte then (b, w) :: t else (a, v) :: (b, w) :: t)
    else if a = b then (if v = unlistedByte then t else (a, v) :: t)
    else (b, w) :: Memory.write t a v

/-- Addresses strictly rising from `lo`, and no entry equal to what an unlisted address reads as. -/
def Memory.wfFrom : Nat → Memory → Bool
  | _, [] => true
  | lo, (a, v) :: t => decide (lo ≤ a) && decide (v ≠ unlistedByte) && Memory.wfFrom (a + 1) t

/-- The canonical form. -/
def Memory.wf (m : Memory) : Bool := Memory.wfFrom 0 m

/-- No address at or above `n` is listed. -/
def Memory.below (n : Nat) (m : Memory) : Bool := m.all (fun c => decide (c.1 < n))

/-- Reads two bytes high byte first (20_memory.md R78). -/
def Memory.readHalf (m : Memory) (a : Nat) : BitVec 16 := m.read a ++ m.read (a + 1)

/-- Writes two bytes high byte first (R78, R81). -/
def Memory.writeHalf (m : Memory) (a : Nat) (v : BitVec 16) : Memory :=
  (m.write a (v.extractLsb' 8 8)).write (a + 1) (v.extractLsb' 0 8)

/-- The memory that holds a byte list from address `a` on (a ROM image, R77). -/
def Memory.load : Nat → List Byte → Memory
  | _, [] => []
  | a, b :: t => (Memory.load (a + 1) t).write a b

end Sys2Proof

namespace Sys2Proof.Machine

/-! ### Faults and reports (60_exceptions.md R373, R374) -/

/-- `raise Fatal(kind, info)`: the state before the step plus `fault`. -/
def State.raise (f : Fault) (s : State) : State := { s with fault := some f }

/-- `report(kind, info)`: appended to the log. -/
def State.report (r : Report) (s : State) : State := { s with log := s.log ++ [r] }

/-! ### The memory arrays -/

def State.mem (r : Region) (s : State) : Memory :=
  match r with
  | .iram => s.iram
  | .irom => s.irom
  | .dram => s.dram
  | .drom => s.drom
  | .main => s.main

def State.setMem (r : Region) (m : Memory) (s : State) : State :=
  match r with
  | .iram => { s with iram := m }
  | .irom => { s with irom := m }
  | .dram => { s with dram := m }
  | .drom => { s with drom := m }
  | .main => { s with main := m }

/-- One byte of one memory array, by byte address. -/
def State.readByte (r : Region) (a : Nat) (s : State) : Byte := (s.mem r).read a

/-- Slot `k` of a DSP memory: bytes 2k and 2k + 1, high byte first (R78). -/
def State.slot (r : Region) (k : Nat) (s : State) : Slot := (s.mem r).readHalf (2 * k)

def State.setSlot (r : Region) (k : Nat) (v : Slot) (s : State) : State :=
  s.setMem r ((s.mem r).writeHalf (2 * k) v)

/-- The regions a store may change: instruction RAM and data RAM (R71, R72). -/
def Region.isRam : Region → Bool
  | .iram => true
  | .dram => true
  | .irom => false
  | .drom => false
  | .main => false

/-- `itrans(a)` (R71). -/
def itrans (a : Nat) : Option (Region × Nat) :=
  if a ≤ 0x0FFF then some (.iram, a)
  else if 0x8000 ≤ a ∧ a ≤ 0x8FFF then some (.irom, a - 0x8000)
  else none

/-- What a data address is (R72). -/
inductive DataTarget
  | slot (r : Region) (k : Nat)
  | registers
  | unmapped
deriving DecidableEq, Repr

/-- `dtrans(a)` (R72). -/
def dtrans (a : Nat) : DataTarget :=
  if a ≤ 0x0FFF then .slot .dram a
  else if a ≤ 0x17FF then .slot .drom (a - 0x1000)
  else if 0x8000 ≤ a ∧ a ≤ 0x8FFF then .slot .irom (a - 0x8000)
  else if 0xFF00 ≤ a ∧ a ≤ 0xFFFF then .registers
  else .unmapped

/-- `MemRead(MAIN, A, 1)` (R80). -/
def State.mainByte (a : Nat) (s : State) : Except Fault Byte :=
  if a + 1 > s.cfg.mainMemSize then .error (.mainOutOfRange a 1) else .ok (s.main.read a)

/-- `MemRead(MAIN, A, 2)` (R80). -/
def State.mainHalf (a : Nat) (s : State) : Except Fault (BitVec 16) :=
  if a + 2 > s.cfg.mainMemSize then .error (.mainOutOfRange a 2) else .ok (s.main.readHalf a)

/-- `MemWrite(MAIN, A, 1, v)` (R81). -/
def State.setMainByte (a : Nat) (v : Byte) (s : State) : Except Fault State :=
  if a + 1 > s.cfg.mainMemSize then .error (.mainOutOfRange a 1) else .ok { s with main := s.main.write a v }

/-- `MemWrite(MAIN, A, 2, v)` (R81). -/
def State.setMainHalf (a : Nat) (v : BitVec 16) (s : State) : Except Fault State :=
  if a + 2 > s.cfg.mainMemSize then .error (.mainOutOfRange a 2) else .ok { s with main := s.main.writeHalf a v }

/-! ### Returned values (R100, R246) -/

/-- A value returned to the core. -/
def State.toCore (v : BitVec 16) (s : State) : State := { s with coreData := v }

/-- A value returned on the host port. -/
def State.toHost (v : BitVec 16) (s : State) : State := { s with hostData := v }

/-- A value returned on a port. -/
def State.toPort (p : Port) (v : BitVec 16) (s : State) : State :=
  match p with
  | .dsp => s.toCore v
  | .host => s.toHost v

/-! ### ALU registers -/

/-- `acc(d) <- v` (R11, R24). -/
def State.setAcc (d : AccId) (v : Acc) (s : State) : State :=
  match d with
  | .ac0 => { s with alu := { s.alu with ac0 := v } }
  | .ac1 => { s with alu := { s.alu with ac1 := v } }

def State.setSr (v : BitVec 16) (s : State) : State := { s with alu := { s.alu with sr := v } }

def State.setProd (p : ProdReg) (s : State) : State := { s with alu := { s.alu with prod := p } }

def State.setAx (x : AxId) (v : BitVec 32) (s : State) : State :=
  match x with
  | .ax0 => { s with alu := { s.alu with ax0 := v } }
  | .ax1 => { s with alu := { s.alu with ax1 := v } }

/-- `storeProd(v)` (R28, R227). -/
def State.storeProd (v : Int) (s : State) : State := s.setProd (packProd (wrap40 v))

/-- Writes one mode bit of SR (43_alu_regs_modes.md R240 to R244). -/
def State.putFlag (f : Flag) (b : Bool) (s : State) : State := s.setSr (srPut s.alu.sr f b)

/-- RREG's value (R246): acN.m saturates under SXM = 1 when the accumulator does not fit in 32 bits. -/
def State.readReg (r : Reg) (s : State) : BitVec 16 :=
  match r with
  | .acL d => accL (s.acc d)
  | .acM d =>
    if srGet s.alu.sr .sxm && !fits32 (s.acc d) then (if 0 < (s.acc d).toInt then 0x7FFF else 0x8000)
    else accM (s.acc d)
  | .acH d => (accH (s.acc d)).signExtend 16
  | .axL x => s.axLow x
  | .axH x => s.axHigh x
  | .prodL => s.alu.prod.l
  | .prodM1 => s.alu.prod.m1
  | .prodM2 => s.alu.prod.m2
  | .prodH => s.alu.prod.h.signExtend 16
  | .sr => s.alu.sr

/-- WREG's effect (R245): acN.m sign-extends into acN.h and clears acN.l under SXM = 1. -/
def State.writeReg (r : Reg) (v : BitVec 16) (s : State) : State :=
  match r with
  | .acL d => s.setAcc d (mkAcc (accH (s.acc d)) (accM (s.acc d)) v)
  | .acM d =>
    if srGet s.alu.sr .sxm then s.setAcc d (mkAcc (if v.getLsbD 15 then 0xFF else 0x00) v 0)
    else s.setAcc d (mkAcc (accH (s.acc d)) v (accL (s.acc d)))
  | .acH d => s.setAcc d (mkAcc (v.extractLsb' 0 8) (accM (s.acc d)) (accL (s.acc d)))
  | .axL x => s.setAx x (s.axHigh x ++ v)
  | .axH x => s.setAx x (v ++ s.axLow x)
  | .prodL => s.setProd { s.alu.prod with l := v }
  | .prodM1 => s.setProd { s.alu.prod with m1 := v }
  | .prodM2 => s.setProd { s.alu.prod with m2 := v }
  | .prodH => s.setProd { s.alu.prod with h := v.extractLsb' 0 8 }
  | .sr => s.setSr v

/-! ### Additive operations (40_alu_arith.md R132) -/

/-- `addInto(D, b)`. -/
def State.addInto (d : AccId) (b : Acc) (s : State) : State :=
  let a := s.acc d
  let r := wrap40 (a.toInt + b.toInt)
  (s.setAcc d r).setSr (flags40 s.alu.sr r (addC a b) (addO a b))

/-- The flags of `a - b`, with no accumulator written (R150, R151). -/
def State.compare (a b : Acc) (s : State) : State :=
  s.setSr (flags40 s.alu.sr (wrap40 (a.toInt - b.toInt)) (subC a b) (subO a b))

/-- `acc(D) <- a - b` with its flags (R132, R148). -/
def State.subOf (d : AccId) (a b : Acc) (s : State) : State :=
  (s.setAcc d (wrap40 (a.toInt - b.toInt))).setSr
    (flags40 s.alu.sr (wrap40 (a.toInt - b.toInt)) (subC a b) (subO a b))

/-- `subInto(D, b)`. -/
def State.subInto (d : AccId) (b : Acc) (s : State) : State := s.subOf d (s.acc d) b

/-- The flags of a value with C = 0 and O = 0 (R152, R226). -/
def State.testAcc (v : Acc) (s : State) : State := s.setSr (flags40 s.alu.sr v false false)

/-- `setAcc(D, v)`: the value and its flags with C = 0 and O = 0 (R132, R181). -/
def State.moveInto (d : AccId) (v : Acc) (s : State) : State :=
  (s.setAcc d v).setSr (flags40 s.alu.sr v false false)

/-! ### Logic operations (41_alu_logic_shift.md R180, R192, R193) -/

/-- Stores `w` into acD.m alone and sets flags16 with AS from the new accumulator (R180). -/
def State.logicInto (d : AccId) (w : BitVec 16) (s : State) : State :=
  let r := mkAcc (accH (s.acc d)) w (accL (s.acc d))
  (s.setAcc d r).setSr (flags16 s.alu.sr w (!fits32 r))

/-! ### Stacks (10_state.md R23) -/

def State.stack (st : StackId) (s : State) : List (BitVec 16) :=
  match st with
  | .call => s.callStack
  | .data => s.dataStack

def State.setStack (st : StackId) (l : List (BitVec 16)) (s : State) : State :=
  match st with
  | .call => { s with callStack := l }
  | .data => { s with dataStack := l }

/-- Whether a stack of this length holds `stackDepth` entries. -/
def stackFull (c : Config) (l : List (BitVec 16)) : Bool :=
  match c.stackDepth with
  | none => false
  | some n => decide (n ≤ l.length)

def State.push (st : StackId) (v : BitVec 16) (s : State) : Except Fault State :=
  if stackFull s.cfg (s.stack st) then .error .stackOverflow else .ok (s.setStack st (v :: s.stack st))

def State.pop (st : StackId) (s : State) : Except Fault (BitVec 16 × State) :=
  match s.stack st with
  | [] => .error .stackUnderflow
  | v :: t => .ok (v, s.setStack st t)

/-- The state an operation gives, or the fault it raises. -/
def State.orRaise (s : State) (r : Except Fault State) : State :=
  match r with
  | .ok t => t
  | .error f => s.raise f

/-! ### Queued exceptions (60_exceptions.md R376 to R386) -/

/-- `maskPolicy` (R378): by default an overflow needs SR.IE, the external interrupt SR.EIE. -/
def maskAdmits (c : Config) (src : ExcSource) (id : BitVec 3) (sr : BitVec 16) : Bool :=
  match c.maskPolicy with
  | .custom n => Config.customMask n src id sr
  | .standard =>
    match src with
    | .overflow => srGet sr .ie
    | .interrupt => srGet sr .eie

/-- The vector of an exception id: instruction address 2 * id (R377). -/
def vectorOf (id : BitVec 3) : BitVec 16 := BitVec.ofNat 16 (2 * id.toNat)

def State.overflowAdmitted (s : State) : Bool :=
  s.accel.ovfPending && maskAdmits s.cfg .overflow s.accel.ovfVector s.alu.sr

def State.interruptAdmitted (s : State) : Bool :=
  s.intPending && decide (s.intCount = 0) && maskAdmits s.cfg .interrupt s.cfg.excId.int s.alu.sr

/-- The admitted exception with the lowest id (R380). Of two with one id the overflow is taken: DESIGN CHOICE (log 19). -/
def State.admitted (s : State) : Option (ExcSource × BitVec 3) :=
  if s.overflowAdmitted then
    if s.interruptAdmitted && decide (s.cfg.excId.int.toNat < s.accel.ovfVector.toNat) then
      some (.interrupt, s.cfg.excId.int)
    else some (.overflow, s.accel.ovfVector)
  else if s.interruptAdmitted then some (.interrupt, s.cfg.excId.int)
  else none

/-- SR after entry: unchanged, or with one enable cleared when `entryClearsEnable` (R381). -/
def entrySr (c : Config) (id : BitVec 3) (sr : BitVec 16) : BitVec 16 :=
  if c.entryClearsEnable then (if id = c.excId.int then srPut sr .eie false else srPut sr .ie false) else sr

def State.clearSource (src : ExcSource) (s : State) : State :=
  match src with
  | .overflow => { s with accel := { s.accel with ovfPending := false } }
  | .interrupt => { s with intPending := false }

/-- TAKING AN EXCEPTION (R381): pushes pc and SR, goes to the vector, clears the source. -/
def State.takeException (src : ExcSource) (id : BitVec 3) (s : State) : State :=
  match s.push .call s.pc with
  | .error f => s.raise f
  | .ok s1 =>
    match s1.push .data s.alu.sr with
    | .error f => s.raise f
    | .ok s2 => ({ s2.setSr (entrySr s.cfg id s.alu.sr) with pc := vectorOf id }).clearSource src

/-- RETURN FROM EXCEPTION (R379): `SR <- pop(data stack); pc <- pop(call stack)`. -/
def State.returnFromException (s : State) : State :=
  match s.pop .data with
  | .error f => s.raise f
  | .ok (sr, s1) =>
    match s1.pop .call with
    | .error f => s.raise f
    | .ok (pc, s2) => { s2.setSr sr with pc := pc }

/-- Soft reset action (R386). -/
def State.softReset (s : State) : State := { s with pc := s.cfg.softResetTarget, srPending := false }

/-- The end of every core step: the counts of pending events go down by one (R380). -/
def State.tick (s : State) : State :=
  { s with
    intCount := if s.intPending && decide (0 < s.intCount) then s.intCount - 1 else s.intCount
    srCount := if s.srPending && decide (0 < s.srCount) then s.srCount - 1 else s.srCount }

/-- `queueOvf` once the kind's id is known (46_accelerator.md R340). -/
def State.queueOverflow (id : BitVec 3) (s : State) : State :=
  let t := { s with accel := { s.accel with ovfPending := true, ovfVector := id } }
  if s.accel.ovfPending then t.report (.overflowLost s.accel.ovfVector) else t

/-! ### Reset and control lines (70_reset_and_hazards.md R410 to R413) -/

/-- Hard reset action (R410). -/
def State.hardReset (s : State) : State :=
  { s with
    alu := Alu.reset
    pc := 0x8000
    callStack := []
    dataStack := []
    coreFile := CoreFile.reset
    cmb := Mailbox.reset
    dmb := Mailbox.reset
    dma := Dma.reset
    accel := Accel.reset
    intPending := false
    intCount := 0
    srPending := false
    srCount := 0
    halted := false
    hostIrqCount := 0
    iram := s.cfg.iramImage
    dram := s.cfg.dramImage }

/-- A host control input (R383, R385, R412, R413). -/
def State.hostInput (c : HostInput) (s : State) : State :=
  match c with
  | .assertInterrupt =>
    if s.intPending then s else { s with intPending := true, intCount := s.cfg.intDelay }
  | .requestSoftReset =>
    if s.srPending then s else { s with srPending := true, srCount := s.cfg.softResetDelay }
  | .assertReset => { s.hardReset with resetLine := true }
  | .deassertReset => { s with resetLine := false }
  | .assertHalt => { s with haltLine := true }
  | .deassertHalt => { s with haltLine := false }

/-! ### ROM images at construction (20_memory.md R77) -/

/-- Loads one ROM image: of the wrong size it is reported and the region is left zero-filled. -/
def State.loadRom (r : Region) (size : Nat) (image : List Byte) (s : State) : State :=
  if image.length = size then s.setMem r (Memory.load 0 image) else (s.setMem r []).report (.loadSizeMismatch r)

/-- The machine constructed with its parameters and its two ROM images (R77, R410). With two images of the wrong size the
report of the instruction ROM stands before that of the data ROM, an order the spec does not give: DESIGN CHOICE (log 29). -/
def State.construct (c : Config) (iromImage dromImage : List Byte) : State :=
  (({ State.reset with cfg := c, iram := c.iramImage, dram := c.dramImage }).loadRom .irom 8192 iromImage).loadRom
    .drom 4096 dromImage

end Sys2Proof.Machine
end

