-- ==== Sys2Proof/Machine/Mailbox.lean ====
section
/-! DEFINITION. The mailboxes, the host interrupt request (44_mailbox.md R270 to R283) and the accesses the register map
denies or does not hold (30_encoding.md R102, R104, R105). -/

namespace Sys2Proof.Machine

/-! ### Shared operations -/

/-- An access marked F in the register map (R105). -/
def State.deny (p : Port) (r : IfxReg) (w : Dir) (s : State) : State := s.raise (.accessDenied p (s.cfg.ifxMap.addr r) w)

/-- A DSP read of a write-only register returns 0x0000 and is reported (R102, R283, R342). -/
def State.readWriteOnly (r : IfxReg) (s : State) : State :=
  (s.toCore 0).report (.writeOnlyRead (s.cfg.ifxMap.addr r))

/-- An address the register map does not hold: reported, ignored on write and read as 0x0000 where `knownUnknown` has
it, fatal otherwise (R104). -/
def State.unknownAccess (p : Port) (w : Dir) (a : BitVec 16) (s : State) : State :=
  if s.cfg.knownUnknown.contains a then
    match w with
    | .read => (s.toPort p 0).report (.knownUnknown a)
    | .write => s.report (.knownUnknown a)
  else s.raise (.unknownRegister a)

def State.mailbox (m : MailboxId) (s : State) : Mailbox :=
  match m with
  | .cmb => s.cmb
  | .dmb => s.dmb

def State.setMailbox (m : MailboxId) (b : Mailbox) (s : State) : State :=
  match m with
  | .cmb => { s with cmb := b }
  | .dmb => { s with dmb := b }

/-- The high word as read: ready in bit 15 (R275). -/
def Mailbox.high (b : Mailbox) : BitVec 16 := BitVec.ofBool b.ready ++ b.hi

/-- The report a sender's write makes on a mailbox whose ready bit is set (R271, R375: after the state change). -/
def State.reportOverwrite (m : MailboxId) (full : Bool) (s : State) : State :=
  if full then s.report (.mailboxOverwrite m) else s

/-- Sender writes the high word (R272). -/
def State.sendHigh (m : MailboxId) (v : BitVec 16) (s : State) : State :=
  (s.setMailbox m { s.mailbox m with hi := v.extractLsb' 0 15, ready := false }).reportOverwrite m (s.mailbox m).ready

/-- Sender writes the low word (R273). -/
def State.sendLow (m : MailboxId) (v : BitVec 16) (s : State) : State :=
  (s.setMailbox m { s.mailbox m with lo := v, ready := true }).reportOverwrite m (s.mailbox m).ready

/-- Receiver reads the low word (R274). -/
def State.receiveLow (p : Port) (m : MailboxId) (s : State) : State :=
  (s.setMailbox m { s.mailbox m with ready := false }).toPort p (s.mailbox m).lo

/-- DIRQ, DSP write (R282). -/
def State.requestHostIrq (v : BitVec 16) (s : State) : State :=
  if v.getLsbD 0 then { s with hostIrqCount := s.hostIrqCount + 1 } else s

/-! ### The transactions -/

/-- RD.D DIRQ (R283). -/
def execRdDDirq (s : State) : Result := .next (s.readWriteOnly .dirq)

/-- WR.D DIRQ (R282). -/
def execWrDDirq (v : BitVec 16) (s : State) : Result := .next (s.requestHostIrq v)

/-- RD.H DIRQ (R283, R105). -/
def execRdHDirq (s : State) : Result := .next (s.deny .host .dirq .read)

/-- WR.H DIRQ (R283, R105). -/
def execWrHDirq (_v : BitVec 16) (s : State) : Result := .next (s.deny .host .dirq .write)

/-- RD.D DMBH (R275). -/
def execRdDDmbh (s : State) : Result := .next (s.toCore (s.mailbox .dmb).high)

/-- WR.D DMBH (R272). -/
def execWrDDmbh (v : BitVec 16) (s : State) : Result := .next (s.sendHigh .dmb v)

/-- RD.H DMBH (R275). -/
def execRdHDmbh (s : State) : Result := .next (s.toHost (s.mailbox .dmb).high)

/-- WR.H DMBH (R277, R105). -/
def execWrHDmbh (_v : BitVec 16) (s : State) : Result := .next (s.deny .host .dmbh .write)

/-- RD.D DMBL (R276). -/
def execRdDDmbl (s : State) : Result := .next (s.toCore (s.mailbox .dmb).lo)

/-- WR.D DMBL (R273). -/
def execWrDDmbl (v : BitVec 16) (s : State) : Result := .next (s.sendLow .dmb v)

/-- RD.H DMBL (R274). -/
def execRdHDmbl (s : State) : Result := .next (s.receiveLow .host .dmb)

/-- WR.H DMBL (R277, R105). -/
def execWrHDmbl (_v : BitVec 16) (s : State) : Result := .next (s.deny .host .dmbl .write)

/-- RD.D CMBH (R275). -/
def execRdDCmbh (s : State) : Result := .next (s.toCore (s.mailbox .cmb).high)

/-- WR.D CMBH (R277, R105). -/
def execWrDCmbh (_v : BitVec 16) (s : State) : Result := .next (s.deny .dsp .cmbh .write)

/-- RD.H CMBH (R275). -/
def execRdHCmbh (s : State) : Result := .next (s.toHost (s.mailbox .cmb).high)

/-- WR.H CMBH (R272). -/
def execWrHCmbh (v : BitVec 16) (s : State) : Result := .next (s.sendHigh .cmb v)

/-- RD.D CMBL (R274). -/
def execRdDCmbl (s : State) : Result := .next (s.receiveLow .dsp .cmb)

/-- WR.D CMBL (R277, R105). -/
def execWrDCmbl (_v : BitVec 16) (s : State) : Result := .next (s.deny .dsp .cmbl .write)

/-- RD.H CMBL (R276). -/
def execRdHCmbl (s : State) : Result := .next (s.toHost (s.mailbox .cmb).lo)

/-- WR.H CMBL (R273). -/
def execWrHCmbl (v : BitVec 16) (s : State) : Result := .next (s.sendLow .cmb v)

/-! ### Addresses the register map does not hold (R104) -/

/-- RD.D and WR.D at 0xFF00 + lo (R104). -/
def execUnknownD (dir : Dir) (lo : BitVec 8) (_v : BitVec 16) (s : State) : Result :=
  .next (s.unknownAccess .dsp dir (blockAddr lo))

/-- RD.H and WR.H at 0xFF00 + lo (R104). -/
def execUnknownH (dir : Dir) (lo : BitVec 8) (_v : BitVec 16) (s : State) : Result :=
  .next (s.unknownAccess .host dir (blockAddr lo))

end Sys2Proof.Machine
end

