-- ==== Sys2Proof/Machine/Dma.lean ====
section
/-! DEFINITION. The DMA block-transfer sequencer (45_dma.md R300 to R311). -/

namespace Sys2Proof.Machine

/-! ### 32-bit values as two 16-bit registers (20_memory.md R83) -/

def highHalf (x : BitVec 32) : BitVec 16 := x.extractLsb' 16 16
def lowHalf (x : BitVec 32) : BitVec 16 := x.extractLsb' 0 16
def putHigh (x : BitVec 32) (v : BitVec 16) : BitVec 32 := v ++ lowHalf x
def putLow (x : BitVec 32) (v : BitVec 16) : BitVec 32 := highHalf x ++ v

/-! ### The copy (R302 to R309) -/

/-- `ctl[0]`: true is DSP memory to main memory (R302). -/
def Dma.toMain (d : Dma) : Bool := d.ctl.getLsbD 0

/-- `ctl[1]`: true is IMEM, false DMEM (R302). -/
def Dma.imem (d : Dma) : Bool := d.ctl.getLsbD 1

/-- The slot of a DMA address: no wrap past 0xFFFF, and neither the register block nor an unmapped address is one (R305). -/
def dmaSlot (imem : Bool) (a : Nat) : Option (Region × Nat) :=
  if imem then itrans a
  else
    match dtrans a with
    | .slot r k => some (r, k)
    | .registers => none
    | .unmapped => none

/-- Whether the slot at `a` may take part: a RAM slot when the copy writes DSP memory, a RAM or ROM slot when it reads it. -/
def dmaLegal (d : Dma) (a : Nat) : Bool :=
  match dmaSlot d.imem a with
  | some (r, _) => d.toMain || r.isRam
  | none => false

/-- The first of `n` addresses from `a` on that may not take part. -/
def dmaFirstBad (d : Dma) : Nat → Nat → Option Nat
  | 0, _ => none
  | n + 1, a => if dmaLegal d a then dmaFirstBad d n (a + 1) else some a

/-- The check phase of a copy of `d.len` bytes (R305). A copy of length 0 raises nothing but a misaligned mmaddr, as the
rule's corner cases say (DEDUCED, log 14). -/
def dmaCheck (c : Config) (d : Dma) : Option Fault :=
  if d.len.toNat % 2 = 1 then some (.dmaOddLength d.len)
  else if d.mmaddr.toNat % c.dmaMainAlign ≠ 0 then some (.dmaMisaligned d.mmaddr)
  else if d.len ≠ 0 ∧ d.mmaddr.toNat + d.len.toNat > c.mainMemSize then
    some (.mainOutOfRange d.mmaddr.toNat d.len.toNat)
  else (dmaFirstBad d (d.len.toNat / 2) d.dspaddr.toNat).map .badDspAddress

/-- Moves slot `i` of the copy (R305, R306). -/
def State.dmaMove (d : Dma) (i : Nat) (s : State) : State :=
  match dmaSlot d.imem (d.dspaddr.toNat + i) with
  | none => s
  | some (r, k) =>
    if d.toMain then { s with main := s.main.writeHalf (d.mmaddr.toNat + 2 * i) (s.slot r k) }
    else s.setSlot r k (s.main.readHalf (d.mmaddr.toNat + 2 * i))

/-- Slots 0 to n - 1 in increasing order (R305). -/
def State.dmaCopy (d : Dma) : Nat → State → State
  | 0, s => s
  | n + 1, s => (State.dmaCopy d n s).dmaMove d n

/-- A write of DSBL: stores `len`, checks, then copies, in one step; a faulting copy changes nothing (R304, R305, R373). -/
def State.runDma (v : BitVec 16) (s : State) : State :=
  let d := { s.dma with len := v }
  match dmaCheck s.cfg d with
  | some f => s.raise f
  | none => ({ s with dma := d }).dmaCopy d (v.toNat / 2)

/-! ### The transactions -/

/-- RD.D DSCR (R301). -/
def execRdDDscr (s : State) : Result := .next (s.toCore (s.dma.ctl &&& 0xFFFB))

/-- WR.D DSCR (R300). -/
def execWrDDscr (v : BitVec 16) (s : State) : Result := .next { s with dma := { s.dma with ctl := v } }

/-- RD.H DSCR (R301). -/
def execRdHDscr (s : State) : Result := .next (s.toHost (s.dma.ctl &&& 0xFFFB))

/-- WR.H DSCR (R300). -/
def execWrHDscr (v : BitVec 16) (s : State) : Result := .next { s with dma := { s.dma with ctl := v } }

/-- RD.D DSBL (R301). -/
def execRdDDsbl (s : State) : Result := .next (s.toCore s.dma.len)

/-- WR.D DSBL (R304). -/
def execWrDDsbl (v : BitVec 16) (s : State) : Result := .next (s.runDma v)

/-- RD.H DSBL (R301). -/
def execRdHDsbl (s : State) : Result := .next (s.toHost s.dma.len)

/-- WR.H DSBL (R304). -/
def execWrHDsbl (v : BitVec 16) (s : State) : Result := .next (s.runDma v)

/-- RD.D DSPA (R301). -/
def execRdDDspa (s : State) : Result := .next (s.toCore s.dma.dspaddr)

/-- WR.D DSPA (R300). -/
def execWrDDspa (v : BitVec 16) (s : State) : Result := .next { s with dma := { s.dma with dspaddr := v } }

/-- RD.H DSPA (R301). -/
def execRdHDspa (s : State) : Result := .next (s.toHost s.dma.dspaddr)

/-- WR.H DSPA (R300). -/
def execWrHDspa (v : BitVec 16) (s : State) : Result := .next { s with dma := { s.dma with dspaddr := v } }

/-- RD.D DSMAH (R301). -/
def execRdDDsmah (s : State) : Result := .next (s.toCore (highHalf s.dma.mmaddr))

/-- WR.D DSMAH (R300). -/
def execWrDDsmah (v : BitVec 16) (s : State) : Result :=
  .next { s with dma := { s.dma with mmaddr := putHigh s.dma.mmaddr v } }

/-- RD.H DSMAH (R301). -/
def execRdHDsmah (s : State) : Result := .next (s.toHost (highHalf s.dma.mmaddr))

/-- WR.H DSMAH (R300). -/
def execWrHDsmah (v : BitVec 16) (s : State) : Result :=
  .next { s with dma := { s.dma with mmaddr := putHigh s.dma.mmaddr v } }

/-- RD.D DSMAL (R301). -/
def execRdDDsmal (s : State) : Result := .next (s.toCore (lowHalf s.dma.mmaddr))

/-- WR.D DSMAL (R300). -/
def execWrDDsmal (v : BitVec 16) (s : State) : Result :=
  .next { s with dma := { s.dma with mmaddr := putLow s.dma.mmaddr v } }

/-- RD.H DSMAL (R301). -/
def execRdHDsmal (s : State) : Result := .next (s.toHost (lowHalf s.dma.mmaddr))

/-- WR.H DSMAL (R300). -/
def execWrHDsmal (v : BitVec 16) (s : State) : Result :=
  .next { s with dma := { s.dma with mmaddr := putLow s.dma.mmaddr v } }

end Sys2Proof.Machine
end

