-- ==== Sys2Proof/Machine/Accelerator.lean ====
section
/-! DEFINITION. The ADPCM/PCM accelerator (46_accelerator.md R330 to R343). -/

namespace Sys2Proof.Machine

/-! ### Formats (R331) -/

/-- `fmtOf(fmt)`: the format whose code equals `fmt`, or none. Of formats with one code the first in the order of R331's
default numbering is taken: DESIGN CHOICE (log 26). -/
def fmtOf (c : FmtCodes) (fmt : BitVec 16) : Option Format :=
  if fmt = c.adpcm4 then some .adpcm4
  else if fmt = c.raw8 then some .raw8
  else if fmt = c.raw16 then some .raw16
  else if fmt = c.pcm8 then some .pcm8
  else if fmt = c.pcm16 then some .pcm16
  else none

/-! ### Coefficients (R42) -/

def Accel.coefAt (a : Accel) (i : BitVec 4) : BitVec 16 := a.coef[i.toNat]

def Accel.putCoef (a : Accel) (i : BitVec 4) (v : BitVec 16) : Accel := { a with coef := a.coef.set i.toNat v }

/-! ### Numeric kernels (R336, R338) -/

/-- `clamp(lo, hi, v)` (R10). -/
def clamp (lo hi v : Int) : Int := min hi (max lo v)

/-- `pcmScale(s, g)` (R336). -/
def pcmScale (c : Config) (x : Int) (g : BitVec 16) : BitVec 16 :=
  match c.pcmScale with
  | .custom n => Config.customPcm n x g
  | .standard => BitVec.ofInt 16 (clamp (-0x8000) 0x7FFF (x * (g.toNat : Int) / 2 ^ 11))

/-- The default `adpcmDecode`'s sample (R338). -/
def adpcmSample (nib : BitVec 4) (ps : BitVec 16) (c1 c2 yn1 yn2 : BitVec 16) : BitVec 16 :=
  BitVec.ofInt 16 (clamp (-0x7FFF) 0x7FFF
    (nib.toInt * 2 ^ (ps.extractLsb' 0 4).toNat + (0x400 + c1.toInt * yn1.toInt + c2.toInt * yn2.toInt) / 2 ^ 11))

/-- `adpcmDecode(nib, ps, coef, yn1, yn2)`: the sample, the new yn1 and the new yn2 (R338). ps[6:4] selects the pair
coef[2k], coef[2k + 1]. -/
def adpcmDecode (c : Config) (nib : BitVec 4) (a : Accel) : BitVec 16 × BitVec 16 × BitVec 16 :=
  match c.adpcmDecode with
  | .custom n => Config.customAdpcm n nib a.ps a.coef a.yn1 a.yn2
  | .standard =>
    let k := a.ps.extractLsb' 4 3
    let v := adpcmSample nib a.ps (a.coefAt (k ++ 0#1)) (a.coefAt (k ++ 1#1)) a.yn1 a.yn2
    (v, v, a.yn1)

/-! ### The fetch (R333 to R340) -/

/-- The byte address of a 16-bit sample, modulo 2^32 (R333; log 15). -/
def wordAddr (a : BitVec 32) : Nat := (a + a).toNat

/-- The header a fetch loads when `cur` stands at a frame start: `ps` and `cur` past its two nibbles (R334, R337). -/
def State.loadHeader (f : Format) (s : State) : Except Fault Accel :=
  if f = .adpcm4 ∧ s.accel.cur.extractLsb' 0 4 = 0 then
    match s.mainByte (s.accel.cur >>> 1).toNat with
    | .error e => .error e
    | .ok b => .ok { s.accel with ps := b.setWidth 16, cur := s.accel.cur + 2 }
  else .ok s.accel

/-- The nibble of a byte: even index bits 7:4, odd index bits 3:0 (R79, R333). -/
def nibbleOf (a : BitVec 32) (b : Byte) : BitVec 4 := if a.getLsbD 0 then b.extractLsb' 0 4 else b.extractLsb' 4 4

/-- `sample(f, a)` at `a = x.cur`: the sample and the descriptor with its history (R335, R336, R338). -/
def State.sampleAt (f : Format) (x : Accel) (s : State) : Except Fault (BitVec 16 × Accel) :=
  match f with
  | .raw8 =>
    match s.mainByte x.cur.toNat with
    | .error e => .error e
    | .ok b => .ok (b.setWidth 16, x)
  | .raw16 =>
    match s.mainHalf (wordAddr x.cur) with
    | .error e => .error e
    | .ok w => .ok (w, x)
  | .pcm8 =>
    match s.mainByte x.cur.toNat with
    | .error e => .error e
    | .ok b => .ok (pcmScale s.cfg (b.toInt * 256) x.gain, x)
  | .pcm16 =>
    match s.mainHalf (wordAddr x.cur) with
    | .error e => .error e
    | .ok w => .ok (pcmScale s.cfg w.toInt x.gain, x)
  | .adpcm4 =>
    match s.mainByte (x.cur >>> 1).toNat with
    | .error e => .error e
    | .ok b =>
      let r := adpcmDecode s.cfg (nibbleOf x.cur b) x
      .ok (r.1, { x with yn1 := r.2.1, yn2 := r.2.2 })

/-- The overflow id of a format and a direction (R340): PCM reads count as RAW reads. -/
def overflowId (c : ExcIds) (f : Format) (w : Dir) : BitVec 3 :=
  if f = .adpcm4 then c.adpcmOvf
  else
    match w with
    | .read => c.rawReadOvf
    | .write => c.rawWriteOvf

/-- The pointer after the access at `a`: back to `start` with an overflow queued when `end` lies between `pre` and `a`,
one sample on otherwise (R334, R341). -/
def State.advanceStream (f : Format) (w : Dir) (pre a : BitVec 32) (s : State) : State :=
  if pre.toNat ≤ s.accel.endAddr.toNat ∧ s.accel.endAddr.toNat ≤ a.toNat then
    ({ s with accel := { s.accel with cur := s.accel.startAddr } }).queueOverflow (overflowId s.cfg.excId f w)
  else { s with accel := { s.accel with cur := a + 1 } }

/-- One accelerator fetch, its sample returned to the core (R334). -/
def State.fetchSample (s : State) : State :=
  match fmtOf s.cfg.fmtCode s.accel.fmt with
  | none => s.raise (.unknownFormat s.accel.fmt)
  | some f =>
    match s.loadHeader f with
    | .error e => s.raise e
    | .ok x =>
      match s.sampleAt f x with
      | .error e => s.raise e
      | .ok (v, y) => (({ s with accel := y }).advanceStream f .read s.accel.cur x.cur).toCore v

/-! ### The write path (R341) -/

/-- One raw write of a sample at `cur` (R341). -/
def State.writeSample (v : BitVec 16) (s : State) : State :=
  match fmtOf s.cfg.fmtCode s.accel.fmt with
  | none => s.raise (.unknownFormat s.accel.fmt)
  | some f =>
    let stored : Except Fault State :=
      match f with
      | .adpcm4 => .error .accelAdpcmWrite
      | .raw8 => s.setMainByte s.accel.cur.toNat (v.extractLsb' 0 8)
      | .pcm8 => s.setMainByte s.accel.cur.toNat (v.extractLsb' 0 8)
      | .raw16 => s.setMainHalf (wordAddr s.accel.cur) v
      | .pcm16 => s.setMainHalf (wordAddr s.accel.cur) v
    match stored with
    | .error e => s.raise e
    | .ok t => t.advanceStream f .write s.accel.cur s.accel.cur

/-! ### The transactions -/

/-- RD.D COEF (R332). -/
def execRdDCoef (i : BitVec 4) (s : State) : Result := .next (s.toCore (s.accel.coefAt i))

/-- WR.D COEF (R330). -/
def execWrDCoef (i : BitVec 4) (v : BitVec 16) (s : State) : Result :=
  .next { s with accel := s.accel.putCoef i v }

/-- RD.H COEF (R342, R105). -/
def execRdHCoef (i : BitVec 4) (s : State) : Result := .next (s.deny .host (.coef i) .read)

/-- WR.H COEF (R342, R105). -/
def execWrHCoef (i : BitVec 4) (_v : BitVec 16) (s : State) : Result :=
  .next (s.deny .host (.coef i) .write)

/-- RD.D FMT (R332). -/
def execRdDFmt (s : State) : Result := .next (s.toCore s.accel.fmt)

/-- WR.D FMT (R330). -/
def execWrDFmt (v : BitVec 16) (s : State) : Result := .next { s with accel := { s.accel with fmt := v } }

/-- RD.H FMT (R342, R105). -/
def execRdHFmt (s : State) : Result := .next (s.deny .host .fmt .read)

/-- WR.H FMT (R342, R105). -/
def execWrHFmt (_v : BitVec 16) (s : State) : Result := .next (s.deny .host .fmt .write)

/-- RD.D ACDAT1 (R342). -/
def execRdDAcdat1 (s : State) : Result := .next (s.readWriteOnly .acdat1)

/-- WR.D ACDAT1 (R341). -/
def execWrDAcdat1 (v : BitVec 16) (s : State) : Result := .next (s.writeSample v)

/-- RD.H ACDAT1 (R342, R105). -/
def execRdHAcdat1 (s : State) : Result := .next (s.deny .host .acdat1 .read)

/-- WR.H ACDAT1 (R342, R105). -/
def execWrHAcdat1 (_v : BitVec 16) (s : State) : Result := .next (s.deny .host .acdat1 .write)

/-- RD.D ACSAH (R332). -/
def execRdDAcsah (s : State) : Result := .next (s.toCore (highHalf s.accel.startAddr))

/-- WR.D ACSAH (R330). -/
def execWrDAcsah (v : BitVec 16) (s : State) : Result :=
  .next { s with accel := { s.accel with startAddr := putHigh s.accel.startAddr v } }

/-- RD.H ACSAH (R342, R105). -/
def execRdHAcsah (s : State) : Result := .next (s.deny .host .acsah .read)

/-- WR.H ACSAH (R342, R105). -/
def execWrHAcsah (_v : BitVec 16) (s : State) : Result := .next (s.deny .host .acsah .write)

/-- RD.D ACSAL (R332). -/
def execRdDAcsal (s : State) : Result := .next (s.toCore (lowHalf s.accel.startAddr))

/-- WR.D ACSAL (R330). -/
def execWrDAcsal (v : BitVec 16) (s : State) : Result :=
  .next { s with accel := { s.accel with startAddr := putLow s.accel.startAddr v } }

/-- RD.H ACSAL (R342, R105). -/
def execRdHAcsal (s : State) : Result := .next (s.deny .host .acsal .read)

/-- WR.H ACSAL (R342, R105). -/
def execWrHAcsal (_v : BitVec 16) (s : State) : Result := .next (s.deny .host .acsal .write)

/-- RD.D ACEAH (R332). -/
def execRdDAceah (s : State) : Result := .next (s.toCore (highHalf s.accel.endAddr))

/-- WR.D ACEAH (R330). -/
def execWrDAceah (v : BitVec 16) (s : State) : Result :=
  .next { s with accel := { s.accel with endAddr := putHigh s.accel.endAddr v } }

/-- RD.H ACEAH (R342, R105). -/
def execRdHAceah (s : State) : Result := .next (s.deny .host .aceah .read)

/-- WR.H ACEAH (R342, R105). -/
def execWrHAceah (_v : BitVec 16) (s : State) : Result := .next (s.deny .host .aceah .write)

/-- RD.D ACEAL (R332). -/
def execRdDAceal (s : State) : Result := .next (s.toCore (lowHalf s.accel.endAddr))

/-- WR.D ACEAL (R330). -/
def execWrDAceal (v : BitVec 16) (s : State) : Result :=
  .next { s with accel := { s.accel with endAddr := putLow s.accel.endAddr v } }

/-- RD.H ACEAL (R342, R105). -/
def execRdHAceal (s : State) : Result := .next (s.deny .host .aceal .read)

/-- WR.H ACEAL (R342, R105). -/
def execWrHAceal (_v : BitVec 16) (s : State) : Result := .next (s.deny .host .aceal .write)

/-- RD.D ACCAH (R332). -/
def execRdDAccah (s : State) : Result := .next (s.toCore (highHalf s.accel.cur))

/-- WR.D ACCAH (R330). -/
def execWrDAccah (v : BitVec 16) (s : State) : Result :=
  .next { s with accel := { s.accel with cur := putHigh s.accel.cur v } }

/-- RD.H ACCAH (R342, R105). -/
def execRdHAccah (s : State) : Result := .next (s.deny .host .accah .read)

/-- WR.H ACCAH (R342, R105). -/
def execWrHAccah (_v : BitVec 16) (s : State) : Result := .next (s.deny .host .accah .write)

/-- RD.D ACCAL (R332). -/
def execRdDAccal (s : State) : Result := .next (s.toCore (lowHalf s.accel.cur))

/-- WR.D ACCAL (R330). -/
def execWrDAccal (v : BitVec 16) (s : State) : Result :=
  .next { s with accel := { s.accel with cur := putLow s.accel.cur v } }

/-- RD.H ACCAL (R342, R105). -/
def execRdHAccal (s : State) : Result := .next (s.deny .host .accal .read)

/-- WR.H ACCAL (R342, R105). -/
def execWrHAccal (_v : BitVec 16) (s : State) : Result := .next (s.deny .host .accal .write)

/-- RD.D PS (R332). -/
def execRdDPs (s : State) : Result := .next (s.toCore s.accel.ps)

/-- WR.D PS (R330). -/
def execWrDPs (v : BitVec 16) (s : State) : Result := .next { s with accel := { s.accel with ps := v } }

/-- RD.H PS (R342, R105). -/
def execRdHPs (s : State) : Result := .next (s.deny .host .ps .read)

/-- WR.H PS (R342, R105). -/
def execWrHPs (_v : BitVec 16) (s : State) : Result := .next (s.deny .host .ps .write)

/-- RD.D YN1 (R332). -/
def execRdDYn1 (s : State) : Result := .next (s.toCore s.accel.yn1)

/-- WR.D YN1 (R330). -/
def execWrDYn1 (v : BitVec 16) (s : State) : Result := .next { s with accel := { s.accel with yn1 := v } }

/-- RD.H YN1 (R342, R105). -/
def execRdHYn1 (s : State) : Result := .next (s.deny .host .yn1 .read)

/-- WR.H YN1 (R342, R105). -/
def execWrHYn1 (_v : BitVec 16) (s : State) : Result := .next (s.deny .host .yn1 .write)

/-- RD.D YN2 (R332). -/
def execRdDYn2 (s : State) : Result := .next (s.toCore s.accel.yn2)

/-- WR.D YN2 (R330). -/
def execWrDYn2 (v : BitVec 16) (s : State) : Result := .next { s with accel := { s.accel with yn2 := v } }

/-- RD.H YN2 (R342, R105). -/
def execRdHYn2 (s : State) : Result := .next (s.deny .host .yn2 .read)

/-- WR.H YN2 (R342, R105). -/
def execWrHYn2 (_v : BitVec 16) (s : State) : Result := .next (s.deny .host .yn2 .write)

/-- RD.D ACDAT (R334). -/
def execRdDAcdat (s : State) : Result := .next s.fetchSample

/-- WR.D ACDAT (R342, R105). -/
def execWrDAcdat (_v : BitVec 16) (s : State) : Result := .next (s.deny .dsp .acdat .write)

/-- RD.H ACDAT (R342, R105). -/
def execRdHAcdat (s : State) : Result := .next (s.deny .host .acdat .read)

/-- WR.H ACDAT (R342, R105). -/
def execWrHAcdat (_v : BitVec 16) (s : State) : Result := .next (s.deny .host .acdat .write)

/-- RD.D GAIN (R332). -/
def execRdDGain (s : State) : Result := .next (s.toCore s.accel.gain)

/-- WR.D GAIN (R330). -/
def execWrDGain (v : BitVec 16) (s : State) : Result := .next { s with accel := { s.accel with gain := v } }

/-- RD.H GAIN (R342, R105). -/
def execRdHGain (s : State) : Result := .next (s.deny .host .gain .read)

/-- WR.H GAIN (R342, R105). -/
def execWrHGain (_v : BitVec 16) (s : State) : Result := .next (s.deny .host .gain .write)

end Sys2Proof.Machine
end

