-- ==== Sys2Proof/Machine/Additive.lean ====
section
/-! DEFINITION. Additive, move and compare commands (40_alu_arith.md R130 to R158). -/

namespace Sys2Proof.Machine

/-- CLR (R133). -/
def execClr (d : AccId) (s : State) : Result := .next (s.moveInto d (wrap40 0))

/-- ADD (R134). -/
def execAdd (d : AccId) (s : State) : Result := .next (s.addInto d (s.acc d.other))

/-- ADDR (R135). -/
def execAddr (d : AccId) (r : AxReg) (s : State) : Result := .next (s.addInto d (hi16 (s.axReg r)))

/-- ADDAX (R136). -/
def execAddax (d : AccId) (x : AxId) (s : State) : Result := .next (s.addInto d (s.axAcc x))

/-- ADDP (R137). -/
def execAddp (d : AccId) (s : State) : Result := .next (s.addInto d s.prod)

/-- ADDI (R138). -/
def execAddi (d : AccId) (imm : BitVec 16) (s : State) : Result := .next (s.addInto d (hi16 imm))

/-- ADDIS (R139). -/
def execAddis (d : AccId) (imm : BitVec 8) (s : State) : Result := .next (s.addInto d (hi8 imm))

/-- SUB (R142). -/
def execSub (d : AccId) (s : State) : Result := .next (s.subInto d (s.acc d.other))

/-- SUBR (R143). -/
def execSubr (d : AccId) (r : AxReg) (s : State) : Result := .next (s.subInto d (hi16 (s.axReg r)))

/-- SUBAX (R144). -/
def execSubax (d : AccId) (x : AxId) (s : State) : Result := .next (s.subInto d (s.axAcc x))

/-- SUBP (R145). -/
def execSubp (d : AccId) (s : State) : Result := .next (s.subInto d s.prod)

/-- INC (R140). -/
def execInc (d : AccId) (s : State) : Result := .next (s.addInto d (wrap40 1))

/-- DEC (R146). -/
def execDec (d : AccId) (s : State) : Result := .next (s.subInto d (wrap40 1))

/-- INCM (R141). -/
def execIncm (d : AccId) (s : State) : Result := .next (s.addInto d (wrap40 0x10000))

/-- DECM (R147). -/
def execDecm (d : AccId) (s : State) : Result := .next (s.subInto d (wrap40 0x10000))

/-- NEG (R148). -/
def execNeg (d : AccId) (s : State) : Result := .next (s.subOf d (wrap40 0) (s.acc d))

/-- ABS (R149). -/
def execAbs (d : AccId) (s : State) : Result :=
  .next (s.moveInto d (if (s.acc d).toInt < 0 then wrap40 (-(s.acc d).toInt) else s.acc d))

/-- CMP (R150). -/
def execCmp (s : State) : Result := .next (s.compare (s.acc .ac0) (s.acc .ac1))

/-- CMPI (R151). -/
def execCmpi (d : AccId) (imm : BitVec 16) (s : State) : Result := .next (s.compare (s.acc d) (hi16 imm))

/-- TST (R152). -/
def execTst (d : AccId) (s : State) : Result := .next (s.testAcc (s.acc d))

/-- TSTAXH (R153). -/
def execTstaxh (x : AxId) (s : State) : Result := .next (s.setSr (flags16 s.alu.sr (s.axHigh x) false))

/-- MOV (R154). -/
def execMov (d : AccId) (s : State) : Result := .next (s.moveInto d (s.acc d.other))

/-- MOVR (R155). -/
def execMovr (d : AccId) (r : AxReg) (s : State) : Result := .next (s.moveInto d (hi16 (s.axReg r)))

/-- MOVAX (R156). -/
def execMovax (d : AccId) (x : AxId) (s : State) : Result := .next (s.moveInto d (s.axAcc x))

/-- MOVP (R157). -/
def execMovp (d : AccId) (s : State) : Result := .next (s.moveInto d s.prod)

/-- MOVNP (R158). -/
def execMovnp (d : AccId) (s : State) : Result := .next (s.moveInto d (wrap40 (-s.prod.toInt)))

end Sys2Proof.Machine
end

