-- ==== Sys2Proof/Machine/LogicShift.lean ====
section
/-! DEFINITION. Logic, bit-test and shift commands (41_alu_logic_shift.md R180 to R200). -/

namespace Sys2Proof.Machine

/-- ANDR (R182). -/
def execAndr (d : AccId) (x : AxId) (s : State) : Result := .next (s.logicInto d (accM (s.acc d) &&& s.axHigh x))

/-- ORR (R183). -/
def execOrr (d : AccId) (x : AxId) (s : State) : Result := .next (s.logicInto d (accM (s.acc d) ||| s.axHigh x))

/-- XORR (R184). -/
def execXorr (d : AccId) (x : AxId) (s : State) : Result := .next (s.logicInto d (accM (s.acc d) ^^^ s.axHigh x))

/-- ANDC (R185). -/
def execAndc (d : AccId) (s : State) : Result := .next (s.logicInto d (accM (s.acc d) &&& accM (s.acc d.other)))

/-- ORC (R186). -/
def execOrc (d : AccId) (s : State) : Result := .next (s.logicInto d (accM (s.acc d) ||| accM (s.acc d.other)))

/-- XORC (R187). -/
def execXorc (d : AccId) (s : State) : Result := .next (s.logicInto d (accM (s.acc d) ^^^ accM (s.acc d.other)))

/-- ANDI (R189). -/
def execAndi (d : AccId) (imm : BitVec 16) (s : State) : Result := .next (s.logicInto d (accM (s.acc d) &&& imm))

/-- ORI (R190). -/
def execOri (d : AccId) (imm : BitVec 16) (s : State) : Result := .next (s.logicInto d (accM (s.acc d) ||| imm))

/-- XORI (R191). -/
def execXori (d : AccId) (imm : BitVec 16) (s : State) : Result := .next (s.logicInto d (accM (s.acc d) ^^^ imm))

/-- NOT (R188). -/
def execNot (d : AccId) (s : State) : Result := .next (s.logicInto d (accM (s.acc d) ^^^ 0xFFFF))

/-- ANDF (R192). -/
def execAndf (d : AccId) (imm : BitVec 16) (s : State) : Result :=
  .next (s.putFlag .bitTest (decide (accM (s.acc d) &&& imm = 0)))

/-- ANDCF (R193). -/
def execAndcf (d : AccId) (imm : BitVec 16) (s : State) : Result :=
  .next (s.putFlag .bitTest (decide (accM (s.acc d) &&& imm = imm)))

/-- LSL (R194). -/
def execLsl (d : AccId) (n : BitVec 6) (s : State) : Result := .next (s.moveInto d (shl (s.acc d) n.toNat))

/-- LSR (R195). -/
def execLsr (d : AccId) (n : BitVec 6) (s : State) : Result := .next (s.moveInto d (shrl (s.acc d) n.toNat))

/-- ASL (R196). -/
def execAsl (d : AccId) (n : BitVec 6) (s : State) : Result := .next (s.moveInto d (shl (s.acc d) n.toNat))

/-- ASR (R197). -/
def execAsr (d : AccId) (n : BitVec 6) (s : State) : Result := .next (s.moveInto d (shra (s.acc d) n.toNat))

/-- LSL16 (R198). -/
def execLsl16 (d : AccId) (s : State) : Result := .next (s.moveInto d (shl (s.acc d) 16))

/-- LSR16 (R199). -/
def execLsr16 (d : AccId) (s : State) : Result := .next (s.moveInto d (shrl (s.acc d) 16))

/-- ASR16 (R200). -/
def execAsr16 (d : AccId) (s : State) : Result := .next (s.moveInto d (shra (s.acc d) 16))

end Sys2Proof.Machine
end

