-- ==== Sys2Proof/Machine/Modes.lean ====
section
/-! DEFINITION. Mode commands and register access (43_alu_regs_modes.md R240 to R252). -/

namespace Sys2Proof.Machine

/-- SET15 (R240). -/
def execSet15 (s : State) : Result := .next (s.putFlag .su true)

/-- CLR15 (R241). -/
def execClr15 (s : State) : Result := .next (s.putFlag .su false)

/-- SET40 (R242). -/
def execSet40 (s : State) : Result := .next (s.putFlag .sxm true)

/-- CLR40 (R243). -/
def execClr40 (s : State) : Result := .next (s.putFlag .sxm false)

/-- M2 (R244). -/
def execM2 (s : State) : Result := .next (s.putFlag .am false)

/-- M0 (R244). -/
def execM0 (s : State) : Result := .next (s.putFlag .am true)

/-- RREG (R246). -/
def execRreg (r : Reg) (s : State) : Result := .next (s.toCore (s.readReg r))

/-- WREG (R245). -/
def execWreg (r : Reg) (v : BitVec 16) (s : State) : Result := .next (s.writeReg r v)

end Sys2Proof.Machine
end

