-- ==== Sys2Proof/Machine/Multiply.lean ====
section
/-! DEFINITION. Multiply commands (42_alu_multiply.md R210 to R227). Every operand is read before any register is written (R212):
the operands below are those of the state before the command. -/

namespace Sys2Proof.Machine

/-- `clrpSlices`; of the slice h only bits 7:0 are stored (R27, R225). -/
def clrpProd (c : Config) : ProdReg :=
  { l := c.clrpSlices.1, m1 := c.clrpSlices.2.1, h := c.clrpSlices.2.2.1.extractLsb' 0 8, m2 := c.clrpSlices.2.2.2 }

/-- MUL (R214). -/
def execMul (x : AxId) (s : State) : Result := .next (s.storeProd (s.mulAx x))

/-- MULX (R215). -/
def execMulx (h0 : AxHalf) (h1 : AxHalf) (s : State) : Result := .next (s.storeProd (s.mulX h0 h1))

/-- MULC (R216). -/
def execMulc (d : AccId) (x : AxId) (s : State) : Result := .next (s.storeProd (s.mulC d x))

/-- MULAC (R217). -/
def execMulac (d : AccId) (x : AxId) (s : State) : Result :=
  .next ((s.moveInto d (wrap40 ((s.acc d).toInt + s.prod.toInt))).storeProd (s.mulAx x))

/-- MULMV (R218). -/
def execMulmv (d : AccId) (x : AxId) (s : State) : Result := .next ((s.moveInto d s.prod).storeProd (s.mulAx x))

/-- MADD (R219). -/
def execMadd (x : AxId) (s : State) : Result := .next (s.storeProd (s.prod.toInt + s.mulAx x))

/-- MSUB (R220). -/
def execMsub (x : AxId) (s : State) : Result := .next (s.storeProd (s.prod.toInt - s.mulAx x))

/-- MADDX (R221). -/
def execMaddx (h0 : AxHalf) (h1 : AxHalf) (s : State) : Result := .next (s.storeProd (s.prod.toInt + s.mulX h0 h1))

/-- MSUBX (R222). -/
def execMsubx (h0 : AxHalf) (h1 : AxHalf) (s : State) : Result := .next (s.storeProd (s.prod.toInt - s.mulX h0 h1))

/-- MADDC (R223). -/
def execMaddc (d : AccId) (x : AxId) (s : State) : Result := .next (s.storeProd (s.prod.toInt + s.mulC d x))

/-- MSUBC (R224). -/
def execMsubc (d : AccId) (x : AxId) (s : State) : Result := .next (s.storeProd (s.prod.toInt - s.mulC d x))

/-- CLRP (R225). -/
def execClrp (s : State) : Result := .next (s.setProd (clrpProd s.cfg))

/-- TSTPROD (R226). -/
def execTstprod (s : State) : Result := .next (s.testAcc s.prod)

end Sys2Proof.Machine
end

