-- ==== Sys2Proof/Machine/Dispatch.lean ====
section
/-! DEFINITION. `exec`: one arm per instruction, each one direct call of its meaning. -/

namespace Sys2Proof.Machine

def exec (i : Instr) (s : State) : Host.Outcome State Fault Refusal :=
  match i with
  | .clr d => Sys2Proof.Machine.execClr d s
  | .add d => Sys2Proof.Machine.execAdd d s
  | .addr d r => Sys2Proof.Machine.execAddr d r s
  | .addax d x => Sys2Proof.Machine.execAddax d x s
  | .addp d => Sys2Proof.Machine.execAddp d s
  | .addi d imm => Sys2Proof.Machine.execAddi d imm s
  | .addis d imm => Sys2Proof.Machine.execAddis d imm s
  | .sub d => Sys2Proof.Machine.execSub d s
  | .subr d r => Sys2Proof.Machine.execSubr d r s
  | .subax d x => Sys2Proof.Machine.execSubax d x s
  | .subp d => Sys2Proof.Machine.execSubp d s
  | .inc d => Sys2Proof.Machine.execInc d s
  | .dec d => Sys2Proof.Machine.execDec d s
  | .incm d => Sys2Proof.Machine.execIncm d s
  | .decm d => Sys2Proof.Machine.execDecm d s
  | .neg d => Sys2Proof.Machine.execNeg d s
  | .abs d => Sys2Proof.Machine.execAbs d s
  | .cmp => Sys2Proof.Machine.execCmp s
  | .cmpi d imm => Sys2Proof.Machine.execCmpi d imm s
  | .tst d => Sys2Proof.Machine.execTst d s
  | .tstaxh x => Sys2Proof.Machine.execTstaxh x s
  | .mov d => Sys2Proof.Machine.execMov d s
  | .movr d r => Sys2Proof.Machine.execMovr d r s
  | .movax d x => Sys2Proof.Machine.execMovax d x s
  | .movp d => Sys2Proof.Machine.execMovp d s
  | .movnp d => Sys2Proof.Machine.execMovnp d s
  | .andr d x => Sys2Proof.Machine.execAndr d x s
  | .orr d x => Sys2Proof.Machine.execOrr d x s
  | .xorr d x => Sys2Proof.Machine.execXorr d x s
  | .andc d => Sys2Proof.Machine.execAndc d s
  | .orc d => Sys2Proof.Machine.execOrc d s
  | .xorc d => Sys2Proof.Machine.execXorc d s
  | .andi d imm => Sys2Proof.Machine.execAndi d imm s
  | .ori d imm => Sys2Proof.Machine.execOri d imm s
  | .xori d imm => Sys2Proof.Machine.execXori d imm s
  | .not d => Sys2Proof.Machine.execNot d s
  | .andf d imm => Sys2Proof.Machine.execAndf d imm s
  | .andcf d imm => Sys2Proof.Machine.execAndcf d imm s
  | .lsl d n => Sys2Proof.Machine.execLsl d n s
  | .lsr d n => Sys2Proof.Machine.execLsr d n s
  | .asl d n => Sys2Proof.Machine.execAsl d n s
  | .asr d n => Sys2Proof.Machine.execAsr d n s
  | .lsl16 d => Sys2Proof.Machine.execLsl16 d s
  | .lsr16 d => Sys2Proof.Machine.execLsr16 d s
  | .asr16 d => Sys2Proof.Machine.execAsr16 d s
  | .mul x => Sys2Proof.Machine.execMul x s
  | .mulx h0 h1 => Sys2Proof.Machine.execMulx h0 h1 s
  | .mulc d x => Sys2Proof.Machine.execMulc d x s
  | .mulac d x => Sys2Proof.Machine.execMulac d x s
  | .mulmv d x => Sys2Proof.Machine.execMulmv d x s
  | .madd x => Sys2Proof.Machine.execMadd x s
  | .msub x => Sys2Proof.Machine.execMsub x s
  | .maddx h0 h1 => Sys2Proof.Machine.execMaddx h0 h1 s
  | .msubx h0 h1 => Sys2Proof.Machine.execMsubx h0 h1 s
  | .maddc d x => Sys2Proof.Machine.execMaddc d x s
  | .msubc d x => Sys2Proof.Machine.execMsubc d x s
  | .clrp => Sys2Proof.Machine.execClrp s
  | .tstprod => Sys2Proof.Machine.execTstprod s
  | .set15 => Sys2Proof.Machine.execSet15 s
  | .clr15 => Sys2Proof.Machine.execClr15 s
  | .set40 => Sys2Proof.Machine.execSet40 s
  | .clr40 => Sys2Proof.Machine.execClr40 s
  | .m2 => Sys2Proof.Machine.execM2 s
  | .m0 => Sys2Proof.Machine.execM0 s
  | .rreg r => Sys2Proof.Machine.execRreg r s
  | .wreg r v => Sys2Proof.Machine.execWreg r v s
  | .rdDCoef k => Sys2Proof.Machine.execRdDCoef k s
  | .wrDCoef k v => Sys2Proof.Machine.execWrDCoef k v s
  | .rdHCoef k => Sys2Proof.Machine.execRdHCoef k s
  | .wrHCoef k v => Sys2Proof.Machine.execWrHCoef k v s
  | .rdDDscr => Sys2Proof.Machine.execRdDDscr s
  | .wrDDscr v => Sys2Proof.Machine.execWrDDscr v s
  | .rdHDscr => Sys2Proof.Machine.execRdHDscr s
  | .wrHDscr v => Sys2Proof.Machine.execWrHDscr v s
  | .rdDDsbl => Sys2Proof.Machine.execRdDDsbl s
  | .wrDDsbl v => Sys2Proof.Machine.execWrDDsbl v s
  | .rdHDsbl => Sys2Proof.Machine.execRdHDsbl s
  | .wrHDsbl v => Sys2Proof.Machine.execWrHDsbl v s
  | .rdDDspa => Sys2Proof.Machine.execRdDDspa s
  | .wrDDspa v => Sys2Proof.Machine.execWrDDspa v s
  | .rdHDspa => Sys2Proof.Machine.execRdHDspa s
  | .wrHDspa v => Sys2Proof.Machine.execWrHDspa v s
  | .rdDDsmah => Sys2Proof.Machine.execRdDDsmah s
  | .wrDDsmah v => Sys2Proof.Machine.execWrDDsmah v s
  | .rdHDsmah => Sys2Proof.Machine.execRdHDsmah s
  | .wrHDsmah v => Sys2Proof.Machine.execWrHDsmah v s
  | .rdDDsmal => Sys2Proof.Machine.execRdDDsmal s
  | .wrDDsmal v => Sys2Proof.Machine.execWrDDsmal v s
  | .rdHDsmal => Sys2Proof.Machine.execRdHDsmal s
  | .wrHDsmal v => Sys2Proof.Machine.execWrHDsmal v s
  | .rdDFmt => Sys2Proof.Machine.execRdDFmt s
  | .wrDFmt v => Sys2Proof.Machine.execWrDFmt v s
  | .rdHFmt => Sys2Proof.Machine.execRdHFmt s
  | .wrHFmt v => Sys2Proof.Machine.execWrHFmt v s
  | .rdDAcdat1 => Sys2Proof.Machine.execRdDAcdat1 s
  | .wrDAcdat1 v => Sys2Proof.Machine.execWrDAcdat1 v s
  | .rdHAcdat1 => Sys2Proof.Machine.execRdHAcdat1 s
  | .wrHAcdat1 v => Sys2Proof.Machine.execWrHAcdat1 v s
  | .rdDAcsah => Sys2Proof.Machine.execRdDAcsah s
  | .wrDAcsah v => Sys2Proof.Machine.execWrDAcsah v s
  | .rdHAcsah => Sys2Proof.Machine.execRdHAcsah s
  | .wrHAcsah v => Sys2Proof.Machine.execWrHAcsah v s
  | .rdDAcsal => Sys2Proof.Machine.execRdDAcsal s
  | .wrDAcsal v => Sys2Proof.Machine.execWrDAcsal v s
  | .rdHAcsal => Sys2Proof.Machine.execRdHAcsal s
  | .wrHAcsal v => Sys2Proof.Machine.execWrHAcsal v s
  | .rdDAceah => Sys2Proof.Machine.execRdDAceah s
  | .wrDAceah v => Sys2Proof.Machine.execWrDAceah v s
  | .rdHAceah => Sys2Proof.Machine.execRdHAceah s
  | .wrHAceah v => Sys2Proof.Machine.execWrHAceah v s
  | .rdDAceal => Sys2Proof.Machine.execRdDAceal s
  | .wrDAceal v => Sys2Proof.Machine.execWrDAceal v s
  | .rdHAceal => Sys2Proof.Machine.execRdHAceal s
  | .wrHAceal v => Sys2Proof.Machine.execWrHAceal v s
  | .rdDAccah => Sys2Proof.Machine.execRdDAccah s
  | .wrDAccah v => Sys2Proof.Machine.execWrDAccah v s
  | .rdHAccah => Sys2Proof.Machine.execRdHAccah s
  | .wrHAccah v => Sys2Proof.Machine.execWrHAccah v s
  | .rdDAccal => Sys2Proof.Machine.execRdDAccal s
  | .wrDAccal v => Sys2Proof.Machine.execWrDAccal v s
  | .rdHAccal => Sys2Proof.Machine.execRdHAccal s
  | .wrHAccal v => Sys2Proof.Machine.execWrHAccal v s
  | .rdDPs => Sys2Proof.Machine.execRdDPs s
  | .wrDPs v => Sys2Proof.Machine.execWrDPs v s
  | .rdHPs => Sys2Proof.Machine.execRdHPs s
  | .wrHPs v => Sys2Proof.Machine.execWrHPs v s
  | .rdDYn1 => Sys2Proof.Machine.execRdDYn1 s
  | .wrDYn1 v => Sys2Proof.Machine.execWrDYn1 v s
  | .rdHYn1 => Sys2Proof.Machine.execRdHYn1 s
  | .wrHYn1 v => Sys2Proof.Machine.execWrHYn1 v s
  | .rdDYn2 => Sys2Proof.Machine.execRdDYn2 s
  | .wrDYn2 v => Sys2Proof.Machine.execWrDYn2 v s
  | .rdHYn2 => Sys2Proof.Machine.execRdHYn2 s
  | .wrHYn2 v => Sys2Proof.Machine.execWrHYn2 v s
  | .rdDAcdat => Sys2Proof.Machine.execRdDAcdat s
  | .wrDAcdat v => Sys2Proof.Machine.execWrDAcdat v s
  | .rdHAcdat => Sys2Proof.Machine.execRdHAcdat s
  | .wrHAcdat v => Sys2Proof.Machine.execWrHAcdat v s
  | .rdDGain => Sys2Proof.Machine.execRdDGain s
  | .wrDGain v => Sys2Proof.Machine.execWrDGain v s
  | .rdHGain => Sys2Proof.Machine.execRdHGain s
  | .wrHGain v => Sys2Proof.Machine.execWrHGain v s
  | .rdDDirq => Sys2Proof.Machine.execRdDDirq s
  | .wrDDirq v => Sys2Proof.Machine.execWrDDirq v s
  | .rdHDirq => Sys2Proof.Machine.execRdHDirq s
  | .wrHDirq v => Sys2Proof.Machine.execWrHDirq v s
  | .rdDDmbh => Sys2Proof.Machine.execRdDDmbh s
  | .wrDDmbh v => Sys2Proof.Machine.execWrDDmbh v s
  | .rdHDmbh => Sys2Proof.Machine.execRdHDmbh s
  | .wrHDmbh v => Sys2Proof.Machine.execWrHDmbh v s
  | .rdDDmbl => Sys2Proof.Machine.execRdDDmbl s
  | .wrDDmbl v => Sys2Proof.Machine.execWrDDmbl v s
  | .rdHDmbl => Sys2Proof.Machine.execRdHDmbl s
  | .wrHDmbl v => Sys2Proof.Machine.execWrHDmbl v s
  | .rdDCmbh => Sys2Proof.Machine.execRdDCmbh s
  | .wrDCmbh v => Sys2Proof.Machine.execWrDCmbh v s
  | .rdHCmbh => Sys2Proof.Machine.execRdHCmbh s
  | .wrHCmbh v => Sys2Proof.Machine.execWrHCmbh v s
  | .rdDCmbl => Sys2Proof.Machine.execRdDCmbl s
  | .wrDCmbl v => Sys2Proof.Machine.execWrDCmbl v s
  | .rdHCmbl => Sys2Proof.Machine.execRdHCmbl s
  | .wrHCmbl v => Sys2Proof.Machine.execWrHCmbl v s
  | .unknownD dir lo v => Sys2Proof.Machine.execUnknownD dir lo v s
  | .unknownH dir lo v => Sys2Proof.Machine.execUnknownH dir lo v s

end Sys2Proof.Machine
end

