-- ==== Sys2Proof/WellFormed.lean ====
section
/-! DEFINITION. Well-formed instructions. The operand types leave only the rows of R104 to check: their address is one
the register map does not hold, and a read carries no data (R100). -/

namespace Sys2Proof

/-- No two registers stand at one address. -/
def IfxMap.Distinct (m : IfxMap) : Prop := ∀ r q : IfxReg, m.addr r = m.addr q → r = q

/-- An unknown-address row is well formed when the register map does not hold its address and a read carries data 0. -/
def unknownWf (m : IfxMap) (w : Dir) (lo : BitVec 8) (v : BitVec 16) : Bool :=
  (m.regAt (blockAddr lo)).isNone && decide (dataOf w v = v)

/-- The instructions that some word encodes, with the register map `m`. -/
def Instr.wf (m : IfxMap) : Instr → Bool
  | .unknownD w lo v => unknownWf m w lo v
  | .unknownH w lo v => unknownWf m w lo v
  | .clr .. | .add .. | .addr .. | .addax .. | .addp .. | .addi .. | .addis .. | .sub .. | .subr .. | .subax ..
  | .subp .. | .inc .. | .dec .. | .incm .. | .decm .. | .neg .. | .abs .. | .cmp | .cmpi .. | .tst ..
  | .tstaxh .. | .mov .. | .movr .. | .movax .. | .movp .. | .movnp .. | .andr .. | .orr .. | .xorr .. | .andc ..
  | .orc .. | .xorc .. | .andi .. | .ori .. | .xori .. | .not .. | .andf .. | .andcf .. | .lsl .. | .lsr ..
  | .asl .. | .asr .. | .lsl16 .. | .lsr16 .. | .asr16 .. | .mul .. | .mulx .. | .mulc .. | .mulac .. | .mulmv ..
  | .madd .. | .msub .. | .maddx .. | .msubx .. | .maddc .. | .msubc .. | .clrp | .tstprod | .set15 | .clr15
  | .set40 | .clr40 | .m2 | .m0 | .rreg .. | .wreg .. | .rdDCoef .. | .wrDCoef .. | .rdDDscr | .wrDDscr ..
  | .rdDDsbl | .wrDDsbl .. | .rdDDspa | .wrDDspa .. | .rdDDsmah | .wrDDsmah .. | .rdDDsmal | .wrDDsmal ..
  | .rdDFmt | .wrDFmt .. | .rdDAcdat1 | .wrDAcdat1 .. | .rdDAcsah | .wrDAcsah .. | .rdDAcsal | .wrDAcsal ..
  | .rdDAceah | .wrDAceah .. | .rdDAceal | .wrDAceal .. | .rdDAccah | .wrDAccah .. | .rdDAccal | .wrDAccal ..
  | .rdDPs | .wrDPs .. | .rdDYn1 | .wrDYn1 .. | .rdDYn2 | .wrDYn2 .. | .rdDAcdat | .wrDAcdat .. | .rdDGain
  | .wrDGain .. | .rdDDirq | .wrDDirq .. | .rdDDmbh | .wrDDmbh .. | .rdDDmbl | .wrDDmbl .. | .rdDCmbh
  | .wrDCmbh .. | .rdDCmbl | .wrDCmbl .. | .rdHCoef .. | .wrHCoef .. | .rdHDscr | .wrHDscr .. | .rdHDsbl
  | .wrHDsbl .. | .rdHDspa | .wrHDspa .. | .rdHDsmah | .wrHDsmah .. | .rdHDsmal | .wrHDsmal .. | .rdHFmt
  | .wrHFmt .. | .rdHAcdat1 | .wrHAcdat1 .. | .rdHAcsah | .wrHAcsah .. | .rdHAcsal | .wrHAcsal .. | .rdHAceah
  | .wrHAceah .. | .rdHAceal | .wrHAceal .. | .rdHAccah | .wrHAccah .. | .rdHAccal | .wrHAccal .. | .rdHPs
  | .wrHPs .. | .rdHYn1 | .wrHYn1 .. | .rdHYn2 | .wrHYn2 .. | .rdHAcdat | .wrHAcdat .. | .rdHGain | .wrHGain ..
  | .rdHDirq | .wrHDirq .. | .rdHDmbh | .wrHDmbh .. | .rdHDmbl | .wrHDmbl .. | .rdHCmbh | .wrHCmbh .. | .rdHCmbl
  | .wrHCmbl .. => true

end Sys2Proof
end

