-- ==== Sys2Proof/Machine/CoreStep.lean ====
section
/-! DEFINITION. What one event does: a word issued on a port, the core's data accesses and instruction fetch, the core step
(60_exceptions.md R380) whole, a host event, and the end of a step in a fault (R373). -/

namespace Sys2Proof.Machine

/-! ### The end of a step (R373) -/

/-- Goes on with `g` unless what came before raised a fault or has no meaning. -/
def andNext (r : Result) (g : State → Result) : Result :=
  match r with
  | .next t => if t.fault = none then g t else .next t
  | .fault f => .fault f
  | .refused e => .refused e

/-- Undoes everything but the fault of a step from `s` that raised one (R373). -/
def State.undone (s : State) (r : Result) : Result :=
  match r with
  | .next t =>
    match t.fault with
    | none => .next t
    | some f => .next (s.raise f)
  | .fault f => .fault f
  | .refused e => .refused e

/-! ### A word issued on a port (30_encoding.md R100, R103, R106, R109) -/

/-- Runs the instruction a word encodes; refuses a word that encodes nothing and a word of the other port. A DSP-port word
whose address is below 0xFF00 encodes nothing (95_test_vectors.md V5.1); the core's data access below 0xFF00 is the
operation `access` (log 28). -/
def State.issueWord (p : Port) (w : Word) (v : BitVec 16) (s : State) : Result :=
  match decode s.cfg.ifxMap w v with
  | none => .refused (.notAnInstruction w)
  | some i => if i.port = p then exec i s else .refused (.wrongPort w)

/-! ### The core's data accesses (20_memory.md R72 to R76) -/

/-- A core data write to a slot: RAM is written, a ROM faults (R72, R74). -/
def State.storeSlot (a : BitVec 16) (r : Region) (k : Nat) (v : BitVec 16) (s : State) : State :=
  if r.isRam then s.setSlot r k v else s.raise (.romWrite a)

/-- A core data access: memory below 0xFF00 (R72 to R74), a DSP-port transaction from there on (R76, R103). -/
def State.dataAccess (w : Dir) (a v : BitVec 16) (s : State) : Result :=
  match dtrans a.toNat with
  | .slot r k =>
    match w with
    | .read => .next (s.toCore (s.slot r k))
    | .write => .next (s.storeSlot a r k v)
  | .registers => s.issueWord .dsp (txnWord .dsp w a) v
  | .unmapped => .next (s.raise (.unmappedData a w))

/-! ### Instruction fetch (20_memory.md R71, R75, R82) -/

/-- The fetch of the slot at `a` for the instruction at pc; an untranslatable address faults with that pc, for either slot of
the instruction (R75; log 16). -/
def State.fetchSlot (a : BitVec 16) (s : State) : Except Fault Slot :=
  match itrans a.toNat with
  | some (r, k) => .ok (s.slot r k)
  | none => .error (.unmappedFetch s.pc)

/-- The slots of the instruction at pc: pc, and pc + 1 for a 4-byte instruction (R82). -/
def State.fetchInstr (n : InstrLen) (s : State) : Except Fault (List Slot) :=
  match s.fetchSlot s.pc with
  | .error e => .error e
  | .ok w0 =>
    match n with
    | .one => .ok [w0]
    | .two =>
      match s.fetchSlot (s.pc + 1) with
      | .error e => .error e
      | .ok w1 => .ok [w0, w1]

/-! ### One instruction (60_exceptions.md R380, 20_memory.md R85) -/

/-- The instruction's length in slots (10_state.md R22). -/
def InstrLen.slots : InstrLen → BitVec 16
  | .one => 1
  | .two => 2

/-- A value the core uses (log 30). -/
def State.coreVal (v : CoreVal) (s : State) : BitVec 16 :=
  match v with
  | .given x => x
  | .returned => s.coreData

/-- One operation of a core instruction. -/
def State.coreOp (op : CoreOp) (s : State) : Result :=
  match op with
  | .issue w v => s.issueWord .dsp w v
  | .access d a v => s.dataAccess d a (s.coreVal v)
  | .readReg r => exec (.rreg r) s
  | .writeReg r v => exec (.wreg r (s.coreVal v)) s
  | .push st v => .next (s.orRaise (s.push st (s.coreVal v)))
  | .pop st =>
    match s.pop st with
    | .error e => .next (s.raise e)
    | .ok (v, t) => .next (t.toCore v)
  | .own f => .next { s with coreFile := f }

/-- The operations of a load of an ALU register from data address `a`: the slot read is the value of a WREG
(43_alu_regs_modes.md R251; log 30). -/
def loadOps (r : Reg) (a : BitVec 16) : List CoreOp := [.access .read a (.given 0), .writeReg r .returned]

/-- The operations of a store of an ALU register to data address `a`: what RREG returns is written (R251; log 30). -/
def storeOps (r : Reg) (a : BitVec 16) : List CoreOp := [.readReg r, .access .write a .returned]

/-- The operations of a move between two ALU registers (30_encoding.md R108; log 30). -/
def moveOps (dst src : Reg) : List CoreOp := [.readReg src, .writeReg dst .returned]

/-- The operations of an instruction, in the order the core gives them (R250). -/
def State.coreOps : List CoreOp → State → Result
  | [], s => .next s
  | op :: rest, s => andNext (s.coreOp op) (State.coreOps rest)

/-- How an instruction leaves the pc, the stacks and `halted` (R22, R36, R379, R414). A condition gates the write of the pc
and nothing else. The spec gives no effect of a CALLcc or RETcc whose condition fails on the call stack; in the model the
push or pop of such an instruction is one of its operations, which it has or has not whatever the condition. Nor does it say
where a return goes or what IFcc does: a return jumps to the value last returned, which its pop leaves, and IFcc skips the
next instruction when its condition fails. All this is DESIGN CHOICE (log 25). -/
def State.flow (c : CoreInstr) (s : State) : State :=
  match c.flow with
  | .next => { s with pc := s.pc + c.len.slots }
  | .jump cc target => { s with pc := if condHolds cc s.alu.sr then s.coreVal target else s.pc + c.len.slots }
  | .skip cc nextLen =>
    { s with pc := if condHolds cc s.alu.sr then s.pc + c.len.slots else s.pc + c.len.slots + nextLen.slots }
  | .returnFromException => s.returnFromException
  | .halt => { s with pc := s.pc + c.len.slots, halted := true }

/-- Executes one instruction whole, `more` being those the core executes later: fetch, every operation, the pc, the counts'
tick. A fault anywhere in it undoes all of it (R373). -/
def State.runInstr (c : CoreInstr) (more : List CoreInstr) (s : State) : Result :=
  match s.fetchInstr c.len with
  | .error e => .next (s.raise e)
  | .ok ws =>
    s.undone
      (andNext (s.coreOps c.ops) (fun t =>
        andNext (.next (t.flow c)) (fun u => .next { u.tick with fetched := ws, program := more })))

/-! ### The core step (60_exceptions.md R380) -/

/-- While a line is asserted or the core is halted it has no step (10_state.md R44). -/
def State.coreHeld (s : State) : Bool := s.resetLine || s.haltLine || s.halted

/-- The core step: soft reset, else the admitted exception with the lowest id, else the next instruction. With no
instruction offered the core stands still (log 3). -/
def State.coreStep (s : State) : Result :=
  if s.coreHeld then .next s
  else if s.srPending && decide (s.srCount = 0) then .next s.softReset.tick
  else
    match s.admitted with
    | some (src, id) => andNext (.next (s.takeException src id)) (fun t => .next t.tick)
    | none =>
      match s.program with
      | [] => .next s
      | c :: more => s.runInstr c more

/-! ### Events (20_memory.md R86) -/

def State.runEvent (e : Event) (s : State) : Result :=
  match e with
  | .core => s.coreStep
  | .hostTxn w v => s.issueWord .host w v
  | .hostInput c => .next (s.hostInput c)

/-- One event from a state without a fault; with no event to come the machine stands still (log 3). -/
def State.runSchedule (s : State) : Result :=
  match s.schedule with
  | [] => .next s
  | e :: rest => andNext (s.runEvent e) (fun t => .next { t with schedule := rest })

/-- The events after the first assertion of the reset line, where there is one. -/
def afterReset : List Event → Option (List Event)
  | [] => none
  | e :: rest => if e = .hostInput .assertReset then some rest else afterReset rest

/-- In a faulted state no agent has a step (R373), but the reset line's hard reset acts in every state and keeps the fault
(70_reset_and_hazards.md R410, R415): the events before its assertion, the one that raised the fault among them, do not
happen (log 4). -/
def State.runFaulted (f : Fault) (s : State) : Result :=
  match afterReset s.schedule with
  | some rest => .next { s.hostInput .assertReset with schedule := rest }
  | none => .fault f

/-- One step of the machine. -/
def State.runStep (s : State) : Result :=
  match s.fault with
  | none => s.runSchedule
  | some f => s.runFaulted f

/-! ### Placing a word where the next step takes it -/

/-- The core free to execute an instruction at its next turn: no fault, no line asserted, nothing due at the boundary, and
a pc that can be fetched (log 1). -/
def State.readyCore (s : State) : State :=
  { s with
    fault := none
    resetLine := false
    haltLine := false
    halted := false
    srPending := s.srPending && decide (s.srCount ≠ 0)
    intPending := s.intPending && !s.interruptAdmitted
    accel := { s.accel with ovfPending := s.accel.ovfPending && !s.overflowAdmitted }
    pc := if (itrans s.pc.toNat).isSome then s.pc else 0x8000 }

/-- The state whose next step takes this word: a host-port transaction as the next event of the schedule, every other word
as the one operation of the core's next instruction, one slot long, with the core ready to execute it. -/
def State.placeWord (w : Word) (v : BitVec 16) (s : State) : State :=
  if w.extractLsb' 17 15 = 1 then { s with fault := none, schedule := .hostTxn w v :: s.schedule }
  else
    { s.readyCore with
      program := { ops := [.issue w v], len := .one, flow := .next } :: s.program
      schedule := .core :: s.schedule }

end Sys2Proof.Machine
end

