-- ==== Sys2Proof/Machine/Step.lean ====
section
/-! DEFINITION. The step function and the placing of an instruction's bits for it. -/

namespace Sys2Proof.Machine

/-- One step: the next event of the schedule (20_memory.md R86). -/
def step : State → Host.Outcome State Fault Refusal := State.runStep

/-- `s` with the instruction whose bits are `w` (the word in bits 31:0, the data of a write in bits 47:32) placed where
the next step takes it. -/
def State.withFetchWord (s : State) (nbits w : Nat) : State :=
  s.placeWord (BitVec.ofNat 32 (w % 2 ^ nbits)) (BitVec.ofNat 16 (w % 2 ^ nbits / 2 ^ 32))

end Sys2Proof.Machine
end

