-- ==== Sys2Proof/Safety.lean ====
section
/-! DEFINITION. What counts as a safe state, the invariant of the machine, and the vocabulary of the statements: the
spec's formulas over integers and bits, written apart from the meanings. -/

namespace Sys2Proof.Machine

/-! ### Safe states and the invariant -/

/-- A state no fault has stopped (60_exceptions.md R373). -/
def State.safe (s : State) : Bool := s.fault.isNone

/-- Every memory and both RAM reset images are in canonical form. -/
def State.memWf (s : State) : Bool :=
  s.iram.wf && s.irom.wf && s.dram.wf && s.drom.wf && s.main.wf && s.cfg.iramImage.wf && s.cfg.dramImage.wf

/-- No memory and no RAM reset image lists an address beyond its size (20_memory.md R70). -/
def State.memBounded (s : State) : Bool :=
  s.iram.below 8192 && s.irom.below 8192 && s.dram.below 8192 && s.drom.below 4096 &&
    s.main.below s.cfg.mainMemSize && s.cfg.iramImage.below 8192 && s.cfg.dramImage.below 8192

/-- Whether a stack is within `stackDepth` (10_state.md R23). -/
def stackWithin (c : Config) (l : List (BitVec 16)) : Bool :=
  match c.stackDepth with
  | none => true
  | some n => decide (l.length ≤ n)

/-- A pending overflow carries one of the three overflow ids (R376). -/
def State.vectorLegal (s : State) : Bool :=
  !s.accel.ovfPending || s.accel.ovfVector == s.cfg.excId.rawReadOvf || s.accel.ovfVector == s.cfg.excId.rawWriteOvf ||
    s.accel.ovfVector == s.cfg.excId.adpcmOvf

/-- The count of an event is within its delay, and 0 when the event is not pending (R380, R383, R385). -/
def State.countsWithin (s : State) : Bool :=
  decide (s.intCount ≤ s.cfg.intDelay) && decide (s.srCount ≤ s.cfg.softResetDelay) &&
    (s.intPending || s.intCount == 0) && (s.srPending || s.srCount == 0)

/-- A core held in reset stands where the hard reset put it (70_reset_and_hazards.md R412). -/
def State.heldAtEntry (s : State) : Bool :=
  !s.resetLine || (s.pc == 0x8000 && s.callStack == [] && s.dataStack == [] && s.coreFile == CoreFile.reset && !s.halted)

/-- The invariant every step keeps. -/
structure State.Inv (s : State) : Prop where
  memWf : s.memWf = true
  memBounded : s.memBounded = true
  callWithin : stackWithin s.cfg s.callStack = true
  dataWithin : stackWithin s.cfg s.dataStack = true
  vectorLegal : s.vectorLegal = true
  countsWithin : s.countsWithin = true
  heldAtEntry : s.heldAtEntry = true

end Sys2Proof.Machine

namespace Sys2Proof.Claim

open Sys2Proof.Machine

/-! ### The spec's integer functions (00_scope.md R10) -/

/-- `zext_40` of an integer. -/
def u40 (v : Int) : Int := v % 2 ^ 40

/-- `wrap40`, that is `sext_40`, of an integer. -/
def wrap (v : Int) : Int := Int.bmod v (2 ^ 40)

/-- The value fits in 32 signed bits. -/
abbrev Fits32 (v : Int) : Prop := -2 ^ 31 ≤ v ∧ v < 2 ^ 31

/-- Outside the signed 40-bit range. -/
def Outside40 (v : Int) : Prop := v < -2 ^ 39 ∨ 2 ^ 39 ≤ v

/-! ### Flag rules (10_state.md R30, R32, R33) -/

/-- Bits 15:8 and LZ are as before. -/
def KeepsModesAndLz (old new : BitVec 16) : Prop :=
  new.getLsbD 6 = old.getLsbD 6 ∧ ∀ i, 8 ≤ i → new.getLsbD i = old.getLsbD i

/-- `flags40(v, c, o)` bit by bit (R32). -/
def Flags40 (old new : BitVec 16) (v : Acc) (c o : Prop) : Prop :=
  (new.getLsbD 0 = true ↔ c) ∧ (new.getLsbD 1 = true ↔ o) ∧ (new.getLsbD 2 = true ↔ v.toInt = 0) ∧
    (new.getLsbD 3 = true ↔ v.toInt < 0) ∧ (new.getLsbD 4 = true ↔ ¬Fits32 v.toInt) ∧
    (new.getLsbD 5 = true ↔ v.getLsbD 31 = v.getLsbD 30) ∧ (new.getLsbD 7 = true ↔ o ∨ old.getLsbD 7 = true) ∧
    KeepsModesAndLz old new

/-- `flags16(w, as)` bit by bit (R33). -/
def Flags16 (old new : BitVec 16) (w : BitVec 16) (above : Prop) : Prop :=
  new.getLsbD 0 = false ∧ new.getLsbD 1 = false ∧ (new.getLsbD 2 = true ↔ w.toNat = 0) ∧
    (new.getLsbD 3 = true ↔ 2 ^ 15 ≤ w.toNat) ∧ (new.getLsbD 4 = true ↔ above) ∧
    (new.getLsbD 5 = true ↔ w.getLsbD 15 = w.getLsbD 14) ∧ new.getLsbD 7 = old.getLsbD 7 ∧ KeepsModesAndLz old new

/-- Only bit `n` of SR may differ, and it is `b` afterwards. -/
def OnlyBit (old new : BitVec 16) (n : Nat) (b : Bool) : Prop :=
  new.getLsbD n = b ∧ ∀ i, i ≠ n → new.getLsbD i = old.getLsbD i

/-! ### Frames -/

/-- Every byte of every memory reads as before. -/
def SameBytes (s t : State) : Prop := ∀ r a, t.readByte r a = s.readByte r a

/-- Nothing but SR differs. -/
def OnlySr (s t : State) : Prop := t = { s with alu := { s.alu with sr := t.alu.sr } } ∧ SameBytes s t

/-- Nothing but the product register differs. -/
def OnlyProd (s t : State) : Prop := t = { s with alu := { s.alu with prod := t.alu.prod } } ∧ SameBytes s t

/-- Nothing but accumulator `d` and SR differs. -/
def OnlyAccSr (d : AccId) (s t : State) : Prop :=
  t = { s with alu := t.alu } ∧ t.acc d.other = s.acc d.other ∧ t.alu.ax0 = s.alu.ax0 ∧ t.alu.ax1 = s.alu.ax1 ∧
    t.alu.prod = s.alu.prod ∧ SameBytes s t

/-! ### Operands (10_state.md R26, R27; 30_encoding.md R107; 40_alu_arith.md R132) -/

/-- `axreg(s)`. -/
def axWord (s : State) : AxReg → BitVec 16
  | .ax0l => s.alu.ax0.extractLsb' 0 16
  | .ax1l => s.alu.ax1.extractLsb' 0 16
  | .ax0h => s.alu.ax0.extractLsb' 16 16
  | .ax1h => s.alu.ax1.extractLsb' 16 16

/-- axS.l. -/
def axL (s : State) : AxId → BitVec 16
  | .ax0 => axWord s .ax0l
  | .ax1 => axWord s .ax1l

/-- axS.h. -/
def axH (s : State) : AxId → BitVec 16
  | .ax0 => axWord s .ax0h
  | .ax1 => axWord s .ax1h

/-- `ax(x)`: the signed 32-bit value. -/
def axVal (s : State) : AxId → Int
  | .ax0 => s.alu.ax0.toInt
  | .ax1 => s.alu.ax1.toInt

/-- `acc(d)`. -/
def accVal (s : State) (d : AccId) : Int := (s.acc d).toInt

/-- acD.m. -/
def accMid (s : State) (d : AccId) : BitVec 16 := (s.acc d).extractLsb' 16 16

/-- `hi16(w)`. -/
def hi (w : BitVec 16) : Int := w.toInt * 2 ^ 16

/-- `prod()`: the sum of the slices. -/
def prodVal (s : State) : Int :=
  wrap (s.alu.prod.h.toInt * 2 ^ 32 + (s.alu.prod.m1.toNat + s.alu.prod.m2.toNat : Int) * 2 ^ 16 + s.alu.prod.l.toNat)

/-- A raw product doubled when SR.AM = 0 (42_alu_multiply.md R210). -/
def scaled (s : State) (raw : Int) : Int := if s.alu.sr.getLsbD 13 then raw else raw * 2

/-- MUL's product: axS.l by axS.h, signed (R211, R214). -/
def mulAx (s : State) (x : AxId) : Int := scaled s ((axL s x).toInt * (axH s x).toInt)

/-- MULC's product: acD.m by axS.h, signed (R211, R216). -/
def mulAcc (s : State) (d : AccId) (x : AxId) : Int := scaled s ((accMid s d).toInt * (axH s x).toInt)

/-- MULX's product of a half of ax0 and a half of ax1, with the kind SR.SU and the halves give (R211, R213). -/
def mulHalves (s : State) (h0 h1 : AxHalf) : Int :=
  scaled s
    (match s.alu.sr.getLsbD 15, h0, h1 with
      | true, .low, .low => ((axL s .ax0).toNat : Int) * (axL s .ax1).toNat
      | true, .low, .high => ((axL s .ax0).toNat : Int) * (axH s .ax1).toInt
      | true, .high, .low => ((axL s .ax1).toNat : Int) * (axH s .ax0).toInt
      | true, .high, .high => (axH s .ax0).toInt * (axH s .ax1).toInt
      | false, .low, .low => (axL s .ax0).toInt * (axL s .ax1).toInt
      | false, .low, .high => (axL s .ax0).toInt * (axH s .ax1).toInt
      | false, .high, .low => (axH s .ax0).toInt * (axL s .ax1).toInt
      | false, .high, .high => (axH s .ax0).toInt * (axH s .ax1).toInt)

/-! ### What a group of ALU commands does: the next state, its flags and its frame -/

/-- `addInto(D, b)` (40_alu_arith.md R132). -/
def Adds (d : AccId) (b : Int) (s : State) (r : Result) : Prop :=
  ∃ t, r = .next t ∧ accVal t d = wrap (accVal s d + b) ∧
    Flags40 s.alu.sr t.alu.sr (t.acc d) (2 ^ 40 ≤ u40 (accVal s d) + u40 b) (Outside40 (accVal s d + b)) ∧
    OnlyAccSr d s t

/-- `acc(D) <- a - b` with the flags of the subtraction (R132, R148). -/
def Subtracts (d : AccId) (a b : Int) (s : State) (r : Result) : Prop :=
  ∃ t, r = .next t ∧ accVal t d = wrap (a - b) ∧
    Flags40 s.alu.sr t.alu.sr (t.acc d) (u40 b ≤ u40 a) (Outside40 (a - b)) ∧ OnlyAccSr d s t

/-- The flags of `a - b`, nothing else written (R150, R151). -/
def Compares (a b : Int) (s : State) (r : Result) : Prop :=
  ∃ t v, r = .next t ∧ BitVec.toInt v = wrap (a - b) ∧
    Flags40 s.alu.sr t.alu.sr v (u40 b ≤ u40 a) (Outside40 (a - b)) ∧ OnlySr s t

/-- `setAcc(D, v)`: the value with C = 0 and O = 0 (R132). -/
def Moves (d : AccId) (v : Int) (s : State) (r : Result) : Prop :=
  ∃ t, r = .next t ∧ accVal t d = wrap v ∧ Flags40 s.alu.sr t.alu.sr (t.acc d) False False ∧ OnlyAccSr d s t

/-- A logic operation: `w` into acD.m alone, flags16 with AS from the whole accumulator (41_alu_logic_shift.md R180). -/
def Logics (d : AccId) (w : BitVec 16) (s : State) (r : Result) : Prop :=
  ∃ t, r = .next t ∧ accMid t d = w ∧ (t.acc d).extractLsb' 0 16 = (s.acc d).extractLsb' 0 16 ∧
    (t.acc d).extractLsb' 32 8 = (s.acc d).extractLsb' 32 8 ∧
    Flags16 s.alu.sr t.alu.sr w (¬Fits32 (accVal t d)) ∧ OnlyAccSr d s t

/-- `storeProd(v)` with no SR bit written (R28, R212). -/
def StoresProd (v : Int) (s : State) (r : Result) : Prop :=
  ∃ t, r = .next t ∧ prodVal t = wrap v ∧ t.alu.prod.l = BitVec.ofInt 16 v ∧
    t.alu.prod.m1 = BitVec.ofInt 16 (v / 2 ^ 16) ∧ t.alu.prod.h = BitVec.ofInt 8 (v / 2 ^ 32) ∧ t.alu.prod.m2 = 0 ∧
    OnlyProd s t

/-- A mode command: one SR bit and nothing else (43_alu_regs_modes.md R240 to R244). -/
def SetsBit (n : Nat) (b : Bool) (s : State) (r : Result) : Prop :=
  ∃ t, r = .next t ∧ OnlyBit s.alu.sr t.alu.sr n b ∧ OnlySr s t

/-! ### The memories, the DMA and the accelerator -/

/-- The slot at a DSP address as DMA reads it: instruction space or data space (20_memory.md R71, R72, R80). -/
def slotAt (s : State) (imem : Bool) (a : Nat) : Slot :=
  if a < 0x1000 then s.slot (if imem then .iram else .dram) a
  else if a < 0x1800 then s.slot .drom (a - 0x1000)
  else s.slot .irom (a - 0x8000)

/-- A RAM slot, the only target of a copy into DSP memory (45_dma.md R305). -/
abbrev RamAddr (a : Nat) : Prop := a < 0x1000

/-- A RAM or ROM slot of the space, the only source of a copy out of DSP memory (R305). -/
abbrev ReadableAddr (imem : Bool) (a : Nat) : Prop :=
  a < 0x1000 ∨ (imem = false ∧ a < 0x1800) ∨ (0x8000 ≤ a ∧ a < 0x9000)

/-- Address `a` may take part in the copy the descriptor describes (R302, R305). -/
def DmaAddr (s : State) (a : Nat) : Prop :=
  if s.dma.ctl.getLsbD 0 then ReadableAddr (s.dma.ctl.getLsbD 1) a else RamAddr a

/-- The length is even and the main-memory address aligned and in range for a copy of `v` bytes; a copy of no bytes has no
range (R305's corner cases; log 14). -/
def DmaLengthOk (s : State) (v : BitVec 16) : Prop :=
  v.toNat % 2 = 0 ∧ s.dma.mmaddr.toNat % s.cfg.dmaMainAlign = 0 ∧
    (v.toNat = 0 ∨ s.dma.mmaddr.toNat + v.toNat ≤ s.cfg.mainMemSize)

/-- A byte of main memory. -/
def mainAt (s : State) (a : Nat) : Byte := s.readByte .main a

/-- The format codes are pairwise different. -/
def CodesDistinct (c : FmtCodes) : Prop := [c.adpcm4, c.raw8, c.raw16, c.pcm8, c.pcm16].Nodup

/-- The code of a format (46_accelerator.md R331). -/
def codeOf (c : FmtCodes) : Format → BitVec 16
  | .adpcm4 => c.adpcm4
  | .raw8 => c.raw8
  | .raw16 => c.raw16
  | .pcm8 => c.pcm8
  | .pcm16 => c.pcm16

/-- The stream after the access at `a`, `pre` being the pointer before it (R334, R340, R341): with `end` in the closed
range the pointer returns to `start` and the overflow `id` is queued, a lost one reported; else it stands one on. -/
def StreamAfter (s t : State) (pre a : BitVec 32) (id : BitVec 3) : Prop :=
  if pre.toNat ≤ s.accel.endAddr.toNat ∧ s.accel.endAddr.toNat ≤ a.toNat then
    t.accel.cur = s.accel.startAddr ∧ t.accel.ovfPending = true ∧ t.accel.ovfVector = id ∧
      t.log = s.log ++ (if s.accel.ovfPending then [.overflowLost s.accel.ovfVector] else [])
  else
    t.accel.cur.toNat = (a.toNat + 1) % 2 ^ 32 ∧ t.accel.ovfPending = s.accel.ovfPending ∧
      t.accel.ovfVector = s.accel.ovfVector ∧ t.log = s.log

/-- Nothing but the stream pointer, the pending overflow, the log and the core's returned value differs. -/
def OnlyStream (s t : State) : Prop :=
  t = { s with
        accel := { s.accel with cur := t.accel.cur, ovfPending := t.accel.ovfPending, ovfVector := t.accel.ovfVector }
        log := t.log
        coreData := t.coreData } ∧ SameBytes s t

/-- `clamp(lo, hi, v)` (R10). -/
def clampInt (lo hi v : Int) : Int := if v < lo then lo else if hi < v then hi else v

/-- The default `pcmScale` (R336). -/
def pcmValue (x : Int) (gain : BitVec 16) : Int := clampInt (-0x8000) 0x7FFF (x * gain.toNat / 2 ^ 11)

/-- The counts of pending events after a core step (60_exceptions.md R380). -/
def Ticked (pending : Bool) (n : Nat) : Nat := if pending then n - 1 else n

/-! ### Faults, returned values, mailboxes and descriptors -/

/-- `raise Fatal(f)`: the state before plus the fault, and nothing else (60_exceptions.md R373). -/
def Faults (f : Fault) (s : State) (r : Result) : Prop := r = .next { s with fault := some f }

/-- The value a port was last returned. -/
def returned (p : Port) (t : State) : BitVec 16 :=
  match p with
  | .dsp => t.coreData
  | .host => t.hostData

/-- Nothing but a port's returned value differs. -/
def OnlyReturned (p : Port) (s t : State) : Prop :=
  (match p with
    | .dsp => t = { s with coreData := t.coreData }
    | .host => t = { s with hostData := t.hostData }) ∧ SameBytes s t

/-- A read without side effect: the value on the port, nothing else. -/
def Returns (p : Port) (v : BitVec 16) (s : State) (r : Result) : Prop :=
  ∃ t, r = .next t ∧ returned p t = v ∧ OnlyReturned p s t

/-- A mailbox by its name. -/
def box (m : MailboxId) (s : State) : Mailbox :=
  match m with
  | .cmb => s.cmb
  | .dmb => s.dmb

/-- Nothing but one mailbox, the log and the returned values differ. -/
def OnlyMailbox (m : MailboxId) (s t : State) : Prop :=
  (match m with
    | .cmb => t = { s with cmb := t.cmb, log := t.log, coreData := t.coreData, hostData := t.hostData }
    | .dmb => t = { s with dmb := t.dmb, log := t.log, coreData := t.coreData, hostData := t.hostData }) ∧ SameBytes s t

/-- The log after a sender's write: one report when a message was waiting (44_mailbox.md R271). -/
def LogsOverwrite (m : MailboxId) (s t : State) : Prop :=
  t.log = s.log ++ (if (box m s).ready then [.mailboxOverwrite m] else [])

/-- The sender writes the high word (R272). -/
def SendsHigh (m : MailboxId) (v : BitVec 16) (s : State) (r : Result) : Prop :=
  ∃ t, r = .next t ∧ (box m t).hi.toNat = v.toNat % 2 ^ 15 ∧ (box m t).lo = (box m s).lo ∧ (box m t).ready = false ∧
    LogsOverwrite m s t ∧ t.coreData = s.coreData ∧ t.hostData = s.hostData ∧ OnlyMailbox m s t

/-- The sender writes the low word (R273). -/
def SendsLow (m : MailboxId) (v : BitVec 16) (s : State) (r : Result) : Prop :=
  ∃ t, r = .next t ∧ (box m t).hi = (box m s).hi ∧ (box m t).lo = v ∧ (box m t).ready = true ∧
    LogsOverwrite m s t ∧ t.coreData = s.coreData ∧ t.hostData = s.hostData ∧ OnlyMailbox m s t

/-- The receiver reads the low word (R274). -/
def ReceivesLow (p : Port) (m : MailboxId) (s : State) (r : Result) : Prop :=
  ∃ t, r = .next t ∧ returned p t = (box m s).lo ∧ (box m t).hi = (box m s).hi ∧ (box m t).lo = (box m s).lo ∧
    (box m t).ready = false ∧ t.log = s.log ∧
    (match p with
      | .dsp => t.hostData = s.hostData
      | .host => t.coreData = s.coreData) ∧ OnlyMailbox m s t

/-- `ready ++ hi` as a number (R275). -/
def highWord (b : Mailbox) : Nat := (if b.ready then 2 ^ 15 else 0) + b.hi.toNat

/-- The access is marked F in the register map (30_encoding.md R102). -/
def Denied : Port → Dir → IfxReg → Bool
  | .host, _, .dscr | .host, _, .dsbl | .host, _, .dspa | .host, _, .dsmah | .host, _, .dsmal => false
  | .host, .read, .dmbh | .host, .read, .dmbl | .host, _, .cmbh | .host, _, .cmbl => false
  | .host, _, _ => true
  | .dsp, .write, .acdat | .dsp, .write, .cmbh | .dsp, .write, .cmbl => true
  | .dsp, _, _ => false

/-- Nothing but the DMA descriptor differs. -/
def OnlyDma (s t : State) : Prop := t = { s with dma := t.dma } ∧ SameBytes s t

/-- Nothing but the accelerator descriptor differs. -/
def OnlyAccel (s t : State) : Prop := t = { s with accel := t.accel } ∧ SameBytes s t

/-- A descriptor write: `t.dma` is `d`, nothing else differs (45_dma.md R300). -/
def SetsDma (d : Dma) (s : State) (r : Result) : Prop := ∃ t, r = .next t ∧ t.dma = d ∧ OnlyDma s t

/-- A descriptor write: `t.accel` is `a`, nothing else differs (46_accelerator.md R330). -/
def SetsAccel (a : Accel) (s : State) (r : Result) : Prop := ∃ t, r = .next t ∧ t.accel = a ∧ OnlyAccel s t

/-- `x[31:16] <- v` (20_memory.md R83). -/
def withHigh (x : BitVec 32) (v : BitVec 16) : BitVec 32 := BitVec.ofNat 32 (v.toNat * 2 ^ 16 + x.toNat % 2 ^ 16)

/-- `x[15:0] <- v` (R83). -/
def withLow (x : BitVec 32) (v : BitVec 16) : BitVec 32 := BitVec.ofNat 32 (x.toNat / 2 ^ 16 * 2 ^ 16 + v.toNat)

/-- `x[31:16]`. -/
def highOf (x : BitVec 32) : BitVec 16 := BitVec.ofNat 16 (x.toNat / 2 ^ 16)

/-- `x[15:0]`. -/
def lowOf (x : BitVec 32) : BitVec 16 := BitVec.ofNat 16 x.toNat

/-! ### DMA copies (45_dma.md R305) -/

/-- The region a copy into DSP memory writes. -/
def dmaRam (s : State) : Region := if s.dma.ctl.getLsbD 1 then .iram else .dram

/-- The copy into DSP memory of `v` bytes: every slot holds its big-endian pair, every byte outside the slots reads as
before, and only the length register and that RAM differ. -/
def CopiesIn (v : BitVec 16) (s : State) (r : Result) : Prop :=
  ∃ t, r = .next t ∧ t.dma = { s.dma with len := v } ∧
    t = { s with dma := t.dma, iram := t.iram, dram := t.dram } ∧
    (∀ k, k < v.toNat / 2 → slotAt t (s.dma.ctl.getLsbD 1) (s.dma.dspaddr.toNat + k) =
      mainAt s (s.dma.mmaddr.toNat + 2 * k) ++ mainAt s (s.dma.mmaddr.toNat + 2 * k + 1)) ∧
    ∀ q a, ¬(q = dmaRam s ∧ 2 * s.dma.dspaddr.toNat ≤ a ∧ a < 2 * s.dma.dspaddr.toNat + v.toNat) →
      t.readByte q a = s.readByte q a

/-- The copy out of DSP memory of `v` bytes. -/
def CopiesOut (v : BitVec 16) (s : State) (r : Result) : Prop :=
  ∃ t, r = .next t ∧ t.dma = { s.dma with len := v } ∧ t = { s with dma := t.dma, main := t.main } ∧
    (∀ k, k < v.toNat / 2 →
      mainAt t (s.dma.mmaddr.toNat + 2 * k) ++ mainAt t (s.dma.mmaddr.toNat + 2 * k + 1) =
        slotAt s (s.dma.ctl.getLsbD 1) (s.dma.dspaddr.toNat + k)) ∧
    ∀ q a, ¬(q = .main ∧ s.dma.mmaddr.toNat ≤ a ∧ a < s.dma.mmaddr.toNat + v.toNat) →
      t.readByte q a = s.readByte q a

/-! ### Accelerator samples (46_accelerator.md R334 to R338, R341) -/

/-- The bytes of main memory at a byte address, most significant first. -/
def mainPair (s : State) (a : Nat) : BitVec 16 := mainAt s a ++ mainAt s (a + 1)

/-- `2 * cur`, modulo 2^32 (R333). -/
def pairAddr (s : State) : Nat := 2 * s.accel.cur.toNat % 2 ^ 32

/-- A fetch of one sample `v` at `cur` in a raw or PCM format: the sample, the stream, and nothing else. -/
def Streams (v : BitVec 16 → Prop) (s : State) (r : Result) : Prop :=
  ∃ t, r = .next t ∧ v t.coreData ∧ StreamAfter s t s.accel.cur s.accel.cur s.cfg.excId.rawReadOvf ∧ OnlyStream s t

/-- Where the ADPCM nibble of a fetch lies: past the header's two nibbles at a frame start (R334). -/
def nibbleAddr (s : State) : BitVec 32 := if s.accel.cur.toNat % 16 = 0 then s.accel.cur + 2 else s.accel.cur

/-- `ps` as the decode of a fetch uses it (R334, R337). -/
def psAt (s : State) : BitVec 16 :=
  if s.accel.cur.toNat % 16 = 0 then (mainAt s (s.accel.cur.toNat / 2)).setWidth 16 else s.accel.ps

/-- The nibble of a fetch (R338). -/
def nibbleAt (s : State) : BitVec 4 :=
  BitVec.ofNat 4
    (if (nibbleAddr s).toNat % 2 = 0 then (mainAt s ((nibbleAddr s).toNat / 2)).toNat / 16
      else (mainAt s ((nibbleAddr s).toNat / 2)).toNat % 16)

/-- The default `adpcmDecode` (R338). -/
def adpcmValue (s : State) : Int :=
  clampInt (-0x7FFF) 0x7FFF
    ((nibbleAt s).toInt * 2 ^ ((psAt s).toNat % 16) +
      (0x400 +
          (s.accel.coefAt (BitVec.ofNat 4 (2 * ((psAt s).toNat / 16 % 8)))).toInt * s.accel.yn1.toInt +
          (s.accel.coefAt (BitVec.ofNat 4 (2 * ((psAt s).toNat / 16 % 8) + 1))).toInt * s.accel.yn2.toInt) / 2 ^ 11)

/-- Nothing but the stream, the decoder's history, the log and the core's returned value differs. -/
def OnlyAdpcm (s t : State) : Prop :=
  t = { s with
        accel :=
          { s.accel with
            cur := t.accel.cur, ps := t.accel.ps, yn1 := t.accel.yn1, yn2 := t.accel.yn2,
            ovfPending := t.accel.ovfPending, ovfVector := t.accel.ovfVector }
        log := t.log
        coreData := t.coreData } ∧ SameBytes s t

/-- A raw write: `n` bytes stored at byte address `a`, every other byte as before, the stream advanced, and only main
memory, the stream, the overflow and the log differ (R341). -/
def StoresSample (a n : Nat) (bytes : State → Prop) (s : State) (r : Result) : Prop :=
  ∃ t, r = .next t ∧ bytes t ∧ (∀ q b, ¬(q = .main ∧ a ≤ b ∧ b < a + n) → t.readByte q b = s.readByte q b) ∧
    StreamAfter s t s.accel.cur s.accel.cur s.cfg.excId.rawWriteOvf ∧
    t = { s with
          main := t.main
          accel := { s.accel with cur := t.accel.cur, ovfPending := t.accel.ovfPending, ovfVector := t.accel.ovfVector }
          log := t.log }

/-! ### The core (60_exceptions.md R378 to R381, 10_state.md R22, R44) -/

/-- The core is free to step and the next event is its. -/
def CoreTurn (s : State) (rest : List Event) : Prop :=
  s.fault = none ∧ s.schedule = .core :: rest ∧ s.resetLine = false ∧ s.haltLine = false ∧ s.halted = false

/-- A soft reset is due (R380). -/
def SoftResetDue (s : State) : Prop := s.srPending = true ∧ s.srCount = 0

/-- An accelerator overflow is pending and the mask policy admits it (R378, R380). -/
def OverflowDue (s : State) : Prop :=
  s.accel.ovfPending = true ∧ maskAdmits s.cfg .overflow s.accel.ovfVector s.alu.sr = true

/-- The external interrupt is pending, its count is 0 and the mask policy admits it (R378, R380). -/
def InterruptDue (s : State) : Prop :=
  s.intPending = true ∧ s.intCount = 0 ∧ maskAdmits s.cfg .interrupt s.cfg.excId.int s.alu.sr = true

/-- The core's next step executes an instruction (R380). -/
def NothingDue (s : State) : Prop := ¬SoftResetDue s ∧ ¬OverflowDue s ∧ ¬InterruptDue s

/-- The slots of an instruction at pc can be fetched (20_memory.md R71, R82). -/
def Fetchable (s : State) (len : InstrLen) : Prop :=
  ReadableAddr true s.pc.toNat ∧ (len = .two → ReadableAddr true (s.pc + 1).toNat)

/-- The slots of an instruction at pc. -/
def slotsAt (s : State) (len : InstrLen) : List Slot :=
  slotAt s true s.pc.toNat :: (if len = .two then [slotAt s true (s.pc + 1).toNat] else [])

/-- The next event is the core's, and it executes instruction `c`, with `more` offered after it. -/
def NextInstr (s : State) (c : CoreInstr) (more : List CoreInstr) (rest : List Event) : Prop :=
  CoreTurn s rest ∧ NothingDue s ∧ s.program = c :: more ∧ Fetchable s c.len

/-- The pc after an instruction that does not set it (10_state.md R22). -/
def advanced (s : State) (len : InstrLen) : BitVec 16 :=
  BitVec.ofNat 16 (s.pc.toNat + (if len = .two then 2 else 1))

/-- The state after the core step from `s` that executed an instruction of length `len`, where its operations and its end
leave `u`: the counts ticked (R380), the event, the instruction offered and its slots noted. -/
def Finished (s u : State) (len : InstrLen) (more : List CoreInstr) (rest : List Event) : State :=
  { u with
    intCount := Ticked u.intPending u.intCount
    srCount := Ticked u.srPending u.srCount
    fetched := slotsAt s len
    program := more
    schedule := rest }

/-- The same where the pc advances by the instruction's length. -/
def Advanced (s u : State) (len : InstrLen) (more : List CoreInstr) (rest : List Event) : State :=
  Finished s { u with pc := advanced s len } len more rest

/-- Commands and transactions in their order lead from `s` to `u` with no fault. -/
def Runs : List Instr → State → State → Prop
  | [], s, u => u = s
  | i :: rest, s, u => ∃ t, exec i s = .next t ∧ t.fault = none ∧ Runs rest t u

/-- Operations in their order lead from `s` to `u` with no fault. -/
def OpsGive : List CoreOp → State → State → Prop
  | [], s, u => u = s
  | op :: rest, s, u => ∃ t, s.coreOp op = .next t ∧ t.fault = none ∧ OpsGive rest t u

/-- The words a core instruction issues are those of these instructions, of the DSP port, in this order. -/
def Issues (m : IfxMap) : List CoreOp → List Instr → Prop
  | [], [] => True
  | .issue w v :: ops, i :: rest => decode m w v = some i ∧ i.port = .dsp ∧ Issues m ops rest
  | _, _ => False

/-- An instruction of one operation that leaves the pc to advance. -/
def oneOp (op : CoreOp) (len : InstrLen) : CoreInstr := { ops := [op], len := len, flow := .next }

/-- An instruction of these operations that leaves the pc to advance. -/
def allOps (ops : List CoreOp) (len : InstrLen) : CoreInstr := { ops := ops, len := len, flow := .next }

/-- A load of register `r` from a data address (43_alu_regs_modes.md R251): WREG of the slot, or of what the register-block
read returns; where the read faults, its fault. -/
def LoadsRegister (r : Reg) (a : BitVec 16) (s : State) (len : InstrLen) (more : List CoreInstr) (rest : List Event) : Prop :=
  if a.toNat < 0xFF00 then
    if ReadableAddr false a.toNat then
      ∃ t, exec (.wreg r (slotAt s false a.toNat)) { s with coreData := slotAt s false a.toNat } = .next t ∧
        step s = .next (Advanced s t len more rest) ∧
        ∀ d, r = .acM d → s.alu.sr.getLsbD 14 = true → accVal t d = (slotAt s false a.toNat).toInt * 2 ^ 16
    else step s = .next { s with fault := some (.unmappedData a .read) }
  else
    ∀ i, decode s.cfg.ifxMap (txnWord .dsp .read a) 0 = some i → ∃ t, exec i s = .next t ∧
      if t.fault = none then
        ∃ u, exec (.wreg r t.coreData) t = .next u ∧ step s = .next (Advanced s u len more rest)
      else step s = .next t

/-- A store of register `r` to a data address (R251): what RREG returns, saturated for acD.m under SXM = 1, is written; where
the write faults, its fault. -/
def StoresRegister (r : Reg) (a : BitVec 16) (s : State) (len : InstrLen) (more : List CoreInstr) (rest : List Event) :
    Prop :=
  ∃ u, exec (.rreg r) s = .next u ∧
    (∀ d, r = .acM d → s.alu.sr.getLsbD 14 = true → ¬Fits32 (accVal s d) →
      u.coreData = if 0 < accVal s d then 0x7FFF else 0x8000) ∧
    if a.toNat < 0xFF00 then
      if RamAddr a.toNat then
        ∃ t, step s = .next t ∧ slotAt t false a.toNat = u.coreData ∧
          (∀ q b, ¬(q = .dram ∧ 2 * a.toNat ≤ b ∧ b ≤ 2 * a.toNat + 1) → t.readByte q b = s.readByte q b) ∧
          t = Advanced s { s with coreData := u.coreData, dram := t.dram } len more rest
      else if ReadableAddr false a.toNat then step s = .next { s with fault := some (.romWrite a) }
      else step s = .next { s with fault := some (.unmappedData a .write) }
    else
      ∀ i, decode s.cfg.ifxMap (txnWord .dsp .write a) u.coreData = some i → ∃ t, exec i u = .next t ∧
        step s = .next (if t.fault = none then Advanced s t len more rest else { s with fault := t.fault })

/-- An instruction with no effect but its flow. -/
def onlyFlow (flow : CoreFlow) (len : InstrLen) : CoreInstr := { ops := [], len := len, flow := flow }

/-- The first assertion of the reset line among these events, with the events after it. -/
def NextReset (l rest : List Event) : Prop :=
  ∃ before, l = before ++ .hostInput .assertReset :: rest ∧ .hostInput .assertReset ∉ before

/-- A stack has room for one more entry (10_state.md R23). -/
def HasRoom (c : Config) (l : List (BitVec 16)) : Prop :=
  match c.stackDepth with
  | none => True
  | some n => l.length < n

/-- Exception entry for `id` (R381): what the two sources share. -/
def Enters (id : BitVec 3) (s t : State) : Prop :=
  t.callStack = s.pc :: s.callStack ∧ t.dataStack = s.alu.sr :: s.dataStack ∧ t.pc.toNat = 2 * id.toNat ∧
    (if s.cfg.entryClearsEnable then OnlyBit s.alu.sr t.alu.sr (if id = s.cfg.excId.int then 11 else 9) false
      else t.alu.sr = s.alu.sr) ∧
    t.srCount = Ticked s.srPending s.srCount ∧ t.intCount = Ticked t.intPending s.intCount ∧ SameBytes s t ∧
    t = { s with
          alu := { s.alu with sr := t.alu.sr }
          pc := t.pc
          callStack := t.callStack
          dataStack := t.dataStack
          accel := { s.accel with ovfPending := t.accel.ovfPending }
          intPending := t.intPending
          intCount := t.intCount
          srCount := t.srCount
          schedule := t.schedule }

/-- The op values no row of the table has (30_encoding.md R111), but for 0, which a transaction word has. -/
def ReservedOp (n : Nat) : Prop :=
  (0x1B ≤ n ∧ n ≤ 0x1F) ∨ (0x2C ≤ n ∧ n ≤ 0x2F) ∨ (0x37 ≤ n ∧ n ≤ 0x3F) ∨ (0x4D ≤ n ∧ n ≤ 0x4F) ∨ n = 0x56 ∨
    n = 0x57 ∨ 0x5A ≤ n

/-- The engine register numbers (R108). -/
def EngineReg (n : Nat) : Prop := (0x10 ≤ n ∧ n ≤ 0x1F) ∧ n ≠ 0x12

/-- An ALU command word from its fields as numbers (R106). -/
def aluWord (op d s imm : Nat) : Word := BitVec.ofNat 32 (op * 2 ^ 24 + d * 2 ^ 23 + s * 2 ^ 20 + imm)

/-- The additive commands, for every operand (40_alu_arith.md R134 to R148). -/
def additive : Set Instr :=
  { i | (∃ d, i = .add d ∨ i = .addp d ∨ i = .sub d ∨ i = .subp d ∨ i = .inc d ∨ i = .dec d ∨ i = .incm d ∨
        i = .decm d ∨ i = .neg d) ∨
      (∃ d r, i = .addr d r ∨ i = .subr d r) ∨ (∃ d x, i = .addax d x ∨ i = .subax d x) ∨ (∃ d v, i = .addi d v) ∨
      ∃ d v, i = .addis d v }

end Sys2Proof.Claim
end

