-- ==== Sys2Proof/Certificates/Slice0/Obligations.lean ====
section
/-! DEFINITION. The statements for the provers, in the order of OBLIGATIONS.json. The vocabulary is that of Safety.lean.
The names and the semantics of the ALU commands, the bits of SR and the numbers of the engine registers are the spec's own
passages from general knowledge (93_implementation_defined.md G1 to G17; log 20), and a statement about them rests on them. -/

open Sys2Proof Sys2Proof.Machine Sys2Proof.Claim

/-! ### Encoding (30_encoding.md) -/

/-- Decoding the word of a well-formed instruction gives the instruction back, with every operand (R100, R106 to R108), for
every register map that puts no two registers at one address (R8). -/
def Obligations.DecodeInvertsEncode : Prop :=
  ∀ (m : IfxMap) (i : Instr), m.Distinct → i.wf m = true → decode m (encode m i).word (encode m i).data = some i

/-- A word that decodes is the word of its instruction, bit for bit, whatever the register map: every unused field of a
decoded word is 0 (R109). -/
def Obligations.EncodeInvertsDecode : Prop :=
  ∀ (m : IfxMap) (w : Word) (v : BitVec 16) (i : Instr), decode m w v = some i →
    i.wf m = true ∧ (encode m i).word = w

/-- The command words field by field, whatever the register map: op in 31:24, d in 23, s in 22:20, imm in 15:0 (R106,
R107). -/
def Obligations.CommandWordLayout : Prop :=
  ∀ m : IfxMap,
    (∀ d : AccId, (encode m (.add d)).word = aluWord 0x02 d.bit.toNat 0 0) ∧
    (∀ (d : AccId) (r : AxReg), (encode m (.addr d r)).word = aluWord 0x03 d.bit.toNat r.bits.toNat 0) ∧
    (∀ (d : AccId) (x : AxId), (encode m (.addax d x)).word = aluWord 0x04 d.bit.toNat x.bit.toNat 0) ∧
    (∀ (d : AccId) (imm : BitVec 16), (encode m (.addi d imm)).word = aluWord 0x06 d.bit.toNat 0 imm.toNat) ∧
    (∀ (d : AccId) (imm : BitVec 8), (encode m (.addis d imm)).word = aluWord 0x07 d.bit.toNat 0 imm.toNat) ∧
    (∀ (d : AccId) (n : BitVec 6), (encode m (.lsl d n)).word = aluWord 0x30 d.bit.toNat 0 n.toNat) ∧
    (∀ (d : AccId) (x : AxId), (encode m (.andr d x)).word = aluWord 0x20 d.bit.toNat x.bit.toNat 0) ∧
    (∀ x : AxId, (encode m (.mul x)).word = aluWord 0x40 0 x.bit.toNat 0) ∧
    (∀ h0 h1 : AxHalf, (encode m (.mulx h0 h1)).word = aluWord 0x41 0 (2 * h0.bit.toNat + h1.bit.toNat) 0) ∧
    (encode m .set15).word = aluWord 0x50 0 0 0 ∧
    (∀ r : Reg, (encode m (.rreg r)).word = BitVec.ofNat 32 (0x58 * 2 ^ 24 + r.num.toNat * 2 ^ 16)) ∧
    ∀ (r : Reg) (v : BitVec 16),
      (encode m (.wreg r v)).word = BitVec.ofNat 32 (0x59 * 2 ^ 24 + r.num.toNat * 2 ^ 16 + v.toNat)

/-- Words that encode nothing, whatever the register map: a reserved op, a word with the op 0x00 that is no transaction on
the register block (a bit of 31:18 set, or an address below 0xFF00), RREG or WREG of a number that is no engine register,
RREG with a value (R100, R109, R111, R247); and an issuer's word that encodes nothing has no step, whatever operations of the
core's instruction follow it. That an op 0x00 word with an address below 0xFF00 encodes nothing is the model's: for a core
word its choice between R103 and R109 with R111 (log 28, DESIGN CHOICE), for a host-port word read from R15 and R103 (log 21,
DEDUCED). -/
def Obligations.ReservedWordsRefused : Prop :=
  (∀ (m : IfxMap) (w : Word) (v : BitVec 16), ReservedOp (w.toNat / 2 ^ 24) → decode m w v = none) ∧
  (∀ (m : IfxMap) (w : Word) (v : BitVec 16), w.toNat / 2 ^ 24 = 0 →
    w.toNat / 2 ^ 18 ≠ 0 ∨ w.toNat % 2 ^ 16 < 0xFF00 → decode m w v = none) ∧
  (∀ (m : IfxMap) (w : Word) (v : BitVec 16), w.toNat / 2 ^ 24 = 0x58 ∨ w.toNat / 2 ^ 24 = 0x59 →
    ¬EngineReg (w.toNat / 2 ^ 16 % 2 ^ 8) → decode m w v = none) ∧
  (∀ (m : IfxMap) (w : Word) (v : BitVec 16), w.toNat / 2 ^ 24 = 0x58 → w.toNat % 2 ^ 16 ≠ 0 → decode m w v = none) ∧
  ∀ (s : State) (w : Word) (v : BitVec 16) (rest : List Event), decode s.cfg.ifxMap w v = none →
    (∀ (c : CoreInstr) (ops : List CoreOp) (more : List CoreInstr), NextInstr s c more rest → c.ops = .issue w v :: ops →
      step s = .refused (.notAnInstruction w)) ∧
    (s.fault = none → s.schedule = .hostTxn w v :: rest → step s = .refused (.notAnInstruction w))

/-- Words written out from the tables of R102 (the default register map), R106 and R108 decode to what they stand for. -/
def Obligations.SampleWordsDecode : Prop :=
  decode .standard 0x02000000 0 = some (.add .ac0) ∧ decode .standard 0x03A00000 0 = some (.addr .ac1 .ax0h) ∧
  decode .standard 0x260000FF 0 = some (.andi .ac0 0x00FF) ∧ decode .standard 0x30000010 0 = some (.lsl .ac0 16) ∧
  decode .standard 0x41200000 0 = some (.mulx .high .low) ∧ decode .standard 0x581E0000 0 = some (.rreg (.acM .ac0)) ∧
  decode .standard 0x59134000 0 = some (.wreg .sr 0x4000) ∧ decode .standard 0x0003FFFE 0x0ABC = some (.wrHCmbh 0x0ABC) ∧
  decode .standard 0x0000FFDD 0 = some .rdDAcdat ∧ decode .standard 0x0001FFCB 4 = some (.wrDDsbl 4)

/-! ### A step runs the decoded instruction -/

/-- A word that encodes an instruction `i` of the port it is issued on: the step is `exec i`. Of the core, an instruction
that issues the word alone is executed whole in one event: the pc is then past it, the counts have ticked, and its slots,
the instruction offered and the event are noted. An instruction that issues several words runs the commands they encode in
their order in that one event (20_memory.md R85, R86). Of the host, the event is gone. A step that raises a fault leaves
the state before it and the fault (60_exceptions.md R373). How words reach the machine is the model's (log 1, log 2). -/
def Obligations.StepRunsDecodedWord : Prop :=
  ∀ (s : State) (rest : List Event),
    (∀ (w : Word) (v : BitVec 16) (i : Instr) (len : InstrLen) (more : List CoreInstr),
      decode s.cfg.ifxMap w v = some i → i.port = .dsp → NextInstr s (oneOp (.issue w v) len) more rest →
      step s =
        match exec i s with
        | .next t => .next (if t.fault = none then Advanced s t len more rest else t)
        | .fault f => .fault f
        | .refused e => .refused e) ∧
    (∀ (c : CoreInstr) (is : List Instr) (u : State) (more : List CoreInstr), NextInstr s c more rest → c.flow = .next →
      Issues s.cfg.ifxMap c.ops is → Runs is s u → step s = .next (Advanced s u c.len more rest)) ∧
    ∀ (w : Word) (v : BitVec 16) (i : Instr), decode s.cfg.ifxMap w v = some i → i.port = .host → s.fault = none →
      s.schedule = .hostTxn w v :: rest →
      step s =
        match exec i s with
        | .next t => .next (if t.fault = none then { t with schedule := rest } else t)
        | .fault f => .fault f
        | .refused e => .refused e

/-! ### Additive, move, compare and test commands (40_alu_arith.md) -/

/-- ADD, ADDR, ADDAX, ADDP, ADDI, ADDIS, INC and INCM (R132, R134 to R141). -/
def Obligations.AdditionsAdd : Prop :=
  ∀ (s : State) (d : AccId),
    Adds d (accVal s d.other) s (exec (.add d) s) ∧
    (∀ r : AxReg, Adds d (hi (axWord s r)) s (exec (.addr d r) s)) ∧
    (∀ x : AxId, Adds d (axVal s x) s (exec (.addax d x) s)) ∧
    Adds d (prodVal s) s (exec (.addp d) s) ∧
    (∀ imm : BitVec 16, Adds d (hi imm) s (exec (.addi d imm) s)) ∧
    (∀ imm : BitVec 8, Adds d (imm.toInt * 2 ^ 16) s (exec (.addis d imm) s)) ∧
    Adds d 1 s (exec (.inc d) s) ∧ Adds d 0x10000 s (exec (.incm d) s)

/-- SUB, SUBR, SUBAX, SUBP, DEC, DECM and NEG (R132, R142 to R148). -/
def Obligations.SubtractionsSubtract : Prop :=
  ∀ (s : State) (d : AccId),
    Subtracts d (accVal s d) (accVal s d.other) s (exec (.sub d) s) ∧
    (∀ r : AxReg, Subtracts d (accVal s d) (hi (axWord s r)) s (exec (.subr d r) s)) ∧
    (∀ x : AxId, Subtracts d (accVal s d) (axVal s x) s (exec (.subax d x) s)) ∧
    Subtracts d (accVal s d) (prodVal s) s (exec (.subp d) s) ∧
    Subtracts d (accVal s d) 1 s (exec (.dec d) s) ∧ Subtracts d (accVal s d) 0x10000 s (exec (.decm d) s) ∧
    Subtracts d 0 (accVal s d) s (exec (.neg d) s)

/-- CMP and CMPI set the flags of a subtraction, TST, TSTAXH and TSTPROD those of a value, and none of them writes
anything but SR (R150 to R153, 42_alu_multiply.md R226). -/
def Obligations.ComparesAndTestsSetFlagsOnly : Prop :=
  ∀ s : State,
    Compares (accVal s .ac0) (accVal s .ac1) s (exec .cmp s) ∧
    (∀ (d : AccId) (imm : BitVec 16), Compares (accVal s d) (hi imm) s (exec (.cmpi d imm) s)) ∧
    (∀ d : AccId, ∃ t, exec (.tst d) s = .next t ∧ Flags40 s.alu.sr t.alu.sr (s.acc d) False False ∧ OnlySr s t) ∧
    (∀ x : AxId, ∃ t, exec (.tstaxh x) s = .next t ∧ Flags16 s.alu.sr t.alu.sr (axH s x) False ∧ OnlySr s t) ∧
    ∃ t p, exec .tstprod s = .next t ∧ BitVec.toInt p = prodVal s ∧ Flags40 s.alu.sr t.alu.sr p False False ∧ OnlySr s t

/-- CLR, MOV, MOVR, MOVAX, MOVP, MOVNP and ABS (R132, R133, R149, R154 to R158). -/
def Obligations.MovesWriteAccumulator : Prop :=
  ∀ (s : State) (d : AccId),
    Moves d 0 s (exec (.clr d) s) ∧ Moves d (accVal s d.other) s (exec (.mov d) s) ∧
    (∀ r : AxReg, Moves d (hi (axWord s r)) s (exec (.movr d r) s)) ∧
    (∀ x : AxId, Moves d (axVal s x) s (exec (.movax d x) s)) ∧
    Moves d (prodVal s) s (exec (.movp d) s) ∧ Moves d (-prodVal s) s (exec (.movnp d) s) ∧
    Moves d (if accVal s d < 0 then -accVal s d else accVal s d) s (exec (.abs d) s)

/-- R131: a sum that fits in 40 bits is exact, with AS set exactly when it does not fit in 32; and the same operands
give the same accumulators and flags under both settings of SXM. -/
def Obligations.WideResultsExact : Prop :=
  (∀ (s : State) (d : AccId), ¬Outside40 (accVal s d + accVal s d.other) →
    ∃ t, exec (.add d) s = .next t ∧ accVal t d = accVal s d + accVal s d.other ∧
      (t.alu.sr.getLsbD 4 = true ↔ ¬Fits32 (accVal s d + accVal s d.other))) ∧
  ∀ (s : State) (b : Bool) (i : Instr), i ∈ additive →
    ∃ t u, exec i s = .next t ∧ exec i (s.putFlag .sxm b) = .next u ∧ u.alu.ac0 = t.alu.ac0 ∧ u.alu.ac1 = t.alu.ac1 ∧
      ∀ n, n < 8 → u.alu.sr.getLsbD n = t.alu.sr.getLsbD n

/-! ### Logic, bit tests and shifts (41_alu_logic_shift.md) -/

/-- The ten logic commands write the middle slice alone and set flags16 (R180, R182 to R191). -/
def Obligations.LogicWritesMiddleSlice : Prop :=
  ∀ (s : State) (d : AccId),
    (∀ x : AxId, Logics d (accMid s d &&& axH s x) s (exec (.andr d x) s) ∧
      Logics d (accMid s d ||| axH s x) s (exec (.orr d x) s) ∧
      Logics d (accMid s d ^^^ axH s x) s (exec (.xorr d x) s)) ∧
    Logics d (accMid s d &&& accMid s d.other) s (exec (.andc d) s) ∧
    Logics d (accMid s d ||| accMid s d.other) s (exec (.orc d) s) ∧
    Logics d (accMid s d ^^^ accMid s d.other) s (exec (.xorc d) s) ∧
    (∀ imm : BitVec 16, Logics d (accMid s d &&& imm) s (exec (.andi d imm) s) ∧
      Logics d (accMid s d ||| imm) s (exec (.ori d imm) s) ∧ Logics d (accMid s d ^^^ imm) s (exec (.xori d imm) s)) ∧
    Logics d (accMid s d ^^^ 0xFFFF) s (exec (.not d) s)

/-- ANDF and ANDCF write LZ and nothing else (R192, R193). -/
def Obligations.BitTestsSetLzOnly : Prop :=
  ∀ (s : State) (d : AccId) (imm : BitVec 16),
    (∃ z : Bool, (z = true ↔ ∀ k, imm.getLsbD k = true → (accMid s d).getLsbD k = false) ∧
      SetsBit 6 z s (exec (.andf d imm) s)) ∧
    ∃ z : Bool, (z = true ↔ ∀ k, imm.getLsbD k = true → (accMid s d).getLsbD k = true) ∧
      SetsBit 6 z s (exec (.andcf d imm) s)

/-- The seven shifts act on the whole accumulator and set flags40 with C = O = 0 (R181, R194 to R200). -/
def Obligations.ShiftsMoveWholeAccumulator : Prop :=
  ∀ (s : State) (d : AccId),
    (∀ n : BitVec 6, Moves d (u40 (accVal s d) * 2 ^ n.toNat) s (exec (.lsl d n) s) ∧
      Moves d (u40 (accVal s d) / 2 ^ n.toNat) s (exec (.lsr d n) s) ∧
      Moves d (u40 (accVal s d) * 2 ^ n.toNat) s (exec (.asl d n) s) ∧
      Moves d (accVal s d / 2 ^ n.toNat) s (exec (.asr d n) s)) ∧
    Moves d (u40 (accVal s d) * 2 ^ 16) s (exec (.lsl16 d) s) ∧
    Moves d (u40 (accVal s d) / 2 ^ 16) s (exec (.lsr16 d) s) ∧ Moves d (accVal s d / 2 ^ 16) s (exec (.asr16 d) s)

/-! ### Multiply commands (42_alu_multiply.md) -/

/-- MUL, MULX, MULC and the six accumulating forms store a product value and write no SR bit (R210 to R216, R219 to R224,
10_state.md R28). -/
def Obligations.ProductsStored : Prop :=
  ∀ s : State,
    (∀ x : AxId, StoresProd (mulAx s x) s (exec (.mul x) s) ∧ StoresProd (prodVal s + mulAx s x) s (exec (.madd x) s) ∧
      StoresProd (prodVal s - mulAx s x) s (exec (.msub x) s)) ∧
    (∀ h0 h1 : AxHalf, StoresProd (mulHalves s h0 h1) s (exec (.mulx h0 h1) s) ∧
      StoresProd (prodVal s + mulHalves s h0 h1) s (exec (.maddx h0 h1) s) ∧
      StoresProd (prodVal s - mulHalves s h0 h1) s (exec (.msubx h0 h1) s)) ∧
    ∀ (d : AccId) (x : AxId), StoresProd (mulAcc s d x) s (exec (.mulc d x) s) ∧
      StoresProd (prodVal s + mulAcc s d x) s (exec (.maddc d x) s) ∧
      StoresProd (prodVal s - mulAcc s d x) s (exec (.msubc d x) s)

/-- MULAC adds and MULMV moves the old product into the accumulator, with its flags, while the new product is stored
(R212, R217, R218). -/
def Obligations.MulacMulmvUseOldProduct : Prop :=
  ∀ (s : State) (d : AccId) (x : AxId),
    (∃ t, exec (.mulac d x) s = .next t ∧ accVal t d = wrap (accVal s d + prodVal s) ∧ prodVal t = wrap (mulAx s x) ∧
      t.alu.prod.m2 = 0 ∧ Flags40 s.alu.sr t.alu.sr (t.acc d) False False ∧ t.acc d.other = s.acc d.other ∧
      t.alu.ax0 = s.alu.ax0 ∧ t.alu.ax1 = s.alu.ax1 ∧ t = { s with alu := t.alu } ∧ SameBytes s t) ∧
    ∃ t, exec (.mulmv d x) s = .next t ∧ accVal t d = prodVal s ∧ prodVal t = wrap (mulAx s x) ∧
      t.alu.prod.m2 = 0 ∧ Flags40 s.alu.sr t.alu.sr (t.acc d) False False ∧ t.acc d.other = s.acc d.other ∧
      t.alu.ax0 = s.alu.ax0 ∧ t.alu.ax1 = s.alu.ax1 ∧ t = { s with alu := t.alu } ∧ SameBytes s t

/-- CLRP writes the parameter `clrpSlices`, whose default stands for the product 0 (R225). -/
def Obligations.ClrpWritesItsSlices : Prop :=
  ∀ s : State, ∃ t, exec .clrp s = .next t ∧ t.alu.prod.l = s.cfg.clrpSlices.1 ∧ t.alu.prod.m1 = s.cfg.clrpSlices.2.1 ∧
    t.alu.prod.h.toNat = s.cfg.clrpSlices.2.2.1.toNat % 2 ^ 8 ∧ t.alu.prod.m2 = s.cfg.clrpSlices.2.2.2 ∧
    (s.cfg.clrpSlices = (0x0000, 0xFFF0, 0x00FF, 0x0010) → prodVal t = 0) ∧ OnlyProd s t

/-! ### Modes and registers (43_alu_regs_modes.md) -/

/-- SET15, CLR15, SET40, CLR40, M2 and M0 write one bit of SR and nothing else (R240 to R244). -/
def Obligations.ModeCommandsSetOneBit : Prop :=
  ∀ s : State,
    SetsBit 15 true s (exec .set15 s) ∧ SetsBit 15 false s (exec .clr15 s) ∧ SetsBit 14 true s (exec .set40 s) ∧
    SetsBit 14 false s (exec .clr40 s) ∧ SetsBit 13 false s (exec .m2 s) ∧ SetsBit 13 true s (exec .m0 s)

/-- RREG returns the register's value, the saturated middle slice under SXM = 1, and writes nothing (R246). -/
def Obligations.RregReturnsRegister : Prop :=
  ∀ s : State,
    (∀ d : AccId,
      Returns .dsp (BitVec.ofInt 16 (accVal s d)) s (exec (.rreg (.acL d)) s) ∧
      Returns .dsp
        (if s.alu.sr.getLsbD 14 = true ∧ ¬Fits32 (accVal s d) then (if 0 < accVal s d then 0x7FFF else 0x8000)
          else BitVec.ofInt 16 (accVal s d / 2 ^ 16)) s (exec (.rreg (.acM d)) s) ∧
      Returns .dsp (BitVec.ofInt 16 (accVal s d / 2 ^ 32)) s (exec (.rreg (.acH d)) s)) ∧
    (∀ x : AxId, Returns .dsp (axL s x) s (exec (.rreg (.axL x)) s) ∧ Returns .dsp (axH s x) s (exec (.rreg (.axH x)) s)) ∧
    Returns .dsp s.alu.prod.l s (exec (.rreg .prodL) s) ∧ Returns .dsp s.alu.prod.m1 s (exec (.rreg .prodM1) s) ∧
    Returns .dsp (BitVec.ofInt 16 s.alu.prod.h.toInt) s (exec (.rreg .prodH) s) ∧
    Returns .dsp s.alu.prod.m2 s (exec (.rreg .prodM2) s) ∧ Returns .dsp s.alu.sr s (exec (.rreg .sr) s)

/-- WREG of an accumulator slice: the two other slices stay, but under SXM = 1 a write of acD.m makes the accumulator
`sext_16(v) * 2^16`; no SR bit is written (R245). -/
def Obligations.WregWritesAccumulator : Prop :=
  ∀ (s : State) (d : AccId) (v : BitVec 16),
    (∃ t, exec (.wreg (.acL d) v) s = .next t ∧ accVal t d = wrap (accVal s d / 2 ^ 16 * 2 ^ 16 + v.toNat) ∧
      t.alu.sr = s.alu.sr ∧ OnlyAccSr d s t) ∧
    (∃ t, exec (.wreg (.acM d) v) s = .next t ∧
      (if s.alu.sr.getLsbD 14 = true then accVal t d = v.toInt * 2 ^ 16
        else accMid t d = v ∧ (t.acc d).extractLsb' 0 16 = (s.acc d).extractLsb' 0 16 ∧
          (t.acc d).extractLsb' 32 8 = (s.acc d).extractLsb' 32 8) ∧
      t.alu.sr = s.alu.sr ∧ OnlyAccSr d s t) ∧
    ∃ t, exec (.wreg (.acH d) v) s = .next t ∧ (t.acc d).extractLsb' 32 8 = BitVec.ofNat 8 v.toNat ∧
      (t.acc d).extractLsb' 0 32 = (s.acc d).extractLsb' 0 32 ∧ t.alu.sr = s.alu.sr ∧ OnlyAccSr d s t

/-- WREG of every other register: the 16 bits (of prod.h the low 8), and SR whole (R245, 10_state.md R31). -/
def Obligations.WregWritesOtherRegisters : Prop :=
  ∀ (s : State) (v : BitVec 16),
    (∃ t, exec (.wreg (.axL .ax0) v) s = .next t ∧ axL t .ax0 = v ∧ axH t .ax0 = axH s .ax0 ∧
      t = { s with alu := { s.alu with ax0 := t.alu.ax0 } } ∧ SameBytes s t) ∧
    (∃ t, exec (.wreg (.axL .ax1) v) s = .next t ∧ axL t .ax1 = v ∧ axH t .ax1 = axH s .ax1 ∧
      t = { s with alu := { s.alu with ax1 := t.alu.ax1 } } ∧ SameBytes s t) ∧
    (∃ t, exec (.wreg (.axH .ax0) v) s = .next t ∧ axH t .ax0 = v ∧ axL t .ax0 = axL s .ax0 ∧
      t = { s with alu := { s.alu with ax0 := t.alu.ax0 } } ∧ SameBytes s t) ∧
    (∃ t, exec (.wreg (.axH .ax1) v) s = .next t ∧ axH t .ax1 = v ∧ axL t .ax1 = axL s .ax1 ∧
      t = { s with alu := { s.alu with ax1 := t.alu.ax1 } } ∧ SameBytes s t) ∧
    (∃ t, exec (.wreg .prodL v) s = .next t ∧ t.alu.prod = { s.alu.prod with l := v } ∧ OnlyProd s t) ∧
    (∃ t, exec (.wreg .prodM1 v) s = .next t ∧ t.alu.prod = { s.alu.prod with m1 := v } ∧ OnlyProd s t) ∧
    (∃ t, exec (.wreg .prodM2 v) s = .next t ∧ t.alu.prod = { s.alu.prod with m2 := v } ∧ OnlyProd s t) ∧
    (∃ t, exec (.wreg .prodH v) s = .next t ∧ t.alu.prod = { s.alu.prod with h := BitVec.ofNat 8 v.toNat } ∧
      OnlyProd s t) ∧
    ∃ t, exec (.wreg .sr v) s = .next t ∧ t.alu.sr = v ∧ OnlySr s t

/-- R35: no ALU command but the six mode commands and a write of the whole SR changes SR bits 15:8. -/
def Obligations.AluKeepsControlBits : Prop :=
  ∀ (m : IfxMap) (s t : State) (w : Word) (v : BitVec 16) (i : Instr), decode m w v = some i → w.toNat / 2 ^ 24 ≠ 0 →
    i ∉ [Instr.set15, .clr15, .set40, .clr40, .m2, .m0] → (∀ u, i ≠ .wreg .sr u) → exec i s = .next t →
    ∀ n, 8 ≤ n → t.alu.sr.getLsbD n = s.alu.sr.getLsbD n

/-- The sixteen condition codes (10_state.md R36; the table is the spec's own choice). -/
def Obligations.ConditionCodes : Prop :=
  ∀ (sr : BitVec 16) (c o z s as32 tt lz : Bool),
    sr.getLsbD 0 = c → sr.getLsbD 1 = o → sr.getLsbD 2 = z → sr.getLsbD 3 = s → sr.getLsbD 4 = as32 →
    sr.getLsbD 5 = tt → sr.getLsbD 6 = lz →
    (condHolds 0x0 sr = true ↔ s = o) ∧ (condHolds 0x1 sr = true ↔ s ≠ o) ∧
    (condHolds 0x2 sr = true ↔ s = o ∧ z = false) ∧ (condHolds 0x3 sr = true ↔ s ≠ o ∨ z = true) ∧
    (condHolds 0x4 sr = true ↔ z = false) ∧ (condHolds 0x5 sr = true ↔ z = true) ∧
    (condHolds 0x6 sr = true ↔ c = false) ∧ (condHolds 0x7 sr = true ↔ c = true) ∧
    (condHolds 0x8 sr = true ↔ as32 = false) ∧ (condHolds 0x9 sr = true ↔ as32 = true) ∧
    (condHolds 0xA sr = true ↔ (as32 = true ∨ tt = true) ∧ z = false) ∧
    (condHolds 0xB sr = true ↔ ¬((as32 = true ∨ tt = true) ∧ z = false)) ∧
    (condHolds 0xC sr = true ↔ lz = false) ∧ (condHolds 0xD sr = true ↔ lz = true) ∧
    (condHolds 0xE sr = true ↔ o = true) ∧ condHolds 0xF sr = true

/-! ### Mailboxes (44_mailbox.md) -/

/-- The sender's writes of the high and the low word, for both mailboxes (R272, R273). -/
def Obligations.SenderWritesMailbox : Prop :=
  ∀ (s : State) (v : BitVec 16),
    SendsHigh .cmb v s (exec (.wrHCmbh v) s) ∧ SendsHigh .dmb v s (exec (.wrDDmbh v) s) ∧
    SendsLow .cmb v s (exec (.wrHCmbl v) s) ∧ SendsLow .dmb v s (exec (.wrDDmbl v) s)

/-- The receiver's read of the low word frees the slot (R274); either side's read of the high word and the sender's read
of the low word change nothing (R275, R276). -/
def Obligations.MailboxReads : Prop :=
  ∀ s : State,
    ReceivesLow .dsp .cmb s (exec .rdDCmbl s) ∧ ReceivesLow .host .dmb s (exec .rdHDmbl s) ∧
    Returns .host (BitVec.ofNat 16 (highWord s.cmb)) s (exec .rdHCmbh s) ∧
    Returns .dsp (BitVec.ofNat 16 (highWord s.cmb)) s (exec .rdDCmbh s) ∧
    Returns .host (BitVec.ofNat 16 (highWord s.dmb)) s (exec .rdHDmbh s) ∧
    Returns .dsp (BitVec.ofNat 16 (highWord s.dmb)) s (exec .rdDDmbh s) ∧
    Returns .host s.cmb.lo s (exec .rdHCmbl s) ∧ Returns .dsp s.dmb.lo s (exec .rdDDmbl s)

/-- R281: high written, low written, high read, low read by the receiver, in that order, from any state. -/
def Obligations.MailboxRoundTrip : Prop :=
  ∀ (s : State) (h l : BitVec 16),
    (∃ a b c e, exec (.wrHCmbh h) s = .next a ∧ exec (.wrHCmbl l) a = .next b ∧ exec .rdDCmbh b = .next c ∧
      exec .rdDCmbl c = .next e ∧ c.coreData.toNat = 0x8000 + h.toNat % 2 ^ 15 ∧ e.coreData = l ∧ e.cmb.ready = false) ∧
    ∃ a b c e, exec (.wrDDmbh h) s = .next a ∧ exec (.wrDDmbl l) a = .next b ∧ exec .rdHDmbh b = .next c ∧
      exec .rdHDmbl c = .next e ∧ c.hostData.toNat = 0x8000 + h.toNat % 2 ^ 15 ∧ e.hostData = l ∧ e.dmb.ready = false

/-- DIRQ, at 0xFFFB in the default register map: a DSP write raises one host interrupt request when bit 0 is set and does
nothing else (R282); a DSP read returns 0, is reported and changes nothing else; a host access is a fault (R283). That bit 0
is the request bit is the spec's own reading (R282: "its position, polarity and acknowledgement are not in the source"). -/
def Obligations.DirqRegister : Prop :=
  IfxMap.standard.addr .dirq = 0xFFFB ∧ ∀ (s : State) (v : BitVec 16),
    (∃ t, exec (.wrDDirq v) s = .next t ∧ t.hostIrqCount = s.hostIrqCount + v.toNat % 2 ∧
      t = { s with hostIrqCount := t.hostIrqCount } ∧ SameBytes s t) ∧
    (∃ t, exec .rdDDirq s = .next t ∧ t.coreData = 0 ∧ t.log = s.log ++ [.writeOnlyRead (s.cfg.ifxMap.addr .dirq)] ∧
      t = { s with coreData := t.coreData, log := t.log } ∧ SameBytes s t) ∧
    Faults (.accessDenied .host (s.cfg.ifxMap.addr .dirq) .read) s (exec .rdHDirq s) ∧
    Faults (.accessDenied .host (s.cfg.ifxMap.addr .dirq) .write) s (exec (.wrHDirq v) s)

/-- R342: a host access to any accelerator register and a DSP write of ACDAT are faults; a DSP read of ACDAT1 returns 0, is
reported and changes nothing else. The addresses R342 writes are those of the default register map, the parameter's default;
the statement holds for every map. -/
def Obligations.AcceleratorAccessRules : Prop :=
  IfxMap.standard.addr .acdat1 = 0xFFD3 ∧ IfxMap.standard.addr .acdat = 0xFFDD ∧ ∀ (s : State) (v : BitVec 16),
    let denied (r : IfxReg) (w : Dir) : Result → Prop := Faults (.accessDenied .host (s.cfg.ifxMap.addr r) w) s
    (∀ i : BitVec 4, denied (.coef i) .read (exec (.rdHCoef i) s) ∧ denied (.coef i) .write (exec (.wrHCoef i v) s)) ∧
    denied .fmt .read (exec .rdHFmt s) ∧ denied .fmt .write (exec (.wrHFmt v) s) ∧
    denied .acdat1 .read (exec .rdHAcdat1 s) ∧ denied .acdat1 .write (exec (.wrHAcdat1 v) s) ∧
    denied .acsah .read (exec .rdHAcsah s) ∧ denied .acsah .write (exec (.wrHAcsah v) s) ∧
    denied .acsal .read (exec .rdHAcsal s) ∧ denied .acsal .write (exec (.wrHAcsal v) s) ∧
    denied .aceah .read (exec .rdHAceah s) ∧ denied .aceah .write (exec (.wrHAceah v) s) ∧
    denied .aceal .read (exec .rdHAceal s) ∧ denied .aceal .write (exec (.wrHAceal v) s) ∧
    denied .accah .read (exec .rdHAccah s) ∧ denied .accah .write (exec (.wrHAccah v) s) ∧
    denied .accal .read (exec .rdHAccal s) ∧ denied .accal .write (exec (.wrHAccal v) s) ∧
    denied .ps .read (exec .rdHPs s) ∧ denied .ps .write (exec (.wrHPs v) s) ∧
    denied .yn1 .read (exec .rdHYn1 s) ∧ denied .yn1 .write (exec (.wrHYn1 v) s) ∧
    denied .yn2 .read (exec .rdHYn2 s) ∧ denied .yn2 .write (exec (.wrHYn2 v) s) ∧
    denied .acdat .read (exec .rdHAcdat s) ∧ denied .acdat .write (exec (.wrHAcdat v) s) ∧
    denied .gain .read (exec .rdHGain s) ∧ denied .gain .write (exec (.wrHGain v) s) ∧
    Faults (.accessDenied .dsp (s.cfg.ifxMap.addr .acdat) .write) s (exec (.wrDAcdat v) s) ∧
    ∃ t, exec .rdDAcdat1 s = .next t ∧ t.coreData = 0 ∧
      t.log = s.log ++ [.writeOnlyRead (s.cfg.ifxMap.addr .acdat1)] ∧
      t = { s with coreData := t.coreData, log := t.log } ∧ SameBytes s t

/-- R277: a host write of DMBH or DMBL and a DSP write of CMBH or CMBL are faults that change no mailbox; R105: so is every
other access marked F in the register map (`txnInstr` names the constructor of a port, a direction and a register). R105:
the source states the host's write of its read-only mailbox, "the others are the spec's choice". The address a fault names
is the register's in the parameter `ifxMap`. -/
def Obligations.DeniedAccessesFault : Prop :=
  ∀ (s : State) (v : BitVec 16),
    Faults (.accessDenied .host (s.cfg.ifxMap.addr .dmbh) .write) s (exec (.wrHDmbh v) s) ∧
    Faults (.accessDenied .host (s.cfg.ifxMap.addr .dmbl) .write) s (exec (.wrHDmbl v) s) ∧
    Faults (.accessDenied .dsp (s.cfg.ifxMap.addr .cmbh) .write) s (exec (.wrDCmbh v) s) ∧
    Faults (.accessDenied .dsp (s.cfg.ifxMap.addr .cmbl) .write) s (exec (.wrDCmbl v) s) ∧
    ∀ (p : Port) (w : Dir) (r : IfxReg), Denied p w r = true →
      Faults (.accessDenied p (s.cfg.ifxMap.addr r) w) s (exec (txnInstr p w r v) s)

/-- R104: an address of the register block outside the map: a known unknown is reported, reads as 0 and ignores a write;
every other address is a fault; and by default no address is a known unknown. -/
def Obligations.UnknownAddresses : Prop :=
  State.reset.cfg.knownUnknown = [] ∧
    ∀ (s : State) (lo : BitVec 8) (v : BitVec 16), s.cfg.ifxMap.regAt (blockAddr lo) = none →
    if blockAddr lo ∈ s.cfg.knownUnknown then
      (∃ t, exec (.unknownD .read lo 0) s = .next t ∧ t.coreData = 0 ∧ t.log = s.log ++ [.knownUnknown (blockAddr lo)] ∧
        t = { s with coreData := t.coreData, log := t.log } ∧ SameBytes s t) ∧
      (∃ t, exec (.unknownH .read lo 0) s = .next t ∧ t.hostData = 0 ∧ t.log = s.log ++ [.knownUnknown (blockAddr lo)] ∧
        t = { s with hostData := t.hostData, log := t.log } ∧ SameBytes s t) ∧
      (∃ t, exec (.unknownD .write lo v) s = .next t ∧ t.log = s.log ++ [.knownUnknown (blockAddr lo)] ∧
        t = { s with log := t.log } ∧ SameBytes s t) ∧
      ∃ t, exec (.unknownH .write lo v) s = .next t ∧ t.log = s.log ++ [.knownUnknown (blockAddr lo)] ∧
        t = { s with log := t.log } ∧ SameBytes s t
    else
      Faults (.unknownRegister (blockAddr lo)) s (exec (.unknownD .read lo 0) s) ∧
      Faults (.unknownRegister (blockAddr lo)) s (exec (.unknownH .read lo 0) s) ∧
      Faults (.unknownRegister (blockAddr lo)) s (exec (.unknownD .write lo v) s) ∧
      Faults (.unknownRegister (blockAddr lo)) s (exec (.unknownH .write lo v) s)

/-! ### DMA (45_dma.md) -/

/-- The descriptor writes, by either port: the named field only (R300, 20_memory.md R83). -/
def Obligations.DmaDescriptorWrites : Prop :=
  ∀ (s : State) (v : BitVec 16),
    SetsDma { s.dma with ctl := v } s (exec (.wrDDscr v) s) ∧ SetsDma { s.dma with ctl := v } s (exec (.wrHDscr v) s) ∧
    SetsDma { s.dma with dspaddr := v } s (exec (.wrDDspa v) s) ∧
    SetsDma { s.dma with dspaddr := v } s (exec (.wrHDspa v) s) ∧
    SetsDma { s.dma with mmaddr := withHigh s.dma.mmaddr v } s (exec (.wrDDsmah v) s) ∧
    SetsDma { s.dma with mmaddr := withHigh s.dma.mmaddr v } s (exec (.wrHDsmah v) s) ∧
    SetsDma { s.dma with mmaddr := withLow s.dma.mmaddr v } s (exec (.wrDDsmal v) s) ∧
    SetsDma { s.dma with mmaddr := withLow s.dma.mmaddr v } s (exec (.wrHDsmal v) s)

/-- The descriptor reads, by either port; DSCR reads with bit 2 clear (R301). -/
def Obligations.DmaDescriptorReads : Prop :=
  ∀ s : State,
    (∀ c : BitVec 16, (∀ k, c.getLsbD k = (s.dma.ctl.getLsbD k && decide (k ≠ 2))) →
      Returns .dsp c s (exec .rdDDscr s) ∧ Returns .host c s (exec .rdHDscr s)) ∧
    Returns .dsp s.dma.len s (exec .rdDDsbl s) ∧ Returns .host s.dma.len s (exec .rdHDsbl s) ∧
    Returns .dsp s.dma.dspaddr s (exec .rdDDspa s) ∧ Returns .host s.dma.dspaddr s (exec .rdHDspa s) ∧
    Returns .dsp (highOf s.dma.mmaddr) s (exec .rdDDsmah s) ∧ Returns .host (highOf s.dma.mmaddr) s (exec .rdHDsmah s) ∧
    Returns .dsp (lowOf s.dma.mmaddr) s (exec .rdDDsmal s) ∧ Returns .host (lowOf s.dma.mmaddr) s (exec .rdHDsmal s)

/-- A write of DSBL that copies into DSP memory, by either port, from every state whose memories are in canonical form
(`DmaLengthOk` and `RamAddr` are the conditions of R305): the slots, the kept descriptor, the frame (R304 to R307). A copy of
length 0, at whatever aligned mmaddr, stores the length and copies nothing: of R305's two statements on a length of 0 beyond
main memory the corner cases are taken (log 14). -/
def Obligations.DmaCopyIn : Prop :=
  ∀ (s : State) (v : BitVec 16), s.memWf = true → s.dma.ctl.getLsbD 0 = false → DmaLengthOk s v →
    (∀ k, k < v.toNat / 2 → RamAddr (s.dma.dspaddr.toNat + k)) →
    CopiesIn v s (exec (.wrDDsbl v) s) ∧ CopiesIn v s (exec (.wrHDsbl v) s)

/-- A write of DSBL that copies out of DSP memory, RAM or ROM (R304 to R307); of length 0, at whatever aligned mmaddr, it
stores the length and copies nothing (log 14). -/
def Obligations.DmaCopyOut : Prop :=
  ∀ (s : State) (v : BitVec 16), s.memWf = true → s.dma.ctl.getLsbD 0 = true → DmaLengthOk s v →
    (∀ k, k < v.toNat / 2 → ReadableAddr (s.dma.ctl.getLsbD 1) (s.dma.dspaddr.toNat + k)) →
    CopiesOut v s (exec (.wrDDsbl v) s) ∧ CopiesOut v s (exec (.wrHDsbl v) s)

/-- The checks of R305 in their order, each a fault that writes nothing, not even the length register. That a copy of
length 0 passes the range check is the model's reading of the rule's corner cases (log 14). -/
def Obligations.DmaChecksFault : Prop :=
  ∀ (s : State) (v : BitVec 16) (r : Result), r = exec (.wrDDsbl v) s ∨ r = exec (.wrHDsbl v) s →
    if v.toNat % 2 = 1 then Faults (.dmaOddLength v) s r
    else if s.dma.mmaddr.toNat % s.cfg.dmaMainAlign ≠ 0 then Faults (.dmaMisaligned s.dma.mmaddr) s r
    else if v.toNat ≠ 0 ∧ s.cfg.mainMemSize < s.dma.mmaddr.toNat + v.toNat then
      Faults (.mainOutOfRange s.dma.mmaddr.toNat v.toNat) s r
    else ∀ k, k < v.toNat / 2 → ¬DmaAddr s (s.dma.dspaddr.toNat + k) →
      (∀ j, j < k → DmaAddr s (s.dma.dspaddr.toNat + j)) → Faults (.badDspAddress (s.dma.dspaddr.toNat + k)) s r

/-- R309: a copy of S bytes from A to instruction memory at D, read back through the instruction space, is byte for byte
the S bytes at A. -/
def Obligations.DmaRoundTrip : Prop :=
  ∀ (s : State) (v : BitVec 16), s.memWf = true → s.dma.ctl = 0x0002 → DmaLengthOk s v →
    s.dma.mmaddr.toNat + v.toNat ≤ s.cfg.mainMemSize → s.dma.dspaddr.toNat + v.toNat / 2 ≤ 0x1000 →
    ∃ t, exec (.wrHDsbl v) s = .next t ∧ ∀ k, k < v.toNat / 2 →
      ∃ w, t.fetchSlot (s.dma.dspaddr + BitVec.ofNat 16 k) = .ok w ∧
        w.toNat = (mainAt s (s.dma.mmaddr.toNat + 2 * k)).toNat * 256 + (mainAt s (s.dma.mmaddr.toNat + 2 * k + 1)).toNat

/-! ### The accelerator (46_accelerator.md) -/

/-- The descriptor writes: the named field only (R330). -/
def Obligations.AccelDescriptorWrites : Prop :=
  ∀ (s : State) (v : BitVec 16),
    (∀ i : BitVec 4, ∃ t, exec (.wrDCoef i v) s = .next t ∧ t.accel = { s.accel with coef := t.accel.coef } ∧
      (∀ j : BitVec 4, t.accel.coefAt j = if j = i then v else s.accel.coefAt j) ∧ OnlyAccel s t) ∧
    SetsAccel { s.accel with fmt := v } s (exec (.wrDFmt v) s) ∧
    SetsAccel { s.accel with startAddr := withHigh s.accel.startAddr v } s (exec (.wrDAcsah v) s) ∧
    SetsAccel { s.accel with startAddr := withLow s.accel.startAddr v } s (exec (.wrDAcsal v) s) ∧
    SetsAccel { s.accel with endAddr := withHigh s.accel.endAddr v } s (exec (.wrDAceah v) s) ∧
    SetsAccel { s.accel with endAddr := withLow s.accel.endAddr v } s (exec (.wrDAceal v) s) ∧
    SetsAccel { s.accel with cur := withHigh s.accel.cur v } s (exec (.wrDAccah v) s) ∧
    SetsAccel { s.accel with cur := withLow s.accel.cur v } s (exec (.wrDAccal v) s) ∧
    SetsAccel { s.accel with ps := v } s (exec (.wrDPs v) s) ∧ SetsAccel { s.accel with yn1 := v } s (exec (.wrDYn1 v) s) ∧
    SetsAccel { s.accel with yn2 := v } s (exec (.wrDYn2 v) s) ∧ SetsAccel { s.accel with gain := v } s (exec (.wrDGain v) s)

/-- The descriptor reads return the stored fields (R332). -/
def Obligations.AccelDescriptorReads : Prop :=
  ∀ s : State,
    (∀ i : BitVec 4, Returns .dsp (s.accel.coefAt i) s (exec (.rdDCoef i) s)) ∧
    Returns .dsp s.accel.fmt s (exec .rdDFmt s) ∧
    Returns .dsp (highOf s.accel.startAddr) s (exec .rdDAcsah s) ∧
    Returns .dsp (lowOf s.accel.startAddr) s (exec .rdDAcsal s) ∧
    Returns .dsp (highOf s.accel.endAddr) s (exec .rdDAceah s) ∧ Returns .dsp (lowOf s.accel.endAddr) s (exec .rdDAceal s) ∧
    Returns .dsp (highOf s.accel.cur) s (exec .rdDAccah s) ∧ Returns .dsp (lowOf s.accel.cur) s (exec .rdDAccal s) ∧
    Returns .dsp s.accel.ps s (exec .rdDPs s) ∧ Returns .dsp s.accel.yn1 s (exec .rdDYn1 s) ∧
    Returns .dsp s.accel.yn2 s (exec .rdDYn2 s) ∧ Returns .dsp s.accel.gain s (exec .rdDGain s)

/-- A read of ACDAT in the two raw and the two PCM formats, PCM with the default kernel (R334 to R336). The byte address
2 * cur of a 16-bit sample is taken modulo 2^32 (R333; log 15). -/
def Obligations.FetchRawAndPcm : Prop :=
  ∀ s : State, CodesDistinct s.cfg.fmtCode →
    (s.accel.fmt = codeOf s.cfg.fmtCode .raw8 → s.accel.cur.toNat + 1 ≤ s.cfg.mainMemSize →
      Streams (fun v => v.toNat = (mainAt s s.accel.cur.toNat).toNat) s (exec .rdDAcdat s)) ∧
    (s.accel.fmt = codeOf s.cfg.fmtCode .raw16 → pairAddr s + 2 ≤ s.cfg.mainMemSize →
      Streams (fun v => v = mainPair s (pairAddr s)) s (exec .rdDAcdat s)) ∧
    (s.accel.fmt = codeOf s.cfg.fmtCode .pcm8 → s.accel.cur.toNat + 1 ≤ s.cfg.mainMemSize →
      s.cfg.pcmScale = .standard →
      Streams (fun v => v.toInt = pcmValue ((mainAt s s.accel.cur.toNat).toInt * 256) s.accel.gain) s (exec .rdDAcdat s)) ∧
    (s.accel.fmt = codeOf s.cfg.fmtCode .pcm16 → pairAddr s + 2 ≤ s.cfg.mainMemSize → s.cfg.pcmScale = .standard →
      Streams (fun v => v.toInt = pcmValue (mainPair s (pairAddr s)).toInt s.accel.gain) s (exec .rdDAcdat s))

/-- A read of ACDAT in the ADPCM format with the default kernel: the frame header, the sample, the history, the stream
(R334, R337, R338). -/
def Obligations.FetchAdpcm : Prop :=
  ∀ s : State, CodesDistinct s.cfg.fmtCode → s.accel.fmt = codeOf s.cfg.fmtCode .adpcm4 →
    s.cfg.adpcmDecode = .standard → s.accel.cur.toNat / 2 + 1 ≤ s.cfg.mainMemSize →
    (nibbleAddr s).toNat / 2 + 1 ≤ s.cfg.mainMemSize →
    ∃ t, exec .rdDAcdat s = .next t ∧ t.coreData.toInt = adpcmValue s ∧ t.accel.yn1 = t.coreData ∧
      t.accel.yn2 = s.accel.yn1 ∧ t.accel.ps = psAt s ∧ StreamAfter s t s.accel.cur (nibbleAddr s) s.cfg.excId.adpcmOvf ∧
      OnlyAdpcm s t

/-- A write of ACDAT1 in the 8-bit and the 16-bit formats (R341). That there is such a write, and what it does, is the spec's
own: R341, "The source names the "RAW write overflow" only; the write register and its behaviour are the spec's choice". The
byte address 2 * cur of a 16-bit sample is taken modulo 2^32 (R333; log 15, DEDUCED). -/
def Obligations.RawWriteStoresSample : Prop :=
  ∀ (s : State) (v : BitVec 16), s.memWf = true → CodesDistinct s.cfg.fmtCode →
    (s.accel.fmt = codeOf s.cfg.fmtCode .raw8 ∨ s.accel.fmt = codeOf s.cfg.fmtCode .pcm8 →
      s.accel.cur.toNat + 1 ≤ s.cfg.mainMemSize →
      StoresSample s.accel.cur.toNat 1 (fun t => (mainAt t s.accel.cur.toNat).toNat = v.toNat % 2 ^ 8) s
        (exec (.wrDAcdat1 v) s)) ∧
    (s.accel.fmt = codeOf s.cfg.fmtCode .raw16 ∨ s.accel.fmt = codeOf s.cfg.fmtCode .pcm16 →
      pairAddr s + 2 ≤ s.cfg.mainMemSize →
      StoresSample (pairAddr s) 2 (fun t => mainPair t (pairAddr s) = v) s (exec (.wrDAcdat1 v) s))

/-- The accelerator's own faults: an unknown format, an ADPCM write, a first access beyond main memory (R334, R341,
20_memory.md R80, R81). What a write of ACDAT1 does, its fault in ADPCM4 among it, is the spec's own choice (R341), and so
is the fault of an access beyond main memory (92_eei_decisions.md D43). The byte address 2 * cur of the 16-bit clauses is
taken modulo 2^32 (R333; log 15, DEDUCED). -/
def Obligations.AcceleratorFaults : Prop :=
  ∀ (s : State) (v : BitVec 16), CodesDistinct s.cfg.fmtCode →
    ((∀ f, s.accel.fmt ≠ codeOf s.cfg.fmtCode f) →
      Faults (.unknownFormat s.accel.fmt) s (exec .rdDAcdat s) ∧
      Faults (.unknownFormat s.accel.fmt) s (exec (.wrDAcdat1 v) s)) ∧
    (s.accel.fmt = codeOf s.cfg.fmtCode .adpcm4 →
      Faults .accelAdpcmWrite s (exec (.wrDAcdat1 v) s) ∧
      (s.cfg.mainMemSize < s.accel.cur.toNat / 2 + 1 →
        Faults (.mainOutOfRange (s.accel.cur.toNat / 2) 1) s (exec .rdDAcdat s))) ∧
    (s.accel.fmt = codeOf s.cfg.fmtCode .raw8 ∨ s.accel.fmt = codeOf s.cfg.fmtCode .pcm8 →
      s.cfg.mainMemSize < s.accel.cur.toNat + 1 →
      Faults (.mainOutOfRange s.accel.cur.toNat 1) s (exec .rdDAcdat s) ∧
      Faults (.mainOutOfRange s.accel.cur.toNat 1) s (exec (.wrDAcdat1 v) s)) ∧
    (s.accel.fmt = codeOf s.cfg.fmtCode .raw16 ∨ s.accel.fmt = codeOf s.cfg.fmtCode .pcm16 →
      s.cfg.mainMemSize < pairAddr s + 2 →
      Faults (.mainOutOfRange (pairAddr s) 2) s (exec .rdDAcdat s) ∧
      Faults (.mainOutOfRange (pairAddr s) 2) s (exec (.wrDAcdat1 v) s))

/-- R339: of all instructions only an ADPCM fetch and the DSP writes of YN1, YN2 and PS change the decoder's history. -/
def Obligations.HistoryChangesOnlyByAdpcm : Prop :=
  ∀ (i : Instr) (s t : State), exec i s = .next t →
    t.accel.yn1 ≠ s.accel.yn1 ∨ t.accel.yn2 ≠ s.accel.yn2 ∨ t.accel.ps ≠ s.accel.ps →
    (i = .rdDAcdat ∧ s.accel.fmt = s.cfg.fmtCode.adpcm4) ∨ (∃ v, i = .wrDYn1 v) ∨ (∃ v, i = .wrDYn2 v) ∨ ∃ v, i = .wrDPs v

/-! ### The core's data accesses, fetch, pc and stacks (20_memory.md, 10_state.md) -/

/-- The core's data accesses below 0xFF00: data RAM, data ROM and instruction ROM are read, data RAM is written, a write
of a ROM and an access elsewhere are faults (20_memory.md R72 to R74). That a write of a ROM is a fault is the spec's own
(R74: the source says these regions are "read-only" but not what a write does). From 0xFF00 on an access is the DSP-port
transaction at that address (R76), and the step is that of the transaction's instruction. The moves between DSP memory and
ALU registers are RREG and WREG commands (43_alu_regs_modes.md R251), and so is a move between two ALU registers
(30_encoding.md R108); that each is one instruction of two operations is the model's reading (log 30, DEDUCED). -/
def Obligations.CoreDataAccess : Prop :=
  ∀ (s : State) (a : BitVec 16) (v : CoreVal) (len : InstrLen) (more : List CoreInstr) (rest : List Event),
    (a.toNat < 0xFF00 → NextInstr s (oneOp (.access .read a v) len) more rest →
      if ReadableAddr false a.toNat then
        step s = .next (Advanced s { s with coreData := slotAt s false a.toNat } len more rest)
      else Faults (.unmappedData a .read) s (step s)) ∧
    (a.toNat < 0xFF00 → s.memWf = true → NextInstr s (oneOp (.access .write a v) len) more rest →
      if RamAddr a.toNat then
        ∃ t, step s = .next t ∧ slotAt t false a.toNat = s.coreVal v ∧
          (∀ q b, ¬(q = .dram ∧ 2 * a.toNat ≤ b ∧ b ≤ 2 * a.toNat + 1) → t.readByte q b = s.readByte q b) ∧
          t = Advanced s { s with dram := t.dram } len more rest
      else if ReadableAddr false a.toNat then Faults (.romWrite a) s (step s)
      else Faults (.unmappedData a .write) s (step s)) ∧
    (∀ (w : Dir) (i : Instr), 0xFF00 ≤ a.toNat → NextInstr s (oneOp (.access w a v) len) more rest →
      decode s.cfg.ifxMap (txnWord .dsp w a) (s.coreVal v) = some i →
      ∃ t, exec i s = .next t ∧ step s = .next (if t.fault = none then Advanced s t len more rest else t)) ∧
    (∀ r, NextInstr s (allOps (loadOps r a) len) more rest → LoadsRegister r a s len more rest) ∧
    (∀ r, s.memWf = true → NextInstr s (allOps (storeOps r a) len) more rest → StoresRegister r a s len more rest) ∧
    ∀ dst src, NextInstr s (allOps (moveOps dst src) len) more rest →
      ∃ u t, exec (.rreg src) s = .next u ∧ exec (.wreg dst u.coreData) u = .next t ∧
        step s = .next (Advanced s t len more rest)

/-- The core fetches its next instruction from instruction RAM or ROM, and faults with its pc where a slot of it, pc or for a
4-byte instruction pc + 1, lies anywhere else; with nothing due it executes the instruction offered, whose slots are those
fetched (20_memory.md R71, R75, R80, R82, 60_exceptions.md R380). That a second slot elsewhere faults with the pc as a first
one does is the model's reading (log 16), and so is the instruction offered from outside (log 1). -/
def Obligations.FetchAtBoundary : Prop :=
  ∀ (s : State) (c : CoreInstr) (more : List CoreInstr) (rest : List Event),
    CoreTurn s rest → NothingDue s → s.program = c :: more →
    (¬Fetchable s c.len → Faults (.unmappedFetch s.pc) s (step s)) ∧
    (Fetchable s c.len →
      (∀ t, step s = .next t → t.fault = none → t.fetched = slotsAt s c.len ∧ t.program = more ∧ t.schedule = rest) ∧
      (c = onlyFlow .next c.len → step s = .next (Advanced s s c.len more rest)))

/-- An instruction whose operations lead in their order to `u` ends, in the same event, with its pc: advanced by the length
in slots modulo 2^16, or set by a jump whose condition holds (10_state.md R22, R36); HALT stops the core
(70_reset_and_hazards.md R414); the counts tick (60_exceptions.md R380). That HALT's own step advances the pc and ticks is
the model's reading (log 17). That the condition is read after the operations and gates the pc alone, that a return jumps to
the value its pop returned, and that IFcc skips the next instruction when its condition fails are its choice (log 25). -/
def Obligations.InstructionEnds : Prop :=
  ∀ (s u : State) (c : CoreInstr) (more : List CoreInstr) (rest : List Event),
    NextInstr s c more rest → OpsGive c.ops s u →
    (c.flow = .next → step s = .next (Advanced s u c.len more rest)) ∧
    (∀ cc target, c.flow = .jump cc target →
      step s = .next
        (if condHolds cc u.alu.sr = true then Finished s { u with pc := u.coreVal target } c.len more rest
          else Advanced s u c.len more rest)) ∧
    (∀ cc nextLen, c.flow = .skip cc nextLen →
      step s = .next
        (if condHolds cc u.alu.sr = true then Advanced s u c.len more rest
          else Finished s { u with pc := BitVec.ofNat 16 ((advanced s c.len).toNat + if nextLen = .two then 2 else 1) }
            c.len more rest)) ∧
    (c.flow = .halt → step s = .next (Advanced s { u with halted := true } c.len more rest))

/-- The stacks (10_state.md R23): the core's push and pop are last in, first out, a push onto a stack of `stackDepth`
entries and a pop of an empty stack are faults. -/
def Obligations.StacksLifo : Prop :=
  ∀ (s : State) (st : StackId) (v : CoreVal) (len : InstrLen) (more : List CoreInstr) (rest : List Event),
    (NextInstr s (oneOp (.push st v) len) more rest →
      (HasRoom s.cfg (s.stack st) → ∃ t, step s = .next t ∧ t.stack st = s.coreVal v :: s.stack st ∧
        t = Advanced s { s with callStack := t.callStack, dataStack := t.dataStack } len more rest ∧
        (∀ q, q ≠ st → t.stack q = s.stack q) ∧ SameBytes s t) ∧
      (¬HasRoom s.cfg (s.stack st) → Faults .stackOverflow s (step s))) ∧
    (NextInstr s (oneOp (.pop st) len) more rest →
      (∀ top below, s.stack st = top :: below → ∃ t, step s = .next t ∧ t.stack st = below ∧ t.coreData = top ∧
        t = Advanced s { s with callStack := t.callStack, dataStack := t.dataStack, coreData := t.coreData } len more rest ∧
        (∀ q, q ≠ st → t.stack q = s.stack q) ∧ SameBytes s t) ∧
      (s.stack st = [] → Faults .stackUnderflow s (step s)))

/-! ### Exceptions (60_exceptions.md) -/

/-- R381: exception entry at an instruction boundary, for the due source with the lower id; onto a full stack it is a
stack overflow and nothing of the entry remains (10_state.md R23, R373). -/
def Obligations.ExceptionEntry : Prop :=
  ∀ (s : State) (rest : List Event), CoreTurn s rest → ¬SoftResetDue s →
    (HasRoom s.cfg s.callStack → HasRoom s.cfg s.dataStack →
      (OverflowDue s → (InterruptDue s → s.accel.ovfVector.toNat < s.cfg.excId.int.toNat) →
        ∃ t, step s = .next t ∧ Enters s.accel.ovfVector s t ∧ t.accel.ovfPending = false ∧
          t.intPending = s.intPending ∧ t.schedule = rest) ∧
      (InterruptDue s → (OverflowDue s → s.cfg.excId.int.toNat < s.accel.ovfVector.toNat) →
        ∃ t, step s = .next t ∧ Enters s.cfg.excId.int s t ∧ t.intPending = false ∧
          t.accel.ovfPending = s.accel.ovfPending ∧ t.schedule = rest)) ∧
    (OverflowDue s ∨ InterruptDue s → ¬HasRoom s.cfg s.callStack ∨ ¬HasRoom s.cfg s.dataStack →
      Faults .stackOverflow s (step s))

/-- R378: under the default policy, a parameter of the spec, an overflow needs SR.IE (bit 9) and the external interrupt
SR.EIE (bit 11), each whatever the other bit is. A masked exception stays pending while the core executes its next
instruction, whatever that is; a due one is entered when its own bit is 1. -/
def Obligations.MaskedExceptionWaits : Prop :=
  ∀ (s : State) (rest : List Event), CoreTurn s rest → ¬SoftResetDue s → s.cfg.maskPolicy = .standard →
    let overflowWaits : Prop := s.accel.ovfPending = true → s.alu.sr.getLsbD 9 = false
    let interruptWaits : Prop := s.intPending = true → s.intCount = 0 → s.alu.sr.getLsbD 11 = false
    (overflowWaits → interruptWaits → ∀ (c : CoreInstr) (more : List CoreInstr), s.program = c :: more →
      Fetchable s c.len →
      (c = onlyFlow .next c.len → step s = .next (Advanced s s c.len more rest)) ∧
      ∀ t, step s = .next t → t.fault = none →
        t.program = more ∧ t.intPending = s.intPending ∧ (s.accel.ovfPending = true → t.accel.ovfPending = true)) ∧
    (HasRoom s.cfg s.callStack → HasRoom s.cfg s.dataStack →
      (s.accel.ovfPending = true → s.alu.sr.getLsbD 9 = true → interruptWaits →
        ∃ t, step s = .next t ∧ Enters s.accel.ovfVector s t ∧ t.accel.ovfPending = false ∧
          t.intPending = s.intPending ∧ t.schedule = rest) ∧
      (s.intPending = true → s.intCount = 0 → s.alu.sr.getLsbD 11 = true → overflowWaits →
        ∃ t, step s = .next t ∧ Enters s.cfg.excId.int s t ∧ t.intPending = false ∧
          t.accel.ovfPending = s.accel.ovfPending ∧ t.schedule = rest))

/-- R379: ReturnFromException pops SR whole and the pc; with an empty stack it is a stack underflow. -/
def Obligations.ReturnFromExceptionPops : Prop :=
  ∀ (s : State) (len : InstrLen) (more : List CoreInstr) (rest : List Event),
    NextInstr s (onlyFlow .returnFromException len) more rest →
    (∀ sr ds pc cs, s.dataStack = sr :: ds → s.callStack = pc :: cs →
      step s = .next
        (Finished s { s with alu := { s.alu with sr := sr }, pc := pc, dataStack := ds, callStack := cs } len more rest)) ∧
    (s.dataStack = [] ∨ s.callStack = [] → Faults .stackUnderflow s (step s))

/-- R386: a due soft reset comes before every exception and changes the pc and its own pending bit alone. -/
def Obligations.SoftResetAction : Prop :=
  ∀ (s : State) (rest : List Event), CoreTurn s rest → SoftResetDue s →
    ∃ t, step s = .next t ∧ t.pc = s.cfg.softResetTarget ∧ t.srPending = false ∧
      t.intCount = Ticked s.intPending s.intCount ∧ SameBytes s t ∧
      t = { s with pc := t.pc, srPending := t.srPending, intCount := t.intCount, schedule := rest }

/-- The host's control inputs but for the reset line's assertion: a first interrupt or soft reset request sets its pending
bit and delay, a second changes nothing (R383, R385); the other moves of the lines change the line alone
(70_reset_and_hazards.md R412, R413). That the host requests the soft reset is the spec's own (R385: "the spec gives the
host this input"). -/
def Obligations.HostControlInputs : Prop :=
  ∀ (s : State) (rest : List Event), s.fault = none →
    (s.schedule = .hostInput .assertInterrupt :: rest →
      step s = .next
        (if s.intPending = true then { s with schedule := rest }
          else { s with intPending := true, intCount := s.cfg.intDelay, schedule := rest })) ∧
    (s.schedule = .hostInput .requestSoftReset :: rest →
      step s = .next
        (if s.srPending = true then { s with schedule := rest }
          else { s with srPending := true, srCount := s.cfg.softResetDelay, schedule := rest })) ∧
    (s.schedule = .hostInput .deassertReset :: rest → step s = .next { s with resetLine := false, schedule := rest }) ∧
    (s.schedule = .hostInput .assertHalt :: rest → step s = .next { s with haltLine := true, schedule := rest }) ∧
    (s.schedule = .hostInput .deassertHalt :: rest → step s = .next { s with haltLine := false, schedule := rest })

/-- R373: the state after a step that raises a fault is the state before plus the fault, whatever the step was. That a core
instruction with all its operations is one such step, so that what its earlier operations did is undone too, is the model's
reading of R373 with R380 and R86 (log 4, DEDUCED), against R250's "separate engine steps" (log 2, DESIGN CHOICE). -/
def Obligations.FaultingStepUndone : Prop :=
  ∀ (s t : State) (f : Fault), s.fault = none → step s = .next t → t.fault = some f → t = { s with fault := some f }

/-- R373, R12: once a fault is set no event but the reset line has a step, and no step clears it. With no assertion of the
reset line to come the machine answers the fault for ever (log 4). -/
def Obligations.FaultIsFinal : Prop :=
  ∀ (s : State) (f : Fault), s.fault = some f →
    (.hostInput .assertReset ∉ s.schedule → step s = .fault f) ∧
    ∀ t, step s = .next t → t.fault = some f

/-! ### Reset and control lines (70_reset_and_hazards.md) -/

/-- R410, R412: asserting the reset line applies the hard reset in every state, a faulted one too (R415), and in one
step. In a faulted state no event before it has a step (R373), so it is the next to happen, wherever it stands among the
events to come (log 4). -/
def Obligations.HardResetAction : Prop :=
  ∀ (s : State) (rest : List Event), NextReset s.schedule rest →
    (s.fault = none → s.schedule = .hostInput .assertReset :: rest) →
    ∃ t, step s = .next t ∧ t.schedule = rest ∧ t.pc = 0x8000 ∧ t.callStack = [] ∧ t.dataStack = [] ∧
      (∀ d, accVal t d = 0) ∧ (∀ x, axVal t x = 0) ∧ t.alu.sr = 0 ∧ t.alu.prod = { l := 0, m1 := 0, h := 0, m2 := 0 } ∧
      t.coreFile = CoreFile.reset ∧ t.cmb = { hi := 0, lo := 0, ready := false } ∧
      t.dmb = { hi := 0, lo := 0, ready := false } ∧ t.dma = { mmaddr := 0, dspaddr := 0, len := 0, ctl := 0 } ∧
      t.accel.fmt = 0 ∧ (∀ i, t.accel.coefAt i = 0) ∧ t.accel.ps = 0 ∧ t.accel.yn1 = 0 ∧ t.accel.yn2 = 0 ∧
      t.accel.gain = 0 ∧ t.accel.startAddr = 0 ∧ t.accel.endAddr = 0 ∧ t.accel.cur = 0 ∧
      t.accel.ovfPending = false ∧ t.accel.ovfVector = 0 ∧ t.intPending = false ∧ t.intCount = 0 ∧
      t.srPending = false ∧ t.srCount = 0 ∧ t.halted = false ∧ t.hostIrqCount = 0 ∧ t.resetLine = true ∧
      t.haltLine = s.haltLine ∧ t.iram = s.cfg.iramImage ∧ t.dram = s.cfg.dramImage ∧ t.irom = s.irom ∧
      t.drom = s.drom ∧ t.main = s.main ∧ t.fault = s.fault ∧ t.log = s.log ∧ t.cfg = s.cfg

/-- 10_state.md R44: while a line is asserted or the core is halted the core has no step: its turn passes with no change.
That the turn passes is the model's form of it (log 3). -/
def Obligations.HeldCoreStands : Prop :=
  ∀ (s : State) (rest : List Event), s.fault = none → s.schedule = .core :: rest →
    s.resetLine = true ∨ s.haltLine = true ∨ s.halted = true → step s = .next { s with schedule := rest }

/-- R412: no host transaction changes the pc, the core's registers or its stacks. In a faulted state it has no step
(R373). -/
def Obligations.HostTransactionsSpareTheCore : Prop :=
  ∀ (s t : State) (w : Word) (v : BitVec 16) (rest : List Event), s.fault = none →
    s.schedule = .hostTxn w v :: rest → step s = .next t →
    t.pc = s.pc ∧ t.alu = s.alu ∧ t.callStack = s.callStack ∧ t.dataStack = s.dataStack ∧ t.coreFile = s.coreFile ∧
      t.program = s.program ∧ t.halted = s.halted

/-- The reset state: every value of R411, field by field, no fault and an empty log (10_state.md R46), and, for what the spec
leaves to the host and to parameters without a default, the model's own choices: main memory's size 2^32 (log 6), both
delays 0 (log 7), nothing listed in any memory, ROMs, main memory and RAM reset images included (log 9), both lines low
(log 11), the model's own fields empty or 0 (log 13, log 1); and the invariant. -/
def Obligations.ResetState : Prop :=
  (State.reset.pc = 0x8000 ∧ State.reset.callStack = [] ∧ State.reset.dataStack = [] ∧
    (∀ d, accVal State.reset d = 0) ∧ (∀ x, axVal State.reset x = 0) ∧
    State.reset.alu.prod = { l := 0, m1 := 0, h := 0, m2 := 0 } ∧ State.reset.alu.sr = 0 ∧
    (∀ q ∈ [State.reset.coreFile.ar, State.reset.coreFile.ix, State.reset.coreFile.wr, State.reset.coreFile.gpr],
      q.r0 = 0 ∧ q.r1 = 0 ∧ q.r2 = 0 ∧ q.r3 = 0) ∧
    State.reset.coreFile.loopAddr = [] ∧ State.reset.coreFile.loopCount = [] ∧
    State.reset.cmb = { hi := 0, lo := 0, ready := false } ∧ State.reset.dmb = { hi := 0, lo := 0, ready := false } ∧
    State.reset.dma = { mmaddr := 0, dspaddr := 0, len := 0, ctl := 0 } ∧
    State.reset.accel.fmt = 0 ∧ (∀ i, State.reset.accel.coefAt i = 0) ∧ State.reset.accel.ps = 0 ∧
    State.reset.accel.yn1 = 0 ∧ State.reset.accel.yn2 = 0 ∧ State.reset.accel.gain = 0 ∧
    State.reset.accel.startAddr = 0 ∧ State.reset.accel.endAddr = 0 ∧ State.reset.accel.cur = 0 ∧
    State.reset.accel.ovfPending = false ∧ State.reset.accel.ovfVector = 0 ∧
    State.reset.intPending = false ∧ State.reset.intCount = 0 ∧ State.reset.srPending = false ∧
    State.reset.srCount = 0 ∧ State.reset.halted = false ∧ State.reset.hostIrqCount = 0 ∧
    State.reset.iram = State.reset.cfg.iramImage ∧ State.reset.dram = State.reset.cfg.dramImage ∧
    State.reset.fault = none ∧ State.reset.log = []) ∧
  (State.reset.cfg.mainMemSize = 2 ^ 32 ∧ State.reset.cfg.intDelay = 0 ∧ State.reset.cfg.softResetDelay = 0 ∧
    State.reset.cfg.iramImage = [] ∧ State.reset.cfg.dramImage = [] ∧ State.reset.irom = [] ∧ State.reset.drom = [] ∧
    State.reset.main = [] ∧ State.reset.resetLine = false ∧ State.reset.haltLine = false ∧
    State.reset.coreData = 0 ∧ State.reset.hostData = 0 ∧ State.reset.fetched = [] ∧ State.reset.program = [] ∧
    State.reset.schedule = []) ∧
  State.reset.Inv

/-! ### The whole machine -/

/-- The invariant every step keeps: canonical and bounded memories, bounded stacks, a legal pending overflow, counts within
their delays and 0 where nothing is pending, and a core held in reset at its entry point. -/
def Obligations.StepKeepsInvariant : Prop := ∀ s t : State, s.Inv → step s = .next t → t.Inv

/-- 20_memory.md R77: no step changes a ROM; 10_state.md R46: none takes a report out of the log. That no step changes a
parameter is the model's choice (log 5): the spec makes the parameters arguments of the model (00_scope.md R8). -/
def Obligations.RomsAndLogPersist : Prop :=
  ∀ s t : State, step s = .next t → t.irom = s.irom ∧ t.drom = s.drom ∧ t.cfg = s.cfg ∧ ∃ l, t.log = s.log ++ l
end

