-- ==== Sys2Proof/Laws/Memory.lean ====
section
/-! SUPPORT. The basic laws of one memory array: reading after writing, the canonical form, and the bound on its
addresses. -/

namespace Sys2Proof

theorem Memory.read_below {lo : Nat} {m : Memory} (h : Memory.wfFrom lo m = true) {a : Nat} (ha : a < lo) :
    m.read a = unlistedByte := by
  induction m generalizing lo with
  | nil => rfl
  | cons c t ih =>
    obtain ⟨b, v⟩ := c
    simp only [Memory.wfFrom, Bool.and_eq_true, decide_eq_true_eq] at h
    have hne : ¬b = a := by omega
    simp only [Memory.read, hne, if_false]
    exact ih h.2 (by omega)

theorem Memory.wfFrom_mono {lo lo' : Nat} {m : Memory} (h : Memory.wfFrom lo m = true) (hl : lo' ≤ lo) :
    Memory.wfFrom lo' m = true := by
  cases m with
  | nil => rfl
  | cons c t =>
    obtain ⟨b, v⟩ := c
    simp only [Memory.wfFrom, Bool.and_eq_true, decide_eq_true_eq] at h ⊢
    exact ⟨⟨by omega, h.1.2⟩, h.2⟩

theorem Memory.read_write_other (m : Memory) {a b : Nat} (v : Byte) (h : b ≠ a) : (m.write a v).read b = m.read b := by
  induction m with
  | nil => by_cases hv : v = unlistedByte <;> simp [Memory.write, Memory.read, hv, Ne.symm h]
  | cons c t ih =>
    obtain ⟨x, w⟩ := c
    simp only [Memory.write]
    split
    · split <;> simp [Memory.read, Ne.symm h]
    · split
      next heq =>
        have hne : ¬x = b := fun hx => h (by omega)
        split
        · simp [Memory.read, hne]
        · simp [Memory.read, Ne.symm h, hne]
      next => simp [Memory.read, ih]

theorem Memory.read_write_same_from {lo : Nat} {m : Memory} (hm : Memory.wfFrom lo m = true) (a : Nat) (v : Byte) :
    (m.write a v).read a = v := by
  induction m generalizing lo with
  | nil => by_cases hv : v = unlistedByte <;> simp [Memory.write, Memory.read, hv]
  | cons c t ih =>
    obtain ⟨x, w⟩ := c
    simp only [Memory.wfFrom, Bool.and_eq_true, decide_eq_true_eq] at hm
    simp only [Memory.write]
    split
    next hlt =>
      split
      next hv =>
        have hne : ¬x = a := by omega
        simp only [Memory.read, hne, if_false, hv]
        exact Memory.read_below hm.2 (by omega)
      next => simp [Memory.read]
    next =>
      split
      next heq =>
        split
        next hv => rw [hv]; exact Memory.read_below hm.2 (by omega)
        next => simp [Memory.read]
      next hne =>
        have hne' : ¬x = a := fun h => hne h.symm
        simp only [Memory.read, hne', if_false]
        exact ih hm.2

theorem Memory.read_write_same {m : Memory} (hm : m.wf = true) (a : Nat) (v : Byte) : (m.write a v).read a = v :=
  Memory.read_write_same_from hm a v

theorem Memory.write_wfFrom {lo : Nat} {m : Memory} (hm : Memory.wfFrom lo m = true) {a : Nat} (ha : lo ≤ a) (v : Byte) :
    Memory.wfFrom lo (m.write a v) = true := by
  induction m generalizing lo with
  | nil => by_cases hv : v = unlistedByte <;> simp [Memory.write, Memory.wfFrom, hv, ha]
  | cons c t ih =>
    obtain ⟨x, w⟩ := c
    have h0 := hm
    simp only [Memory.wfFrom, Bool.and_eq_true, decide_eq_true_eq] at hm
    simp only [Memory.write]
    split
    next hlt =>
      split
      next => exact h0
      next hv =>
        simp only [Memory.wfFrom, Bool.and_eq_true, decide_eq_true_eq]
        exact ⟨⟨ha, hv⟩, ⟨by omega, hm.1.2⟩, hm.2⟩
    next =>
      split
      next heq =>
        split
        next => exact Memory.wfFrom_mono hm.2 (by omega)
        next hv =>
          simp only [Memory.wfFrom, Bool.and_eq_true, decide_eq_true_eq]
          exact ⟨⟨ha, hv⟩, by rw [heq]; exact hm.2⟩
      next hne =>
        simp only [Memory.wfFrom, Bool.and_eq_true, decide_eq_true_eq]
        exact ⟨hm.1, ih hm.2 (by omega)⟩

/-- A write keeps the canonical form. -/
theorem Memory.write_wf {m : Memory} (hm : m.wf = true) (a : Nat) (v : Byte) : (m.write a v).wf = true :=
  Memory.write_wfFrom hm (Nat.zero_le a) v

theorem Memory.writeHalf_wf {m : Memory} (hm : m.wf = true) (a : Nat) (v : BitVec 16) : (m.writeHalf a v).wf = true :=
  Memory.write_wf (Memory.write_wf hm a _) (a + 1) _

/-- A write below the bound keeps it. -/
theorem Memory.write_below {n : Nat} {m : Memory} (hm : m.below n = true) {a : Nat} (ha : a < n) (v : Byte) :
    (m.write a v).below n = true := by
  induction m with
  | nil => by_cases hv : v = unlistedByte <;> simp [Memory.write, Memory.below, hv, ha]
  | cons c t ih =>
    obtain ⟨x, w⟩ := c
    simp only [Memory.below, List.all_cons, Bool.and_eq_true, decide_eq_true_eq] at hm ih
    simp only [Memory.write]
    split
    · split <;> simp [Memory.below, hm.1, ha, hm.2]
    · split
      · split <;> simp [Memory.below, ha] <;> simpa using hm.2
      · simp only [Memory.below, List.all_cons, Bool.and_eq_true, decide_eq_true_eq]
        exact ⟨hm.1, ih hm.2⟩

theorem Memory.writeHalf_below {n : Nat} {m : Memory} (hm : m.below n = true) {a : Nat} (ha : a + 1 < n)
    (v : BitVec 16) : (m.writeHalf a v).below n = true :=
  Memory.write_below (Memory.write_below hm (by omega) _) ha _

theorem Memory.halves_append (v : BitVec 16) : v.extractLsb' 8 8 ++ v.extractLsb' 0 8 = v := by
  apply BitVec.eq_of_getLsbD_eq
  intro i hi
  simp only [BitVec.getLsbD_append, BitVec.getLsbD_extractLsb']
  by_cases h : i < 8
  · simp [h]
  · have h8 : i - 8 < 8 := by omega
    have hi' : 8 + (i - 8) = i := by omega
    simp [h, h8, hi']

/-- Reading the two bytes just written gives the value. -/
theorem Memory.readHalf_writeHalf_same {m : Memory} (hm : m.wf = true) (a : Nat) (v : BitVec 16) :
    (m.writeHalf a v).readHalf a = v := by
  unfold Memory.readHalf Memory.writeHalf
  rw [Memory.read_write_other _ _ (by omega), Memory.read_write_same hm,
    Memory.read_write_same (Memory.write_wf hm _ _)]
  exact Memory.halves_append v

theorem Memory.read_writeHalf_other (m : Memory) {a b : Nat} (v : BitVec 16) (h : b ≠ a) (h' : b ≠ a + 1) :
    (m.writeHalf a v).read b = m.read b := by
  unfold Memory.writeHalf
  rw [Memory.read_write_other _ _ h', Memory.read_write_other _ _ h]

/-- A two-byte write leaves every pair of bytes it does not touch. -/
theorem Memory.readHalf_writeHalf_other (m : Memory) {a b : Nat} (v : BitVec 16) (h : b + 1 < a ∨ a + 1 < b) :
    (m.writeHalf a v).readHalf b = m.readHalf b := by
  unfold Memory.readHalf
  rw [Memory.read_writeHalf_other _ _ (by omega) (by omega), Memory.read_writeHalf_other _ _ (by omega) (by omega)]

theorem Memory.load_wfFrom (bs : List Byte) (a : Nat) : Memory.wfFrom a (Memory.load a bs) = true := by
  induction bs generalizing a with
  | nil => rfl
  | cons b t ih => exact Memory.write_wfFrom (Memory.wfFrom_mono (ih (a + 1)) (by omega)) (Nat.le_refl a) b

/-- A loaded image is in canonical form. -/
theorem Memory.load_wf (bs : List Byte) : (Memory.load 0 bs).wf = true := Memory.load_wfFrom bs 0

theorem Memory.load_below (bs : List Byte) (a : Nat) : (Memory.load a bs).below (a + bs.length) = true := by
  induction bs generalizing a with
  | nil => rfl
  | cons b t ih =>
    refine Memory.write_below ?_ (by simp) b
    have h := ih (a + 1)
    simp only [List.length_cons]
    rwa [show a + 1 + t.length = a + (t.length + 1) by omega] at h

/-- Two memories in canonical form that read alike are one memory. -/
theorem Memory.ext_read_from {lo : Nat} {m n : Memory} (hm : Memory.wfFrom lo m = true) (hn : Memory.wfFrom lo n = true)
    (h : ∀ a, m.read a = n.read a) : m = n := by
  induction m generalizing n lo with
  | nil =>
    cases n with
    | nil => rfl
    | cons c t =>
      obtain ⟨b, v⟩ := c
      simp only [Memory.wfFrom, Bool.and_eq_true, decide_eq_true_eq] at hn
      have := h b
      simp only [Memory.read, if_true] at this
      exact absurd this.symm hn.1.2
  | cons c t ih =>
    obtain ⟨b, v⟩ := c
    have hm0 := hm
    simp only [Memory.wfFrom, Bool.and_eq_true, decide_eq_true_eq] at hm
    cases n with
    | nil =>
      have := h b
      simp only [Memory.read, if_true] at this
      exact absurd this hm.1.2
    | cons c' t' =>
      obtain ⟨b', v'⟩ := c'
      have hn0 := hn
      simp only [Memory.wfFrom, Bool.and_eq_true, decide_eq_true_eq] at hn
      have hbb : b = b' := by
        rcases Nat.lt_trichotomy b b' with hlt | heq | hgt
        · have h1 := h b
          have : ¬b' = b := by omega
          simp only [Memory.read, if_true, this, if_false] at h1
          rw [Memory.read_below hn.2 (by omega)] at h1
          exact absurd h1 hm.1.2
        · exact heq
        · have h1 := h b'
          have : ¬b = b' := by omega
          simp only [Memory.read, if_true, this, if_false] at h1
          rw [Memory.read_below hm.2 (by omega)] at h1
          exact absurd h1.symm hn.1.2
      subst hbb
      have hv := h b
      simp only [Memory.read, if_true] at hv
      subst hv
      have htt : t = t' := by
        refine ih hm.2 hn.2 fun a => ?_
        by_cases hab : b = a
        · rw [Memory.read_below hm.2 (by omega), Memory.read_below hn.2 (by omega)]
        · have h1 := h a
          simpa only [Memory.read, hab, if_false] using h1
      rw [htt]

theorem Memory.ext_read {m n : Memory} (hm : m.wf = true) (hn : n.wf = true) (h : ∀ a, m.read a = n.read a) : m = n :=
  Memory.ext_read_from hm hn h

end Sys2Proof
end

