-- ==== Sys2Proof/Laws/Flags.lean ====
section
/-! SUPPORT. The flag functions against the integer rules of 10_state.md R32 to R34. -/

namespace Sys2Proof.Machine

open Sys2Proof.Claim

/-! ### One bit of SR -/

/-- A write of one named bit changes that bit alone. -/
theorem srPut_bit (sr : BitVec 16) (f : Flag) (b : Bool) (i : Nat) :
    (srPut sr f b).getLsbD i = if i = f.bit then b else sr.getLsbD i := by
  have hf : f.bit < 16 := by cases f <;> decide
  have h1 : (1#16 <<< f.bit).getLsbD i = decide (i = f.bit) := by
    simp only [BitVec.getLsbD_shiftLeft, BitVec.getLsbD_one]
    by_cases hi : i = f.bit
    · subst hi; simp [hf]
    · have hz : i < f.bit ∨ i - f.bit ≠ 0 := by omega
      rcases hz with hz | hz <;> simp [hi, hz]
  unfold srPut
  cases b
  · simp only [Bool.false_eq_true, if_false, BitVec.getLsbD_and, BitVec.getLsbD_not, h1]
    by_cases hi : i = f.bit
    · simp [hi]
    · simp only [hi, decide_false, Bool.not_false, Bool.and_true, if_false]
      by_cases h16 : i < 16
      · simp [h16]
      · simp [BitVec.getLsbD_of_ge sr i (by omega)]
  · simp only [if_true, BitVec.getLsbD_or, h1]
    by_cases hi : i = f.bit <;> simp [hi]

theorem srPut_onlyBit (sr : BitVec 16) (f : Flag) (b : Bool) : OnlyBit sr (srPut sr f b) f.bit b :=
  ⟨by rw [srPut_bit]; simp, fun i hi => by rw [srPut_bit]; simp [hi]⟩

@[simp] theorem srGet_srPut_same (sr : BitVec 16) (f : Flag) (b : Bool) : srGet (srPut sr f b) f = b := by
  rw [srGet, srPut_bit]; simp

/-! ### Values -/

theorem wrap40_toInt (v : Int) : (wrap40 v).toInt = wrap v := by
  rw [wrap40, BitVec.toInt_ofInt]; rfl

theorem wrap40_acc (v : Acc) : wrap40 v.toInt = v := BitVec.ofInt_toInt

theorem acc_toInt_bounds (v : Acc) : -2 ^ 39 ≤ v.toInt ∧ v.toInt < 2 ^ 39 :=
  ⟨by have := BitVec.le_toInt v; simpa using this, by have := BitVec.toInt_lt (x := v); simpa using this⟩

/-- `wrap` of a signed 40-bit value is the value. -/
theorem wrap_of_bounds {v : Int} (h1 : -2 ^ 39 ≤ v) (h2 : v < 2 ^ 39) : wrap v = v := by
  unfold wrap
  exact Int.bmod_eq_of_le (by omega) (by omega)

theorem wrap_acc (v : Acc) : wrap v.toInt = v.toInt := wrap_of_bounds (acc_toInt_bounds v).1 (acc_toInt_bounds v).2

/-- `wrap` of a sum only needs its parts up to `wrap`. -/
theorem wrap_add_wrap (a b : Int) : wrap (a + wrap b) = wrap (a + b) := by
  unfold wrap; exact Int.add_bmod_bmod

theorem wrap_sub_wrap (a b : Int) : wrap (a - wrap b) = wrap (a - b) := by
  unfold wrap; exact Int.sub_bmod_bmod

theorem wrap_wrap (a : Int) : wrap (wrap a) = wrap a := by
  unfold wrap; exact Int.bmod_bmod

/-- `u40` of the signed value is the unsigned value. -/
theorem u40_acc (v : Acc) : u40 v.toInt = v.toNat := by
  unfold u40
  rw [BitVec.toInt_eq_toNat_cond]
  have := v.isLt
  split <;> omega

theorem u40_wrap (v : Int) : u40 (wrap v) = u40 v := by
  unfold u40 wrap; exact Int.bmod_emod

theorem toInt_eq_zero_iff (v : Acc) : v = 0#40 ↔ v.toInt = 0 :=
  ⟨fun h => by rw [h]; rfl, fun h => BitVec.eq_of_toInt_eq (by rw [h]; rfl)⟩

/-- The value fits in 32 signed bits exactly when its integer does. -/
theorem fits32_iff (v : Acc) : fits32 v = true ↔ Fits32 v.toInt := by
  unfold fits32 Fits32
  rw [decide_eq_true_eq, ← BitVec.toInt_inj, BitVec.toInt_signExtend_of_le (by omega)]
  rw [BitVec.toInt_eq_toNat_cond (x := v.extractLsb' 0 32), BitVec.extractLsb'_toNat,
    BitVec.toInt_eq_toNat_cond (x := v)]
  have := v.isLt
  simp only [Nat.shiftRight_zero]
  split <;> split <;> omega

/-! ### The flag functions (R32, R33) -/

theorem flags40_spec (sr : BitVec 16) (v : Acc) (c o : Bool) : Flags40 sr (flags40 sr v c o) v (c = true) (o = true) := by
  have hz := toInt_eq_zero_iff v
  have hf := fits32_iff v
  unfold Flags40 KeepsModesAndLz flags40
  cases o
  all_goals
    simp only [Bool.false_eq_true, if_false, if_true, srPut_bit, Flag.bit]
    refine ⟨by simp, by simp, by simp [hz], by simp, ?_, by simp, by simp, by simp, ?_⟩
    · rw [← hf]; simp
    · intro i hi
      have : i ≠ 0 ∧ i ≠ 1 ∧ i ≠ 2 ∧ i ≠ 3 ∧ i ≠ 4 ∧ i ≠ 5 ∧ i ≠ 7 := by omega
      simp [this]

theorem flags16_spec (sr : BitVec 16) (w : BitVec 16) (as32 : Bool) :
    Flags16 sr (flags16 sr w as32) w (as32 = true) := by
  unfold Flags16 KeepsModesAndLz flags16
  simp only [srPut_bit, Flag.bit]
  refine ⟨by simp, by simp, ?_, ?_, by simp, by simp, by simp, by simp, ?_⟩
  · simp [BitVec.toNat_eq]
  · have h15 : w.getLsbD 15 = decide (2 ^ 15 ≤ w.toNat) := by
      have h := BitVec.msb_eq_decide (x := w)
      rw [BitVec.msb_eq_getLsbD_last] at h
      exact h
    simp only [h15]
    simp
  · intro i hi
    have : i ≠ 0 ∧ i ≠ 1 ∧ i ≠ 2 ∧ i ≠ 3 ∧ i ≠ 4 ∧ i ≠ 5 := by omega
    simp [this]

theorem flags40_imp {old new : BitVec 16} {v : Acc} {c c' o o' : Prop} (h : Flags40 old new v c o) (hc : c ↔ c')
    (ho : o ↔ o') : Flags40 old new v c' o' := by
  unfold Flags40 at h ⊢
  rw [← hc, ← ho]
  exact h

theorem flags16_imp {old new w : BitVec 16} {a a' : Prop} (h : Flags16 old new w a) (ha : a ↔ a') :
    Flags16 old new w a' := by
  unfold Flags16 at h ⊢
  rw [← ha]
  exact h

/-! ### Carry and overflow (R34) -/

theorem addC_iff (a b : Acc) : addC a b = true ↔ 2 ^ 40 ≤ u40 a.toInt + u40 b.toInt := by
  rw [u40_acc, u40_acc, addC, decide_eq_true_eq]
  omega

theorem addO_iff (a b : Acc) : addO a b = true ↔ Outside40 (a.toInt + b.toInt) := by
  rw [addO, decide_eq_true_eq]; rfl

theorem subC_iff (a b : Acc) : subC a b = true ↔ u40 b.toInt ≤ u40 a.toInt := by
  rw [u40_acc, u40_acc, subC, decide_eq_true_eq]
  omega

theorem subO_iff (a b : Acc) : subO a b = true ↔ Outside40 (a.toInt - b.toInt) := by
  rw [subO, decide_eq_true_eq]; rfl

end Sys2Proof.Machine
end

