-- ==== Sys2Proof/Laws/State.lean ====
section
/-! SUPPORT. What each update of the state leaves in every field: one lemma per field per update, so that no proof unfolds
a record update. -/

namespace Sys2Proof.Machine

/-! ### `raise` (R373) -/

@[simp] theorem State.raise_alu (f : Fault) (s : State) : (s.raise f).alu = s.alu := rfl

@[simp] theorem State.raise_pc (f : Fault) (s : State) : (s.raise f).pc = s.pc := rfl

@[simp] theorem State.raise_callStack (f : Fault) (s : State) : (s.raise f).callStack = s.callStack := rfl

@[simp] theorem State.raise_dataStack (f : Fault) (s : State) : (s.raise f).dataStack = s.dataStack := rfl

@[simp] theorem State.raise_coreFile (f : Fault) (s : State) : (s.raise f).coreFile = s.coreFile := rfl

@[simp] theorem State.raise_cmb (f : Fault) (s : State) : (s.raise f).cmb = s.cmb := rfl

@[simp] theorem State.raise_dmb (f : Fault) (s : State) : (s.raise f).dmb = s.dmb := rfl

@[simp] theorem State.raise_dma (f : Fault) (s : State) : (s.raise f).dma = s.dma := rfl

@[simp] theorem State.raise_accel (f : Fault) (s : State) : (s.raise f).accel = s.accel := rfl

@[simp] theorem State.raise_intPending (f : Fault) (s : State) : (s.raise f).intPending = s.intPending := rfl

@[simp] theorem State.raise_intCount (f : Fault) (s : State) : (s.raise f).intCount = s.intCount := rfl

@[simp] theorem State.raise_srPending (f : Fault) (s : State) : (s.raise f).srPending = s.srPending := rfl

@[simp] theorem State.raise_srCount (f : Fault) (s : State) : (s.raise f).srCount = s.srCount := rfl

@[simp] theorem State.raise_resetLine (f : Fault) (s : State) : (s.raise f).resetLine = s.resetLine := rfl

@[simp] theorem State.raise_haltLine (f : Fault) (s : State) : (s.raise f).haltLine = s.haltLine := rfl

@[simp] theorem State.raise_halted (f : Fault) (s : State) : (s.raise f).halted = s.halted := rfl

@[simp] theorem State.raise_hostIrqCount (f : Fault) (s : State) : (s.raise f).hostIrqCount = s.hostIrqCount := rfl

@[simp] theorem State.raise_fault (f : Fault) (s : State) : (s.raise f).fault = some f := rfl

@[simp] theorem State.raise_log (f : Fault) (s : State) : (s.raise f).log = s.log := rfl

@[simp] theorem State.raise_iram (f : Fault) (s : State) : (s.raise f).iram = s.iram := rfl

@[simp] theorem State.raise_irom (f : Fault) (s : State) : (s.raise f).irom = s.irom := rfl

@[simp] theorem State.raise_dram (f : Fault) (s : State) : (s.raise f).dram = s.dram := rfl

@[simp] theorem State.raise_drom (f : Fault) (s : State) : (s.raise f).drom = s.drom := rfl

@[simp] theorem State.raise_main (f : Fault) (s : State) : (s.raise f).main = s.main := rfl

@[simp] theorem State.raise_cfg (f : Fault) (s : State) : (s.raise f).cfg = s.cfg := rfl

@[simp] theorem State.raise_coreData (f : Fault) (s : State) : (s.raise f).coreData = s.coreData := rfl

@[simp] theorem State.raise_hostData (f : Fault) (s : State) : (s.raise f).hostData = s.hostData := rfl

@[simp] theorem State.raise_fetched (f : Fault) (s : State) : (s.raise f).fetched = s.fetched := rfl

@[simp] theorem State.raise_program (f : Fault) (s : State) : (s.raise f).program = s.program := rfl

@[simp] theorem State.raise_schedule (f : Fault) (s : State) : (s.raise f).schedule = s.schedule := rfl

/-! ### `report` (R374) -/

@[simp] theorem State.report_alu (r : Report) (s : State) : (s.report r).alu = s.alu := rfl

@[simp] theorem State.report_pc (r : Report) (s : State) : (s.report r).pc = s.pc := rfl

@[simp] theorem State.report_callStack (r : Report) (s : State) : (s.report r).callStack = s.callStack := rfl

@[simp] theorem State.report_dataStack (r : Report) (s : State) : (s.report r).dataStack = s.dataStack := rfl

@[simp] theorem State.report_coreFile (r : Report) (s : State) : (s.report r).coreFile = s.coreFile := rfl

@[simp] theorem State.report_cmb (r : Report) (s : State) : (s.report r).cmb = s.cmb := rfl

@[simp] theorem State.report_dmb (r : Report) (s : State) : (s.report r).dmb = s.dmb := rfl

@[simp] theorem State.report_dma (r : Report) (s : State) : (s.report r).dma = s.dma := rfl

@[simp] theorem State.report_accel (r : Report) (s : State) : (s.report r).accel = s.accel := rfl

@[simp] theorem State.report_intPending (r : Report) (s : State) : (s.report r).intPending = s.intPending := rfl

@[simp] theorem State.report_intCount (r : Report) (s : State) : (s.report r).intCount = s.intCount := rfl

@[simp] theorem State.report_srPending (r : Report) (s : State) : (s.report r).srPending = s.srPending := rfl

@[simp] theorem State.report_srCount (r : Report) (s : State) : (s.report r).srCount = s.srCount := rfl

@[simp] theorem State.report_resetLine (r : Report) (s : State) : (s.report r).resetLine = s.resetLine := rfl

@[simp] theorem State.report_haltLine (r : Report) (s : State) : (s.report r).haltLine = s.haltLine := rfl

@[simp] theorem State.report_halted (r : Report) (s : State) : (s.report r).halted = s.halted := rfl

@[simp] theorem State.report_hostIrqCount (r : Report) (s : State) : (s.report r).hostIrqCount = s.hostIrqCount := rfl

@[simp] theorem State.report_fault (r : Report) (s : State) : (s.report r).fault = s.fault := rfl

@[simp] theorem State.report_log (r : Report) (s : State) : (s.report r).log = s.log ++ [r] := rfl

@[simp] theorem State.report_iram (r : Report) (s : State) : (s.report r).iram = s.iram := rfl

@[simp] theorem State.report_irom (r : Report) (s : State) : (s.report r).irom = s.irom := rfl

@[simp] theorem State.report_dram (r : Report) (s : State) : (s.report r).dram = s.dram := rfl

@[simp] theorem State.report_drom (r : Report) (s : State) : (s.report r).drom = s.drom := rfl

@[simp] theorem State.report_main (r : Report) (s : State) : (s.report r).main = s.main := rfl

@[simp] theorem State.report_cfg (r : Report) (s : State) : (s.report r).cfg = s.cfg := rfl

@[simp] theorem State.report_coreData (r : Report) (s : State) : (s.report r).coreData = s.coreData := rfl

@[simp] theorem State.report_hostData (r : Report) (s : State) : (s.report r).hostData = s.hostData := rfl

@[simp] theorem State.report_fetched (r : Report) (s : State) : (s.report r).fetched = s.fetched := rfl

@[simp] theorem State.report_program (r : Report) (s : State) : (s.report r).program = s.program := rfl

@[simp] theorem State.report_schedule (r : Report) (s : State) : (s.report r).schedule = s.schedule := rfl

/-! ### Returned values -/

@[simp] theorem State.toCore_alu (v : BitVec 16) (s : State) : (s.toCore v).alu = s.alu := rfl

@[simp] theorem State.toCore_pc (v : BitVec 16) (s : State) : (s.toCore v).pc = s.pc := rfl

@[simp] theorem State.toCore_callStack (v : BitVec 16) (s : State) : (s.toCore v).callStack = s.callStack := rfl

@[simp] theorem State.toCore_dataStack (v : BitVec 16) (s : State) : (s.toCore v).dataStack = s.dataStack := rfl

@[simp] theorem State.toCore_coreFile (v : BitVec 16) (s : State) : (s.toCore v).coreFile = s.coreFile := rfl

@[simp] theorem State.toCore_cmb (v : BitVec 16) (s : State) : (s.toCore v).cmb = s.cmb := rfl

@[simp] theorem State.toCore_dmb (v : BitVec 16) (s : State) : (s.toCore v).dmb = s.dmb := rfl

@[simp] theorem State.toCore_dma (v : BitVec 16) (s : State) : (s.toCore v).dma = s.dma := rfl

@[simp] theorem State.toCore_accel (v : BitVec 16) (s : State) : (s.toCore v).accel = s.accel := rfl

@[simp] theorem State.toCore_intPending (v : BitVec 16) (s : State) : (s.toCore v).intPending = s.intPending := rfl

@[simp] theorem State.toCore_intCount (v : BitVec 16) (s : State) : (s.toCore v).intCount = s.intCount := rfl

@[simp] theorem State.toCore_srPending (v : BitVec 16) (s : State) : (s.toCore v).srPending = s.srPending := rfl

@[simp] theorem State.toCore_srCount (v : BitVec 16) (s : State) : (s.toCore v).srCount = s.srCount := rfl

@[simp] theorem State.toCore_resetLine (v : BitVec 16) (s : State) : (s.toCore v).resetLine = s.resetLine := rfl

@[simp] theorem State.toCore_haltLine (v : BitVec 16) (s : State) : (s.toCore v).haltLine = s.haltLine := rfl

@[simp] theorem State.toCore_halted (v : BitVec 16) (s : State) : (s.toCore v).halted = s.halted := rfl

@[simp] theorem State.toCore_hostIrqCount (v : BitVec 16) (s : State) : (s.toCore v).hostIrqCount = s.hostIrqCount := rfl

@[simp] theorem State.toCore_fault (v : BitVec 16) (s : State) : (s.toCore v).fault = s.fault := rfl

@[simp] theorem State.toCore_log (v : BitVec 16) (s : State) : (s.toCore v).log = s.log := rfl

@[simp] theorem State.toCore_iram (v : BitVec 16) (s : State) : (s.toCore v).iram = s.iram := rfl

@[simp] theorem State.toCore_irom (v : BitVec 16) (s : State) : (s.toCore v).irom = s.irom := rfl

@[simp] theorem State.toCore_dram (v : BitVec 16) (s : State) : (s.toCore v).dram = s.dram := rfl

@[simp] theorem State.toCore_drom (v : BitVec 16) (s : State) : (s.toCore v).drom = s.drom := rfl

@[simp] theorem State.toCore_main (v : BitVec 16) (s : State) : (s.toCore v).main = s.main := rfl

@[simp] theorem State.toCore_cfg (v : BitVec 16) (s : State) : (s.toCore v).cfg = s.cfg := rfl

@[simp] theorem State.toCore_coreData (v : BitVec 16) (s : State) : (s.toCore v).coreData = v := rfl

@[simp] theorem State.toCore_hostData (v : BitVec 16) (s : State) : (s.toCore v).hostData = s.hostData := rfl

@[simp] theorem State.toCore_fetched (v : BitVec 16) (s : State) : (s.toCore v).fetched = s.fetched := rfl

@[simp] theorem State.toCore_program (v : BitVec 16) (s : State) : (s.toCore v).program = s.program := rfl

@[simp] theorem State.toCore_schedule (v : BitVec 16) (s : State) : (s.toCore v).schedule = s.schedule := rfl

@[simp] theorem State.toHost_alu (v : BitVec 16) (s : State) : (s.toHost v).alu = s.alu := rfl

@[simp] theorem State.toHost_pc (v : BitVec 16) (s : State) : (s.toHost v).pc = s.pc := rfl

@[simp] theorem State.toHost_callStack (v : BitVec 16) (s : State) : (s.toHost v).callStack = s.callStack := rfl

@[simp] theorem State.toHost_dataStack (v : BitVec 16) (s : State) : (s.toHost v).dataStack = s.dataStack := rfl

@[simp] theorem State.toHost_coreFile (v : BitVec 16) (s : State) : (s.toHost v).coreFile = s.coreFile := rfl

@[simp] theorem State.toHost_cmb (v : BitVec 16) (s : State) : (s.toHost v).cmb = s.cmb := rfl

@[simp] theorem State.toHost_dmb (v : BitVec 16) (s : State) : (s.toHost v).dmb = s.dmb := rfl

@[simp] theorem State.toHost_dma (v : BitVec 16) (s : State) : (s.toHost v).dma = s.dma := rfl

@[simp] theorem State.toHost_accel (v : BitVec 16) (s : State) : (s.toHost v).accel = s.accel := rfl

@[simp] theorem State.toHost_intPending (v : BitVec 16) (s : State) : (s.toHost v).intPending = s.intPending := rfl

@[simp] theorem State.toHost_intCount (v : BitVec 16) (s : State) : (s.toHost v).intCount = s.intCount := rfl

@[simp] theorem State.toHost_srPending (v : BitVec 16) (s : State) : (s.toHost v).srPending = s.srPending := rfl

@[simp] theorem State.toHost_srCount (v : BitVec 16) (s : State) : (s.toHost v).srCount = s.srCount := rfl

@[simp] theorem State.toHost_resetLine (v : BitVec 16) (s : State) : (s.toHost v).resetLine = s.resetLine := rfl

@[simp] theorem State.toHost_haltLine (v : BitVec 16) (s : State) : (s.toHost v).haltLine = s.haltLine := rfl

@[simp] theorem State.toHost_halted (v : BitVec 16) (s : State) : (s.toHost v).halted = s.halted := rfl

@[simp] theorem State.toHost_hostIrqCount (v : BitVec 16) (s : State) : (s.toHost v).hostIrqCount = s.hostIrqCount := rfl

@[simp] theorem State.toHost_fault (v : BitVec 16) (s : State) : (s.toHost v).fault = s.fault := rfl

@[simp] theorem State.toHost_log (v : BitVec 16) (s : State) : (s.toHost v).log = s.log := rfl

@[simp] theorem State.toHost_iram (v : BitVec 16) (s : State) : (s.toHost v).iram = s.iram := rfl

@[simp] theorem State.toHost_irom (v : BitVec 16) (s : State) : (s.toHost v).irom = s.irom := rfl

@[simp] theorem State.toHost_dram (v : BitVec 16) (s : State) : (s.toHost v).dram = s.dram := rfl

@[simp] theorem State.toHost_drom (v : BitVec 16) (s : State) : (s.toHost v).drom = s.drom := rfl

@[simp] theorem State.toHost_main (v : BitVec 16) (s : State) : (s.toHost v).main = s.main := rfl

@[simp] theorem State.toHost_cfg (v : BitVec 16) (s : State) : (s.toHost v).cfg = s.cfg := rfl

@[simp] theorem State.toHost_coreData (v : BitVec 16) (s : State) : (s.toHost v).coreData = s.coreData := rfl

@[simp] theorem State.toHost_hostData (v : BitVec 16) (s : State) : (s.toHost v).hostData = v := rfl

@[simp] theorem State.toHost_fetched (v : BitVec 16) (s : State) : (s.toHost v).fetched = s.fetched := rfl

@[simp] theorem State.toHost_program (v : BitVec 16) (s : State) : (s.toHost v).program = s.program := rfl

@[simp] theorem State.toHost_schedule (v : BitVec 16) (s : State) : (s.toHost v).schedule = s.schedule := rfl

/-! ### SR and the product register -/

@[simp] theorem State.setSr_alu (v : BitVec 16) (s : State) : (s.setSr v).alu = { s.alu with sr := v } := rfl

@[simp] theorem State.setSr_pc (v : BitVec 16) (s : State) : (s.setSr v).pc = s.pc := rfl

@[simp] theorem State.setSr_callStack (v : BitVec 16) (s : State) : (s.setSr v).callStack = s.callStack := rfl

@[simp] theorem State.setSr_dataStack (v : BitVec 16) (s : State) : (s.setSr v).dataStack = s.dataStack := rfl

@[simp] theorem State.setSr_coreFile (v : BitVec 16) (s : State) : (s.setSr v).coreFile = s.coreFile := rfl

@[simp] theorem State.setSr_cmb (v : BitVec 16) (s : State) : (s.setSr v).cmb = s.cmb := rfl

@[simp] theorem State.setSr_dmb (v : BitVec 16) (s : State) : (s.setSr v).dmb = s.dmb := rfl

@[simp] theorem State.setSr_dma (v : BitVec 16) (s : State) : (s.setSr v).dma = s.dma := rfl

@[simp] theorem State.setSr_accel (v : BitVec 16) (s : State) : (s.setSr v).accel = s.accel := rfl

@[simp] theorem State.setSr_intPending (v : BitVec 16) (s : State) : (s.setSr v).intPending = s.intPending := rfl

@[simp] theorem State.setSr_intCount (v : BitVec 16) (s : State) : (s.setSr v).intCount = s.intCount := rfl

@[simp] theorem State.setSr_srPending (v : BitVec 16) (s : State) : (s.setSr v).srPending = s.srPending := rfl

@[simp] theorem State.setSr_srCount (v : BitVec 16) (s : State) : (s.setSr v).srCount = s.srCount := rfl

@[simp] theorem State.setSr_resetLine (v : BitVec 16) (s : State) : (s.setSr v).resetLine = s.resetLine := rfl

@[simp] theorem State.setSr_haltLine (v : BitVec 16) (s : State) : (s.setSr v).haltLine = s.haltLine := rfl

@[simp] theorem State.setSr_halted (v : BitVec 16) (s : State) : (s.setSr v).halted = s.halted := rfl

@[simp] theorem State.setSr_hostIrqCount (v : BitVec 16) (s : State) : (s.setSr v).hostIrqCount = s.hostIrqCount := rfl

@[simp] theorem State.setSr_fault (v : BitVec 16) (s : State) : (s.setSr v).fault = s.fault := rfl

@[simp] theorem State.setSr_log (v : BitVec 16) (s : State) : (s.setSr v).log = s.log := rfl

@[simp] theorem State.setSr_iram (v : BitVec 16) (s : State) : (s.setSr v).iram = s.iram := rfl

@[simp] theorem State.setSr_irom (v : BitVec 16) (s : State) : (s.setSr v).irom = s.irom := rfl

@[simp] theorem State.setSr_dram (v : BitVec 16) (s : State) : (s.setSr v).dram = s.dram := rfl

@[simp] theorem State.setSr_drom (v : BitVec 16) (s : State) : (s.setSr v).drom = s.drom := rfl

@[simp] theorem State.setSr_main (v : BitVec 16) (s : State) : (s.setSr v).main = s.main := rfl

@[simp] theorem State.setSr_cfg (v : BitVec 16) (s : State) : (s.setSr v).cfg = s.cfg := rfl

@[simp] theorem State.setSr_coreData (v : BitVec 16) (s : State) : (s.setSr v).coreData = s.coreData := rfl

@[simp] theorem State.setSr_hostData (v : BitVec 16) (s : State) : (s.setSr v).hostData = s.hostData := rfl

@[simp] theorem State.setSr_fetched (v : BitVec 16) (s : State) : (s.setSr v).fetched = s.fetched := rfl

@[simp] theorem State.setSr_program (v : BitVec 16) (s : State) : (s.setSr v).program = s.program := rfl

@[simp] theorem State.setSr_schedule (v : BitVec 16) (s : State) : (s.setSr v).schedule = s.schedule := rfl

@[simp] theorem State.setProd_alu (p : ProdReg) (s : State) : (s.setProd p).alu = { s.alu with prod := p } := rfl

@[simp] theorem State.setProd_pc (p : ProdReg) (s : State) : (s.setProd p).pc = s.pc := rfl

@[simp] theorem State.setProd_callStack (p : ProdReg) (s : State) : (s.setProd p).callStack = s.callStack := rfl

@[simp] theorem State.setProd_dataStack (p : ProdReg) (s : State) : (s.setProd p).dataStack = s.dataStack := rfl

@[simp] theorem State.setProd_coreFile (p : ProdReg) (s : State) : (s.setProd p).coreFile = s.coreFile := rfl

@[simp] theorem State.setProd_cmb (p : ProdReg) (s : State) : (s.setProd p).cmb = s.cmb := rfl

@[simp] theorem State.setProd_dmb (p : ProdReg) (s : State) : (s.setProd p).dmb = s.dmb := rfl

@[simp] theorem State.setProd_dma (p : ProdReg) (s : State) : (s.setProd p).dma = s.dma := rfl

@[simp] theorem State.setProd_accel (p : ProdReg) (s : State) : (s.setProd p).accel = s.accel := rfl

@[simp] theorem State.setProd_intPending (p : ProdReg) (s : State) : (s.setProd p).intPending = s.intPending := rfl

@[simp] theorem State.setProd_intCount (p : ProdReg) (s : State) : (s.setProd p).intCount = s.intCount := rfl

@[simp] theorem State.setProd_srPending (p : ProdReg) (s : State) : (s.setProd p).srPending = s.srPending := rfl

@[simp] theorem State.setProd_srCount (p : ProdReg) (s : State) : (s.setProd p).srCount = s.srCount := rfl

@[simp] theorem State.setProd_resetLine (p : ProdReg) (s : State) : (s.setProd p).resetLine = s.resetLine := rfl

@[simp] theorem State.setProd_haltLine (p : ProdReg) (s : State) : (s.setProd p).haltLine = s.haltLine := rfl

@[simp] theorem State.setProd_halted (p : ProdReg) (s : State) : (s.setProd p).halted = s.halted := rfl

@[simp] theorem State.setProd_hostIrqCount (p : ProdReg) (s : State) : (s.setProd p).hostIrqCount = s.hostIrqCount := rfl

@[simp] theorem State.setProd_fault (p : ProdReg) (s : State) : (s.setProd p).fault = s.fault := rfl

@[simp] theorem State.setProd_log (p : ProdReg) (s : State) : (s.setProd p).log = s.log := rfl

@[simp] theorem State.setProd_iram (p : ProdReg) (s : State) : (s.setProd p).iram = s.iram := rfl

@[simp] theorem State.setProd_irom (p : ProdReg) (s : State) : (s.setProd p).irom = s.irom := rfl

@[simp] theorem State.setProd_dram (p : ProdReg) (s : State) : (s.setProd p).dram = s.dram := rfl

@[simp] theorem State.setProd_drom (p : ProdReg) (s : State) : (s.setProd p).drom = s.drom := rfl

@[simp] theorem State.setProd_main (p : ProdReg) (s : State) : (s.setProd p).main = s.main := rfl

@[simp] theorem State.setProd_cfg (p : ProdReg) (s : State) : (s.setProd p).cfg = s.cfg := rfl

@[simp] theorem State.setProd_coreData (p : ProdReg) (s : State) : (s.setProd p).coreData = s.coreData := rfl

@[simp] theorem State.setProd_hostData (p : ProdReg) (s : State) : (s.setProd p).hostData = s.hostData := rfl

@[simp] theorem State.setProd_fetched (p : ProdReg) (s : State) : (s.setProd p).fetched = s.fetched := rfl

@[simp] theorem State.setProd_program (p : ProdReg) (s : State) : (s.setProd p).program = s.program := rfl

@[simp] theorem State.setProd_schedule (p : ProdReg) (s : State) : (s.setProd p).schedule = s.schedule := rfl

/-! ### The accumulators -/

@[simp] theorem State.setAcc_pc (d : AccId) (v : Acc) (s : State) : (s.setAcc d v).pc = s.pc := by cases d <;> rfl

@[simp] theorem State.setAcc_callStack (d : AccId) (v : Acc) (s : State) : (s.setAcc d v).callStack = s.callStack := by cases d <;> rfl

@[simp] theorem State.setAcc_dataStack (d : AccId) (v : Acc) (s : State) : (s.setAcc d v).dataStack = s.dataStack := by cases d <;> rfl

@[simp] theorem State.setAcc_coreFile (d : AccId) (v : Acc) (s : State) : (s.setAcc d v).coreFile = s.coreFile := by cases d <;> rfl

@[simp] theorem State.setAcc_cmb (d : AccId) (v : Acc) (s : State) : (s.setAcc d v).cmb = s.cmb := by cases d <;> rfl

@[simp] theorem State.setAcc_dmb (d : AccId) (v : Acc) (s : State) : (s.setAcc d v).dmb = s.dmb := by cases d <;> rfl

@[simp] theorem State.setAcc_dma (d : AccId) (v : Acc) (s : State) : (s.setAcc d v).dma = s.dma := by cases d <;> rfl

@[simp] theorem State.setAcc_accel (d : AccId) (v : Acc) (s : State) : (s.setAcc d v).accel = s.accel := by cases d <;> rfl

@[simp] theorem State.setAcc_intPending (d : AccId) (v : Acc) (s : State) : (s.setAcc d v).intPending = s.intPending := by cases d <;> rfl

@[simp] theorem State.setAcc_intCount (d : AccId) (v : Acc) (s : State) : (s.setAcc d v).intCount = s.intCount := by cases d <;> rfl

@[simp] theorem State.setAcc_srPending (d : AccId) (v : Acc) (s : State) : (s.setAcc d v).srPending = s.srPending := by cases d <;> rfl

@[simp] theorem State.setAcc_srCount (d : AccId) (v : Acc) (s : State) : (s.setAcc d v).srCount = s.srCount := by cases d <;> rfl

@[simp] theorem State.setAcc_resetLine (d : AccId) (v : Acc) (s : State) : (s.setAcc d v).resetLine = s.resetLine := by cases d <;> rfl

@[simp] theorem State.setAcc_haltLine (d : AccId) (v : Acc) (s : State) : (s.setAcc d v).haltLine = s.haltLine := by cases d <;> rfl

@[simp] theorem State.setAcc_halted (d : AccId) (v : Acc) (s : State) : (s.setAcc d v).halted = s.halted := by cases d <;> rfl

@[simp] theorem State.setAcc_hostIrqCount (d : AccId) (v : Acc) (s : State) : (s.setAcc d v).hostIrqCount = s.hostIrqCount := by cases d <;> rfl

@[simp] theorem State.setAcc_fault (d : AccId) (v : Acc) (s : State) : (s.setAcc d v).fault = s.fault := by cases d <;> rfl

@[simp] theorem State.setAcc_log (d : AccId) (v : Acc) (s : State) : (s.setAcc d v).log = s.log := by cases d <;> rfl

@[simp] theorem State.setAcc_iram (d : AccId) (v : Acc) (s : State) : (s.setAcc d v).iram = s.iram := by cases d <;> rfl

@[simp] theorem State.setAcc_irom (d : AccId) (v : Acc) (s : State) : (s.setAcc d v).irom = s.irom := by cases d <;> rfl

@[simp] theorem State.setAcc_dram (d : AccId) (v : Acc) (s : State) : (s.setAcc d v).dram = s.dram := by cases d <;> rfl

@[simp] theorem State.setAcc_drom (d : AccId) (v : Acc) (s : State) : (s.setAcc d v).drom = s.drom := by cases d <;> rfl

@[simp] theorem State.setAcc_main (d : AccId) (v : Acc) (s : State) : (s.setAcc d v).main = s.main := by cases d <;> rfl

@[simp] theorem State.setAcc_cfg (d : AccId) (v : Acc) (s : State) : (s.setAcc d v).cfg = s.cfg := by cases d <;> rfl

@[simp] theorem State.setAcc_coreData (d : AccId) (v : Acc) (s : State) : (s.setAcc d v).coreData = s.coreData := by cases d <;> rfl

@[simp] theorem State.setAcc_hostData (d : AccId) (v : Acc) (s : State) : (s.setAcc d v).hostData = s.hostData := by cases d <;> rfl

@[simp] theorem State.setAcc_fetched (d : AccId) (v : Acc) (s : State) : (s.setAcc d v).fetched = s.fetched := by cases d <;> rfl

@[simp] theorem State.setAcc_program (d : AccId) (v : Acc) (s : State) : (s.setAcc d v).program = s.program := by cases d <;> rfl

@[simp] theorem State.setAcc_schedule (d : AccId) (v : Acc) (s : State) : (s.setAcc d v).schedule = s.schedule := by cases d <;> rfl

@[simp] theorem State.setAx_pc (x : AxId) (v : BitVec 32) (s : State) : (s.setAx x v).pc = s.pc := by cases x <;> rfl

@[simp] theorem State.setAx_callStack (x : AxId) (v : BitVec 32) (s : State) : (s.setAx x v).callStack = s.callStack := by cases x <;> rfl

@[simp] theorem State.setAx_dataStack (x : AxId) (v : BitVec 32) (s : State) : (s.setAx x v).dataStack = s.dataStack := by cases x <;> rfl

@[simp] theorem State.setAx_coreFile (x : AxId) (v : BitVec 32) (s : State) : (s.setAx x v).coreFile = s.coreFile := by cases x <;> rfl

@[simp] theorem State.setAx_cmb (x : AxId) (v : BitVec 32) (s : State) : (s.setAx x v).cmb = s.cmb := by cases x <;> rfl

@[simp] theorem State.setAx_dmb (x : AxId) (v : BitVec 32) (s : State) : (s.setAx x v).dmb = s.dmb := by cases x <;> rfl

@[simp] theorem State.setAx_dma (x : AxId) (v : BitVec 32) (s : State) : (s.setAx x v).dma = s.dma := by cases x <;> rfl

@[simp] theorem State.setAx_accel (x : AxId) (v : BitVec 32) (s : State) : (s.setAx x v).accel = s.accel := by cases x <;> rfl

@[simp] theorem State.setAx_intPending (x : AxId) (v : BitVec 32) (s : State) : (s.setAx x v).intPending = s.intPending := by cases x <;> rfl

@[simp] theorem State.setAx_intCount (x : AxId) (v : BitVec 32) (s : State) : (s.setAx x v).intCount = s.intCount := by cases x <;> rfl

@[simp] theorem State.setAx_srPending (x : AxId) (v : BitVec 32) (s : State) : (s.setAx x v).srPending = s.srPending := by cases x <;> rfl

@[simp] theorem State.setAx_srCount (x : AxId) (v : BitVec 32) (s : State) : (s.setAx x v).srCount = s.srCount := by cases x <;> rfl

@[simp] theorem State.setAx_resetLine (x : AxId) (v : BitVec 32) (s : State) : (s.setAx x v).resetLine = s.resetLine := by cases x <;> rfl

@[simp] theorem State.setAx_haltLine (x : AxId) (v : BitVec 32) (s : State) : (s.setAx x v).haltLine = s.haltLine := by cases x <;> rfl

@[simp] theorem State.setAx_halted (x : AxId) (v : BitVec 32) (s : State) : (s.setAx x v).halted = s.halted := by cases x <;> rfl

@[simp] theorem State.setAx_hostIrqCount (x : AxId) (v : BitVec 32) (s : State) : (s.setAx x v).hostIrqCount = s.hostIrqCount := by cases x <;> rfl

@[simp] theorem State.setAx_fault (x : AxId) (v : BitVec 32) (s : State) : (s.setAx x v).fault = s.fault := by cases x <;> rfl

@[simp] theorem State.setAx_log (x : AxId) (v : BitVec 32) (s : State) : (s.setAx x v).log = s.log := by cases x <;> rfl

@[simp] theorem State.setAx_iram (x : AxId) (v : BitVec 32) (s : State) : (s.setAx x v).iram = s.iram := by cases x <;> rfl

@[simp] theorem State.setAx_irom (x : AxId) (v : BitVec 32) (s : State) : (s.setAx x v).irom = s.irom := by cases x <;> rfl

@[simp] theorem State.setAx_dram (x : AxId) (v : BitVec 32) (s : State) : (s.setAx x v).dram = s.dram := by cases x <;> rfl

@[simp] theorem State.setAx_drom (x : AxId) (v : BitVec 32) (s : State) : (s.setAx x v).drom = s.drom := by cases x <;> rfl

@[simp] theorem State.setAx_main (x : AxId) (v : BitVec 32) (s : State) : (s.setAx x v).main = s.main := by cases x <;> rfl

@[simp] theorem State.setAx_cfg (x : AxId) (v : BitVec 32) (s : State) : (s.setAx x v).cfg = s.cfg := by cases x <;> rfl

@[simp] theorem State.setAx_coreData (x : AxId) (v : BitVec 32) (s : State) : (s.setAx x v).coreData = s.coreData := by cases x <;> rfl

@[simp] theorem State.setAx_hostData (x : AxId) (v : BitVec 32) (s : State) : (s.setAx x v).hostData = s.hostData := by cases x <;> rfl

@[simp] theorem State.setAx_fetched (x : AxId) (v : BitVec 32) (s : State) : (s.setAx x v).fetched = s.fetched := by cases x <;> rfl

@[simp] theorem State.setAx_program (x : AxId) (v : BitVec 32) (s : State) : (s.setAx x v).program = s.program := by cases x <;> rfl

@[simp] theorem State.setAx_schedule (x : AxId) (v : BitVec 32) (s : State) : (s.setAx x v).schedule = s.schedule := by cases x <;> rfl

/-! ### The accumulators, the slices and SR after an update -/

@[simp] theorem State.acc_setAcc_same (d : AccId) (v : Acc) (s : State) : (s.setAcc d v).acc d = v := by
  cases d <;> rfl

@[simp] theorem State.acc_setAcc_other (d : AccId) (v : Acc) (s : State) :
    (s.setAcc d v).acc d.other = s.acc d.other := by
  cases d <;> rfl

@[simp] theorem State.acc_setSr (d : AccId) (v : BitVec 16) (s : State) : (s.setSr v).acc d = s.acc d := by
  cases d <;> rfl

@[simp] theorem State.acc_setProd (d : AccId) (p : ProdReg) (s : State) : (s.setProd p).acc d = s.acc d := by
  cases d <;> rfl

@[simp] theorem State.ax_setAx_same (x : AxId) (v : BitVec 32) (s : State) : (s.setAx x v).ax x = v := by
  cases x <;> rfl

@[simp] theorem State.acc_setAx (d : AccId) (x : AxId) (v : BitVec 32) (s : State) :
    (s.setAx x v).acc d = s.acc d := by
  cases x <;> cases d <;> rfl

@[simp] theorem State.setAcc_sr (d : AccId) (v : Acc) (s : State) : (s.setAcc d v).alu.sr = s.alu.sr := by
  cases d <;> rfl

@[simp] theorem State.setAcc_prod (d : AccId) (v : Acc) (s : State) : (s.setAcc d v).alu.prod = s.alu.prod := by
  cases d <;> rfl

@[simp] theorem State.setAcc_ax0 (d : AccId) (v : Acc) (s : State) : (s.setAcc d v).alu.ax0 = s.alu.ax0 := by
  cases d <;> rfl

@[simp] theorem State.setAcc_ax1 (d : AccId) (v : Acc) (s : State) : (s.setAcc d v).alu.ax1 = s.alu.ax1 := by
  cases d <;> rfl

@[simp] theorem State.setAx_sr (x : AxId) (v : BitVec 32) (s : State) : (s.setAx x v).alu.sr = s.alu.sr := by
  cases x <;> rfl

@[simp] theorem State.setAx_prod (x : AxId) (v : BitVec 32) (s : State) : (s.setAx x v).alu.prod = s.alu.prod := by
  cases x <;> rfl

/-! ### Mailboxes and stacks -/

@[simp] theorem State.mailbox_setMailbox (m : MailboxId) (b : Mailbox) (s : State) :
    (s.setMailbox m b).mailbox m = b := by
  cases m <;> rfl

@[simp] theorem State.stack_setStack (st : StackId) (l : List (BitVec 16)) (s : State) :
    (s.setStack st l).stack st = l := by
  cases st <;> rfl

@[simp] theorem State.mem_setMem (r : Region) (m : Memory) (s : State) : (s.setMem r m).mem r = m := by
  cases r <;> rfl

theorem State.mem_setMem_ne {r q : Region} (h : q ≠ r) (m : Memory) (s : State) : (s.setMem r m).mem q = s.mem q := by
  cases r <;> cases q <;> first | rfl | exact absurd rfl h

end Sys2Proof.Machine
end

