-- ==== Sys2Proof/Laws/Operands.lean ====
section
/-! SUPPORT. The operand forms against the integers the rules speak of, the slice views, and what each shared ALU
operation does: one lemma per operation. -/

namespace Sys2Proof.Machine

open Sys2Proof.Claim

/-! ### Slices (10_state.md R24, R25, R248) -/

@[simp] theorem accL_mkAcc (h : BitVec 8) (m l : BitVec 16) : accL (mkAcc h m l) = l := by
  apply BitVec.eq_of_getLsbD_eq; intro i hi
  simp only [accL, mkAcc, BitVec.getLsbD_extractLsb', BitVec.getLsbD_append]
  simp [hi]

@[simp] theorem accM_mkAcc (h : BitVec 8) (m l : BitVec 16) : accM (mkAcc h m l) = m := by
  apply BitVec.eq_of_getLsbD_eq; intro i hi
  have h1 : ¬16 + i < 16 := by omega
  simp only [accM, mkAcc, BitVec.getLsbD_extractLsb', BitVec.getLsbD_append]
  simp [hi, h1]

@[simp] theorem accH_mkAcc (h : BitVec 8) (m l : BitVec 16) : accH (mkAcc h m l) = h := by
  apply BitVec.eq_of_getLsbD_eq; intro i hi
  have h1 : ¬32 + i < 16 := by omega
  have h2 : ¬32 + i - 16 < 16 := by omega
  have h3 : 32 + i - 16 - 16 = i := by omega
  simp only [accH, mkAcc, BitVec.getLsbD_extractLsb', BitVec.getLsbD_append]
  simp [hi, h1, h2, h3]

/-- The slices put together are the accumulator. -/
theorem mkAcc_slices (a : Acc) : mkAcc (accH a) (accM a) (accL a) = a := by
  apply BitVec.eq_of_getLsbD_eq; intro i hi
  simp only [mkAcc, accH, accM, accL, BitVec.getLsbD_append, BitVec.getLsbD_extractLsb']
  by_cases h1 : i < 16
  · simp [h1]
  · by_cases h2 : i - 16 < 16
    · have : 16 + (i - 16) = i := by omega
      simp [h1, h2, this]
    · have h3 : 32 + (i - 16 - 16) = i := by omega
      have h4 : i - 16 - 16 < 8 := by omega
      simp [h1, h2, h3, h4]

/-! ### Operand values (R26, R107, R132, R27) -/

theorem toInt16_bounds (w : BitVec 16) : -2 ^ 15 ≤ w.toInt ∧ w.toInt < 2 ^ 15 :=
  ⟨by have := BitVec.le_toInt w; simpa using this, by have := BitVec.toInt_lt (x := w); simpa using this⟩

theorem toInt32_bounds (w : BitVec 32) : -2 ^ 31 ≤ w.toInt ∧ w.toInt < 2 ^ 31 :=
  ⟨by have := BitVec.le_toInt w; simpa using this, by have := BitVec.toInt_lt (x := w); simpa using this⟩

theorem toInt8_bounds (w : BitVec 8) : -2 ^ 7 ≤ w.toInt ∧ w.toInt < 2 ^ 7 :=
  ⟨by have := BitVec.le_toInt w; simpa using this, by have := BitVec.toInt_lt (x := w); simpa using this⟩

theorem hi16_toInt (w : BitVec 16) : (hi16 w).toInt = hi w := by
  have := toInt16_bounds w
  rw [hi16, wrap40_toInt]
  exact wrap_of_bounds (by omega) (by omega)

theorem hi8_toInt (b : BitVec 8) : (hi8 b).toInt = b.toInt * 2 ^ 16 := by
  have := toInt8_bounds b
  rw [hi8, wrap40_toInt]
  exact wrap_of_bounds (by omega) (by omega)

theorem axAcc_toInt (x : AxId) (s : State) : (s.axAcc x).toInt = axVal s x := by
  have := toInt32_bounds (s.ax x)
  rw [State.axAcc, wrap40_toInt, wrap_of_bounds (by omega) (by omega)]
  cases x <;> rfl

theorem prod_toInt (s : State) : s.prod.toInt = prodVal s := by rw [State.prod, ProdReg.value, wrap40_toInt]; rfl

theorem axReg_word (r : AxReg) (s : State) : s.axReg r = axWord s r := by cases r <;> rfl

theorem axLow_word (x : AxId) (s : State) : s.axLow x = axL s x := by cases x <;> rfl

theorem axHigh_word (x : AxId) (s : State) : s.axHigh x = axH s x := by cases x <;> rfl

/-! ### Products (42_alu_multiply.md R210 to R216) -/

theorem mulAx_eq (x : AxId) (s : State) : s.mulAx x = mulAx s x := by cases x <;> rfl

theorem mulC_eq (d : AccId) (x : AxId) (s : State) : s.mulC d x = mulAcc s d x := by cases d <;> cases x <;> rfl

theorem mulX_eq (h0 h1 : AxHalf) (s : State) : s.mulX h0 h1 = mulHalves s h0 h1 := by
  unfold State.mulX mult mulxKind mulHalves scaled
  cases h0 <;> cases h1 <;> cases h : s.alu.sr.getLsbD 15 <;>
    simp only [State.mulxOperands, State.axHalf, axLow_word, axHigh_word, srGet, Flag.bit, h, if_true,
      Bool.false_eq_true, if_false, Int.mul_comm (axL s .ax1).toInt]

/-! ### Shifts (R181) -/

theorem shl_toInt (a : Acc) (n : Nat) : (shl a n).toInt = wrap (u40 a.toInt * 2 ^ n) := by
  rw [shl, wrap40_toInt, u40_acc]

theorem shrl_toInt (a : Acc) (n : Nat) : (shrl a n).toInt = wrap (u40 a.toInt / 2 ^ n) := by
  rw [shrl, wrap40_toInt, u40_acc]; norm_cast

/-- An arithmetic shift right stays in range. -/
theorem shra_toInt (a : Acc) (n : Nat) : (shra a n).toInt = a.toInt / 2 ^ n := by
  have hb := acc_toInt_bounds a
  have hp : (0 : Int) < 2 ^ n := by positivity
  have h1 : (1 : Int) ≤ 2 ^ n := hp
  rw [shra, wrap40_toInt]
  refine wrap_of_bounds ?_ ?_
  · refine (Int.le_ediv_iff_mul_le hp).2 ?_
    nlinarith
  · exact Int.ediv_lt_of_lt_mul hp (by nlinarith)

/-! ### The product register (R27, R28) -/

theorem packProd_value (v : Acc) : (packProd v).value = v := by
  apply BitVec.eq_of_toInt_eq
  rw [ProdReg.value, wrap40_toInt]
  unfold packProd
  simp only [BitVec.toInt_eq_toNat_cond (x := v.extractLsb' 32 8), BitVec.extractLsb'_toNat,
    BitVec.toInt_eq_toNat_cond (x := v)]
  have := v.isLt
  have h0 : BitVec.toNat (0 : BitVec 16) = 0 := rfl
  simp only [Nat.shiftRight_eq_div_pow, h0]
  unfold wrap
  norm_num
  split <;> split <;> (simp only [Int.bmod]; split <;> omega)

/-! ### What the shared operations do -/

theorem sameBytes_of_mems {s t : State} (h1 : t.iram = s.iram) (h2 : t.irom = s.irom) (h3 : t.dram = s.dram)
    (h4 : t.drom = s.drom) (h5 : t.main = s.main) : SameBytes s t := by
  intro r a
  cases r <;> simp [State.readByte, State.mem, h1, h2, h3, h4, h5]

theorem onlyAccSr_setAcc_setSr (d : AccId) (v : Acc) (sr : BitVec 16) (s : State) :
    OnlyAccSr d s ((s.setAcc d v).setSr sr) := by
  refine ⟨by cases d <;> rfl, by cases d <;> rfl, by cases d <;> rfl, by cases d <;> rfl, by cases d <;> rfl, ?_⟩
  exact sameBytes_of_mems (by simp) (by simp) (by simp) (by simp) (by simp)

theorem onlySr_setSr (v : BitVec 16) (s : State) : OnlySr s (s.setSr v) :=
  ⟨rfl, sameBytes_of_mems rfl rfl rfl rfl rfl⟩

theorem onlyProd_setProd (p : ProdReg) (s : State) : OnlyProd s (s.setProd p) :=
  ⟨rfl, sameBytes_of_mems rfl rfl rfl rfl rfl⟩

/-- `addInto` (40_alu_arith.md R132). -/
theorem addInto_adds (d : AccId) (b : Acc) (s : State) : Adds d b.toInt s (.next (s.addInto d b)) := by
  refine ⟨_, rfl, ?_, ?_, onlyAccSr_setAcc_setSr _ _ _ _⟩
  · rw [accVal, State.addInto, State.acc_setSr, State.acc_setAcc_same, wrap40_toInt]; rfl
  · rw [State.addInto, State.acc_setSr, State.acc_setAcc_same]
    exact flags40_imp (flags40_spec _ _ _ _) (addC_iff _ _) (addO_iff _ _)

/-- `subInto` and the subtraction of NEG (R132, R148). -/
theorem subOf_subtracts (d : AccId) (a b : Acc) (s : State) :
    Subtracts d a.toInt b.toInt s (.next (s.subOf d a b)) := by
  refine ⟨_, rfl, ?_, ?_, onlyAccSr_setAcc_setSr _ _ _ _⟩
  · rw [accVal, State.subOf, State.acc_setSr, State.acc_setAcc_same, wrap40_toInt]
  · rw [State.subOf, State.acc_setSr, State.acc_setAcc_same]
    exact flags40_imp (flags40_spec _ _ _ _) (subC_iff _ _) (subO_iff _ _)

/-- A comparison (R150, R151). -/
theorem compare_compares (a b : Acc) (s : State) : Compares a.toInt b.toInt s (.next (s.compare a b)) :=
  ⟨_, wrap40 (a.toInt - b.toInt), rfl, wrap40_toInt _,
    flags40_imp (flags40_spec _ _ _ _) (subC_iff _ _) (subO_iff _ _), onlySr_setSr _ _⟩

/-- `setAcc` (R132). -/
theorem moveInto_moves (d : AccId) (v : Acc) (s : State) : Moves d v.toInt s (.next (s.moveInto d v)) := by
  refine ⟨_, rfl, ?_, ?_, onlyAccSr_setAcc_setSr _ _ _ _⟩
  · rw [accVal, State.moveInto, State.acc_setSr, State.acc_setAcc_same, wrap_acc]
  · rw [State.moveInto, State.acc_setSr, State.acc_setAcc_same]
    exact flags40_imp (flags40_spec _ _ _ _) (by simp) (by simp)

/-- A logic operation (41_alu_logic_shift.md R180). -/
theorem logicInto_logics (d : AccId) (w : BitVec 16) (s : State) : Logics d w s (.next (s.logicInto d w)) := by
  have hacc : (s.logicInto d w).acc d = mkAcc (accH (s.acc d)) w (accL (s.acc d)) := by
    rw [State.logicInto, State.acc_setSr, State.acc_setAcc_same]
  refine ⟨_, rfl, ?_, ?_, ?_, ?_, onlyAccSr_setAcc_setSr _ _ _ _⟩
  · rw [accMid, hacc]; exact accM_mkAcc _ _ _
  · rw [hacc]; exact accL_mkAcc _ _ _
  · rw [hacc]; exact accH_mkAcc _ _ _
  · rw [accVal, hacc]
    refine flags16_imp (flags16_spec s.alu.sr w _) ?_
    rw [← fits32_iff]; simp

/-- `storeProd` (10_state.md R28). -/
theorem storeProd_stores (v : Int) (s : State) : StoresProd v s (.next (s.storeProd v)) := by
  have hp : (s.storeProd v).alu.prod = packProd (wrap40 v) := rfl
  refine ⟨_, rfl, ?_, ?_, ?_, ?_, rfl, onlyProd_setProd _ _⟩
  · rw [← prod_toInt, State.prod, hp, packProd_value, wrap40_toInt]
  · rw [hp]
    apply BitVec.eq_of_toNat_eq
    simp only [packProd, wrap40, BitVec.extractLsb'_toNat, BitVec.toNat_ofInt]
    omega
  · rw [hp]
    apply BitVec.eq_of_toNat_eq
    simp only [packProd, wrap40, BitVec.extractLsb'_toNat, BitVec.toNat_ofInt, Nat.shiftRight_eq_div_pow]
    omega
  · rw [hp]
    apply BitVec.eq_of_toNat_eq
    simp only [packProd, wrap40, BitVec.extractLsb'_toNat, BitVec.toNat_ofInt, Nat.shiftRight_eq_div_pow]
    omega

/-- A mode command (43_alu_regs_modes.md R240 to R244). -/
theorem putFlag_sets (f : Flag) (b : Bool) (s : State) : SetsBit f.bit b s (.next (s.putFlag f b)) :=
  ⟨_, rfl, srPut_onlyBit _ _ _, onlySr_setSr _ _⟩

end Sys2Proof.Machine
end

