-- ==== Sys2Proof/Laws/Ops.lean ====
section
/-! SUPPORT. What each shared operation beyond the ALU does, said once: mailboxes, stacks, exceptions, the memories, the
DMA check and the stream. -/

namespace Sys2Proof.Machine

open Sys2Proof.Claim

/-! ### Mailboxes (44_mailbox.md R272 to R274) -/

theorem State.sendHigh_cmb (v : BitVec 16) (s : State) :
    s.sendHigh .cmb v =
      { s with
        cmb := { s.cmb with hi := v.extractLsb' 0 15, ready := false }
        log := s.log ++ (if s.cmb.ready then [.mailboxOverwrite .cmb] else []) } := by
  cases h : s.cmb.ready <;>
    simp [State.sendHigh, State.reportOverwrite, State.setMailbox, State.mailbox, State.report, h]

theorem State.sendHigh_dmb (v : BitVec 16) (s : State) :
    s.sendHigh .dmb v =
      { s with
        dmb := { s.dmb with hi := v.extractLsb' 0 15, ready := false }
        log := s.log ++ (if s.dmb.ready then [.mailboxOverwrite .dmb] else []) } := by
  cases h : s.dmb.ready <;>
    simp [State.sendHigh, State.reportOverwrite, State.setMailbox, State.mailbox, State.report, h]

theorem State.sendLow_cmb (v : BitVec 16) (s : State) :
    s.sendLow .cmb v =
      { s with
        cmb := { s.cmb with lo := v, ready := true }
        log := s.log ++ (if s.cmb.ready then [.mailboxOverwrite .cmb] else []) } := by
  cases h : s.cmb.ready <;>
    simp [State.sendLow, State.reportOverwrite, State.setMailbox, State.mailbox, State.report, h]

theorem State.sendLow_dmb (v : BitVec 16) (s : State) :
    s.sendLow .dmb v =
      { s with
        dmb := { s.dmb with lo := v, ready := true }
        log := s.log ++ (if s.dmb.ready then [.mailboxOverwrite .dmb] else []) } := by
  cases h : s.dmb.ready <;>
    simp [State.sendLow, State.reportOverwrite, State.setMailbox, State.mailbox, State.report, h]

/-- The high word as a number (R275). -/
theorem Mailbox.high_eq (b : Mailbox) : b.high = BitVec.ofNat 16 (highWord b) := by
  obtain ⟨hi, lo, ready⟩ := b
  apply BitVec.eq_of_toNat_eq
  have hlt := hi.isLt
  have e : ∀ c : BitVec 1, (c ++ hi).toNat = c.toNat * 2 ^ 15 + hi.toNat := fun c => by
    rw [BitVec.toNat_append, Nat.shiftLeft_eq, Nat.mul_comm]
    exact (Nat.two_pow_add_eq_or_of_lt hlt c.toNat).symm
  have h0 : (BitVec.ofBool false).toNat = 0 := rfl
  have h1 : (BitVec.ofBool true).toNat = 1 := rfl
  rw [Mailbox.high, e, BitVec.toNat_ofNat, highWord]
  cases ready
  · simp only [h0, Bool.false_eq_true, if_false]; omega
  · simp only [h1, if_true]; omega

/-! ### 32-bit values as two halves (20_memory.md R83) -/

theorem highHalf_eq (x : BitVec 32) : highHalf x = highOf x := by
  apply BitVec.eq_of_toNat_eq
  rw [highHalf, highOf, BitVec.extractLsb'_toNat, BitVec.toNat_ofNat, Nat.shiftRight_eq_div_pow]

theorem lowHalf_eq (x : BitVec 32) : lowHalf x = lowOf x := by
  apply BitVec.eq_of_toNat_eq
  rw [lowHalf, lowOf, BitVec.extractLsb'_toNat, BitVec.toNat_ofNat, Nat.shiftRight_zero]

theorem append_toNat (a b : BitVec 16) : (a ++ b).toNat = a.toNat * 2 ^ 16 + b.toNat := by
  rw [BitVec.toNat_append, Nat.shiftLeft_eq, Nat.mul_comm]
  exact (Nat.two_pow_add_eq_or_of_lt b.isLt a.toNat).symm

theorem putHigh_eq (x : BitVec 32) (v : BitVec 16) : putHigh x v = withHigh x v := by
  apply BitVec.eq_of_toNat_eq
  have := v.isLt
  rw [putHigh, withHigh, append_toNat, lowHalf, BitVec.extractLsb'_toNat, BitVec.toNat_ofNat, Nat.shiftRight_zero]
  omega

theorem putLow_eq (x : BitVec 32) (v : BitVec 16) : putLow x v = withLow x v := by
  apply BitVec.eq_of_toNat_eq
  have := v.isLt
  have := x.isLt
  rw [putLow, withLow, append_toNat, highHalf, BitVec.extractLsb'_toNat, BitVec.toNat_ofNat, Nat.shiftRight_eq_div_pow]
  omega

/-! ### Addresses (20_memory.md R71, R72) -/

theorem itrans_ram {a : Nat} (h : a < 0x1000) : itrans a = some (.iram, a) := by
  unfold itrans; rw [if_pos (by omega)]

theorem itrans_rom {a : Nat} (h1 : 0x8000 ≤ a) (h2 : a < 0x9000) : itrans a = some (.irom, a - 0x8000) := by
  unfold itrans; rw [if_neg (by omega), if_pos (by omega)]

theorem itrans_none {a : Nat} (h : ¬ReadableAddr true a) : itrans a = none := by
  unfold ReadableAddr at h; unfold itrans; rw [if_neg (by omega), if_neg (by omega)]

theorem dtrans_ram {a : Nat} (h : a < 0x1000) : dtrans a = .slot .dram a := by
  unfold dtrans; rw [if_pos (by omega)]

theorem dtrans_drom {a : Nat} (h1 : 0x1000 ≤ a) (h2 : a < 0x1800) : dtrans a = .slot .drom (a - 0x1000) := by
  unfold dtrans; rw [if_neg (by omega), if_pos (by omega)]

theorem dtrans_irom {a : Nat} (h1 : 0x8000 ≤ a) (h2 : a < 0x9000) : dtrans a = .slot .irom (a - 0x8000) := by
  unfold dtrans; rw [if_neg (by omega), if_neg (by omega), if_pos (by omega)]

/-- A readable slot of either space and where it lies. -/
theorem dmaSlot_readable {imem : Bool} {a : Nat} (h : ReadableAddr imem a) :
    ∃ r k, dmaSlot imem a = some (r, k) ∧ r ≠ .main ∧ ∀ s : State, slotAt s imem a = s.slot r k := by
  unfold ReadableAddr at h
  rcases h with h | ⟨hi, h⟩ | ⟨h1, h2⟩
  · cases imem
    · exact ⟨.dram, a, by simp [dmaSlot, dtrans_ram h], by simp, fun s => by simp [slotAt, h]⟩
    · exact ⟨.iram, a, by simp [dmaSlot, itrans_ram h], by simp, fun s => by simp [slotAt, h]⟩
  · subst hi
    by_cases h0 : a < 0x1000
    · exact ⟨.dram, a, by simp [dmaSlot, dtrans_ram h0], by simp, fun s => by simp [slotAt, h0]⟩
    · exact ⟨.drom, a - 0x1000, by simp [dmaSlot, dtrans_drom (by omega) h], by simp,
        fun s => by simp [slotAt, h0, h]⟩
  · have h0 : ¬a < 0x1000 := by omega
    have h3 : ¬a < 0x1800 := by omega
    cases imem
    · exact ⟨.irom, a - 0x8000, by simp [dmaSlot, dtrans_irom h1 h2], by simp, fun s => by simp [slotAt, h0, h3]⟩
    · exact ⟨.irom, a - 0x8000, by simp [dmaSlot, itrans_rom h1 h2], by simp, fun s => by simp [slotAt, h0, h3]⟩

/-- An address outside `ReadableAddr` is no slot. -/
theorem dmaSlot_none {imem : Bool} {a : Nat} (h : ¬ReadableAddr imem a) : dmaSlot imem a = none := by
  unfold ReadableAddr at h
  cases imem
  · have h1 : ¬a ≤ 0x0FFF := by omega
    have h2 : ¬a ≤ 0x17FF := by simp at h; omega
    have h3 : ¬(0x8000 ≤ a ∧ a ≤ 0x8FFF) := by omega
    by_cases h4 : 0xFF00 ≤ a ∧ a ≤ 0xFFFF
    · simp only [dmaSlot, dtrans, h1, h2, h3, h4, if_false]; simp
    · simp only [dmaSlot, dtrans, h1, h2, h3, h4, if_false]; simp
  · simp only [dmaSlot, if_true]
    exact itrans_none (by unfold ReadableAddr; exact h)

/-- The only RAM slots of either space are its first 4096. -/
theorem dmaSlot_ram {imem : Bool} {a : Nat} {r : Region} {k : Nat} (h : dmaSlot imem a = some (r, k)) :
    (r.isRam = true ↔ RamAddr a) ∧ (RamAddr a → k = a ∧ r = if imem then .iram else .dram) := by
  by_cases hr : ReadableAddr imem a
  · unfold ReadableAddr at hr
    unfold RamAddr
    cases imem
    · by_cases h0 : a < 0x1000
      · simp only [dmaSlot, dtrans_ram h0] at h
        cases h; simp [h0, Region.isRam]
      · by_cases h1 : a < 0x1800
        · simp only [dmaSlot, dtrans_drom (by omega) h1] at h
          cases h; simp [h0, Region.isRam]
        · simp only [dmaSlot, dtrans_irom (by omega : 0x8000 ≤ a) (by omega)] at h
          cases h; simp [h0, Region.isRam]
    · by_cases h0 : a < 0x1000
      · simp only [dmaSlot, itrans_ram h0] at h
        cases h; simp [h0, Region.isRam]
      · have h1 : 0x8000 ≤ a := by simp at hr; omega
        have h2 : a < 0x9000 := by simp at hr; omega
        simp only [dmaSlot, itrans_rom h1 h2] at h
        cases h; simp [h0, Region.isRam]
  · rw [dmaSlot_none hr] at h; cases h

/-- Which addresses may take part in a copy (45_dma.md R305). -/
theorem dmaLegal_iff (d : Dma) (a : Nat) :
    dmaLegal d a = true ↔ if d.ctl.getLsbD 0 then ReadableAddr (d.ctl.getLsbD 1) a else RamAddr a := by
  unfold dmaLegal
  by_cases hr : ReadableAddr d.imem a
  · obtain ⟨r, k, hs, _, _⟩ := dmaSlot_readable hr
    have hk := (dmaSlot_ram hs).1
    simp only [hs]
    unfold Dma.toMain Dma.imem at *
    cases h0 : d.ctl.getLsbD 0
    · simpa using hk
    · simpa using hr
  · have hn : ¬RamAddr a := fun h => hr (Or.inl h)
    rw [dmaSlot_none hr]
    unfold Dma.imem at *
    cases h0 : d.ctl.getLsbD 0
    · simpa using hn
    · simpa using hr

theorem dmaFirstBad_none {d : Dma} {n a : Nat} :
    dmaFirstBad d n a = none ↔ ∀ k, k < n → dmaLegal d (a + k) = true := by
  induction n generalizing a with
  | zero => simp [dmaFirstBad]
  | succ n ih =>
    unfold dmaFirstBad
    constructor
    · intro h k hk
      split at h
      next hl =>
        cases k with
        | zero => exact hl
        | succ k =>
          have := ih.1 h k (by omega)
          rwa [show a + 1 + k = a + (k + 1) by omega] at this
      next => cases h
    · intro h
      rw [if_pos (by simpa using h 0 (by omega))]
      refine ih.2 fun k hk => ?_
      have := h (k + 1) (by omega)
      rwa [show a + (k + 1) = a + 1 + k by omega] at this

/-- The first bad address is the one a copy reports. -/
theorem dmaFirstBad_some {d : Dma} {n a k : Nat} (hk : k < n) (hb : dmaLegal d (a + k) = false)
    (hg : ∀ j, j < k → dmaLegal d (a + j) = true) : dmaFirstBad d n a = some (a + k) := by
  induction k generalizing n a with
  | zero =>
    cases n with
    | zero => omega
    | succ n =>
      unfold dmaFirstBad
      rw [if_neg (by rw [Nat.add_zero] at hb; rw [hb]; simp)]
      rfl
  | succ k ih =>
    cases n with
    | zero => omega
    | succ n =>
      unfold dmaFirstBad
      rw [if_pos (by simpa using hg 0 (by omega))]
      have := ih (n := n) (a := a + 1) (by omega) (by rwa [show a + 1 + k = a + (k + 1) by omega]) fun j hj => by
        have := hg (j + 1) (by omega)
        rwa [show a + (j + 1) = a + 1 + j by omega] at this
      rw [this]
      congr 1
      omega

/-! ### The slots of a copy (45_dma.md R305 to R307) -/

/-- The RAM a copy into DSP memory writes. -/
def dmaTarget (d : Dma) : Region := if d.imem then .iram else .dram

theorem dmaTarget_ne_main (d : Dma) : Region.main ≠ dmaTarget d := by unfold dmaTarget; cases d.imem <;> simp

theorem State.setMem_setMem (r : Region) (m n : Memory) (s : State) : (s.setMem r m).setMem r n = s.setMem r n := by
  cases r <;> rfl

theorem State.setMem_mem (r : Region) (s : State) : s.setMem r (s.mem r) = s := by cases r <;> rfl

/-- One slot moved into RAM. -/
theorem dmaMove_in {d : Dma} {n : Nat} (hdir : d.toMain = false) (hr : RamAddr (d.dspaddr.toNat + n)) (s : State) :
    s.dmaMove d n =
      s.setMem (dmaTarget d)
        ((s.mem (dmaTarget d)).writeHalf (2 * (d.dspaddr.toNat + n)) (s.main.readHalf (d.mmaddr.toNat + 2 * n))) := by
  obtain ⟨r, k, hs, _, _⟩ := dmaSlot_readable (imem := d.imem) (a := d.dspaddr.toNat + n) (Or.inl hr)
  obtain ⟨hk, hreg⟩ := (dmaSlot_ram hs).2 hr
  subst hk hreg
  simp only [State.dmaMove, hs, hdir, Bool.false_eq_true, if_false]
  rfl

/-- A copy into RAM: every slot holds its pair, every other byte reads as before, the canonical form stays, and nothing
but that RAM differs. -/
theorem dmaCopy_in {d : Dma} {n : Nat} {s : State} (hdir : d.toMain = false)
    (hwf : (s.mem (dmaTarget d)).wf = true) (hr : ∀ k, k < n → RamAddr (d.dspaddr.toNat + k)) :
    ∃ m, s.dmaCopy d n = s.setMem (dmaTarget d) m ∧ m.wf = true ∧
      (∀ k, k < n → m.readHalf (2 * (d.dspaddr.toNat + k)) = s.main.readHalf (d.mmaddr.toNat + 2 * k)) ∧
      (∀ a, ¬(2 * d.dspaddr.toNat ≤ a ∧ a < 2 * (d.dspaddr.toNat + n)) → m.read a = (s.mem (dmaTarget d)).read a) ∧
      ((s.mem (dmaTarget d)).below 8192 = true → m.below 8192 = true) := by
  induction n with
  | zero => exact ⟨_, (State.setMem_mem _ s).symm, hwf, by omega, fun _ _ => rfl, id⟩
  | succ n ih =>
    obtain ⟨m, hm, hmw, hms, hmo, hmb⟩ := ih fun k hk => hr k (by omega)
    have hlast := hr n (by omega)
    have hmain : (s.setMem (dmaTarget d) m).main = s.main := State.mem_setMem_ne (dmaTarget_ne_main d) m s
    refine ⟨m.writeHalf (2 * (d.dspaddr.toNat + n)) (s.main.readHalf (d.mmaddr.toNat + 2 * n)), ?_,
      Memory.writeHalf_wf hmw _ _, ?_, ?_, ?_⟩
    · rw [State.dmaCopy, hm, dmaMove_in hdir hlast, State.mem_setMem, State.setMem_setMem, hmain]
    · intro k hk
      by_cases hkn : k = n
      · subst hkn; exact Memory.readHalf_writeHalf_same hmw _ _
      · rw [Memory.readHalf_writeHalf_other _ _ (by omega)]; exact hms k (by omega)
    · intro a ha
      rw [Memory.read_writeHalf_other _ _ (by omega) (by omega)]
      exact hmo a (by omega)
    · intro hb
      refine Memory.writeHalf_below (hmb hb) ?_ _
      unfold RamAddr at hlast
      omega

/-- One slot moved out to main memory. -/
theorem dmaMove_out {d : Dma} {n : Nat} (hdir : d.toMain = true) (hr : ReadableAddr d.imem (d.dspaddr.toNat + n))
    (s : State) :
    s.dmaMove d n =
      { s with main := s.main.writeHalf (d.mmaddr.toNat + 2 * n) (slotAt s d.imem (d.dspaddr.toNat + n)) } := by
  obtain ⟨r, k, hs, _, hslot⟩ := dmaSlot_readable hr
  simp only [State.dmaMove, hs, hdir, if_true, hslot]

theorem slotAt_main {imem : Bool} {a : Nat} (m : Memory) (s : State) :
    slotAt { s with main := m } imem a = slotAt s imem a := by
  unfold slotAt State.slot State.mem
  cases imem <;> rfl

/-- A copy out of DSP memory. -/
theorem dmaCopy_out {d : Dma} {n : Nat} {s : State} (hdir : d.toMain = true) (hwf : s.main.wf = true)
    (hr : ∀ k, k < n → ReadableAddr d.imem (d.dspaddr.toNat + k)) :
    ∃ m, s.dmaCopy d n = { s with main := m } ∧ m.wf = true ∧
      (∀ k, k < n → m.readHalf (d.mmaddr.toNat + 2 * k) = slotAt s d.imem (d.dspaddr.toNat + k)) ∧
      (∀ a, ¬(d.mmaddr.toNat ≤ a ∧ a < d.mmaddr.toNat + 2 * n) → m.read a = s.main.read a) ∧
      (∀ b, d.mmaddr.toNat + 2 * n ≤ b → s.main.below b = true → m.below b = true) := by
  induction n with
  | zero => exact ⟨s.main, rfl, hwf, by omega, fun _ _ => rfl, fun _ _ => id⟩
  | succ n ih =>
    obtain ⟨m, hm, hmw, hms, hmo, hmb⟩ := ih fun k hk => hr k (by omega)
    refine ⟨m.writeHalf (d.mmaddr.toNat + 2 * n) (slotAt s d.imem (d.dspaddr.toNat + n)), ?_,
      Memory.writeHalf_wf hmw _ _, ?_, ?_, ?_⟩
    · rw [State.dmaCopy, hm, dmaMove_out hdir (hr n (by omega)), slotAt_main]
    · intro k hk
      by_cases hkn : k = n
      · subst hkn; exact Memory.readHalf_writeHalf_same hmw _ _
      · rw [Memory.readHalf_writeHalf_other _ _ (by omega)]; exact hms k (by omega)
    · intro a ha
      rw [Memory.read_writeHalf_other _ _ (by omega) (by omega)]
      exact hmo a (by omega)
    · intro b hb hbl
      exact Memory.writeHalf_below (hmb b (by omega) hbl) (by omega) _

/-- A DSBL write that passes every check (R304, R305). -/
theorem runDma_ok {v : BitVec 16} {s : State} (hlen : DmaLengthOk s v)
    (hr : ∀ k, k < v.toNat / 2 → DmaAddr s (s.dma.dspaddr.toNat + k)) :
    s.runDma v =
      State.dmaCopy { s.dma with len := v } (v.toNat / 2) { s with dma := { s.dma with len := v } } := by
  obtain ⟨h1, h2, h3⟩ := hlen
  have hbad : dmaFirstBad { s.dma with len := v } (v.toNat / 2) s.dma.dspaddr.toNat = none :=
    dmaFirstBad_none.2 fun k hk => (dmaLegal_iff _ _).2 (hr k hk)
  have hc : dmaCheck s.cfg { s.dma with len := v } = none := by
    unfold dmaCheck
    dsimp only
    have hz : ¬(v ≠ 0 ∧ s.dma.mmaddr.toNat + v.toNat > s.cfg.mainMemSize) := by
      rintro ⟨hv, hgt⟩
      rcases h3 with h3 | h3
      · exact hv (BitVec.eq_of_toNat_eq (by simpa using h3))
      · omega
    rw [if_neg (by omega), if_neg (by omega), if_neg hz, hbad]
    rfl
  unfold State.runDma
  simp only [hc]

/-! ### The stream (46_accelerator.md R331, R334, R340) -/

theorem fmtOf_code {c : FmtCodes} (h : CodesDistinct c) (f : Format) : fmtOf c (codeOf c f) = some f := by
  obtain ⟨a, b, d, e, g⟩ := c
  simp only [CodesDistinct, List.nodup_cons, List.mem_cons, List.not_mem_nil, or_false, not_or] at h
  obtain ⟨⟨h1, h2, h3, h4⟩, ⟨h5, h6, h7⟩, ⟨h8, h9⟩, h10, _⟩ := h
  cases f <;>
    simp [fmtOf, codeOf, Ne.symm h1, Ne.symm h2, Ne.symm h3, Ne.symm h4, Ne.symm h5, Ne.symm h6, Ne.symm h7,
      Ne.symm h8, Ne.symm h9, Ne.symm h10]

theorem fmtOf_none {c : FmtCodes} {x : BitVec 16} (h : ∀ f, x ≠ codeOf c f) : fmtOf c x = none := by
  have h1 := h .adpcm4
  have h2 := h .raw8
  have h3 := h .raw16
  have h4 := h .pcm8
  have h5 := h .pcm16
  simp only [codeOf] at h1 h2 h3 h4 h5
  simp [fmtOf, h1, h2, h3, h4, h5]

/-- The stream's advance, whole (R334, R340, R341). -/
theorem advanceStream_eq (f : Format) (w : Dir) (pre a : BitVec 32) (s : State) :
    s.advanceStream f w pre a =
      if pre.toNat ≤ s.accel.endAddr.toNat ∧ s.accel.endAddr.toNat ≤ a.toNat then
        { s with
          accel :=
            { s.accel with
              cur := s.accel.startAddr, ovfPending := true, ovfVector := overflowId s.cfg.excId f w }
          log := s.log ++ (if s.accel.ovfPending then [.overflowLost s.accel.ovfVector] else []) }
      else { s with accel := { s.accel with cur := a + 1 } } := by
  unfold State.advanceStream State.queueOverflow
  split
  · cases s.accel.ovfPending <;> simp [State.report]
  · rfl

/-! ### Stacks (10_state.md R23) -/

theorem stackFull_iff (c : Config) (l : List (BitVec 16)) : stackFull c l = true ↔ ¬HasRoom c l := by
  unfold stackFull HasRoom
  cases c.stackDepth <;> simp

theorem push_ok {st : StackId} {v : BitVec 16} {s : State} (h : HasRoom s.cfg (s.stack st)) :
    s.push st v = .ok (s.setStack st (v :: s.stack st)) := by
  unfold State.push
  rw [if_neg (fun hf => (stackFull_iff _ _).1 hf h)]

theorem push_full {st : StackId} {v : BitVec 16} {s : State} (h : ¬HasRoom s.cfg (s.stack st)) :
    s.push st v = .error .stackOverflow := by
  unfold State.push
  rw [if_pos ((stackFull_iff _ _).2 h)]

theorem pop_cons {st : StackId} {v : BitVec 16} {l : List (BitVec 16)} {s : State} (h : s.stack st = v :: l) :
    s.pop st = .ok (v, s.setStack st l) := by
  simp only [State.pop, h]

theorem pop_nil {st : StackId} {s : State} (h : s.stack st = []) : s.pop st = .error .stackUnderflow := by
  simp only [State.pop, h]

/-! ### Exceptions (60_exceptions.md R378 to R381) -/

/-- Entry with room on both stacks. -/
theorem takeException_ok {src : ExcSource} {id : BitVec 3} {s : State} (hc : HasRoom s.cfg s.callStack)
    (hd : HasRoom s.cfg s.dataStack) :
    s.takeException src id =
      State.clearSource src
        { s with
          alu := { s.alu with sr := entrySr s.cfg id s.alu.sr }
          pc := vectorOf id
          callStack := s.pc :: s.callStack
          dataStack := s.alu.sr :: s.dataStack } := by
  unfold State.takeException
  have h2 := push_ok (st := .data) (v := s.alu.sr) (s := s.setStack .call (s.pc :: s.stack .call)) hd
  rw [push_ok (st := .call) hc]
  dsimp only
  rw [h2]
  rfl

/-- Entry onto a full stack. -/
theorem takeException_full {src : ExcSource} {id : BitVec 3} {s : State}
    (h : ¬HasRoom s.cfg s.callStack ∨ ¬HasRoom s.cfg s.dataStack) :
    s.takeException src id = s.raise .stackOverflow := by
  unfold State.takeException
  by_cases hc : HasRoom s.cfg s.callStack
  · have hd : ¬HasRoom s.cfg s.dataStack := h.resolve_left (fun hn => hn hc)
    have h2 := push_full (st := .data) (v := s.alu.sr) (s := s.setStack .call (s.pc :: s.stack .call)) hd
    rw [push_ok (st := .call) hc]
    dsimp only
    rw [h2]
  · rw [push_full (st := .call) hc]

theorem vectorOf_toNat (id : BitVec 3) : (vectorOf id).toNat = 2 * id.toNat := by
  have := id.isLt
  rw [vectorOf, BitVec.toNat_ofNat]
  omega

theorem overflowAdmitted_iff (s : State) : s.overflowAdmitted = true ↔ OverflowDue s := by
  unfold State.overflowAdmitted OverflowDue
  rw [Bool.and_eq_true]

theorem interruptAdmitted_iff (s : State) : s.interruptAdmitted = true ↔ InterruptDue s := by
  unfold State.interruptAdmitted InterruptDue
  rw [Bool.and_eq_true, Bool.and_eq_true, decide_eq_true_eq, and_assoc]

end Sys2Proof.Machine
end

