-- ==== Sys2Proof/Laws/Accel.lean ====
section
/-! SUPPORT. The accelerator's parts in the words of the statements: main-memory reads, the frame header, the nibble, the two
numeric kernels, and the stream after an access. -/

namespace Sys2Proof.Machine

open Sys2Proof.Claim

/-! ### Main memory (20_memory.md R80) -/

theorem mainByte_ok {s : State} {a : Nat} (h : a + 1 ≤ s.cfg.mainMemSize) : s.mainByte a = .ok (mainAt s a) := by
  unfold State.mainByte; rw [if_neg (by omega)]; rfl

theorem mainByte_error {s : State} {a : Nat} (h : s.cfg.mainMemSize < a + 1) :
    s.mainByte a = .error (.mainOutOfRange a 1) := by
  unfold State.mainByte; rw [if_pos (by omega)]

theorem mainHalf_ok {s : State} {a : Nat} (h : a + 2 ≤ s.cfg.mainMemSize) : s.mainHalf a = .ok (mainPair s a) := by
  unfold State.mainHalf; rw [if_neg (by omega)]; rfl

theorem mainHalf_error {s : State} {a : Nat} (h : s.cfg.mainMemSize < a + 2) :
    s.mainHalf a = .error (.mainOutOfRange a 2) := by
  unfold State.mainHalf; rw [if_pos (by omega)]

theorem wordAddr_pair (s : State) : wordAddr s.accel.cur = pairAddr s := by
  unfold wordAddr pairAddr; rw [BitVec.toNat_add]; congr 1; omega

/-! ### The header and the nibble (46_accelerator.md R333, R334, R337) -/

theorem extract_low4 (c : BitVec 32) : c.extractLsb' 0 4 = 0 ↔ c.toNat % 16 = 0 := by
  constructor
  · intro h
    have := congrArg BitVec.toNat h
    rw [BitVec.extractLsb'_toNat, Nat.shiftRight_zero] at this
    simpa using this
  · intro h
    apply BitVec.eq_of_toNat_eq
    rw [BitVec.extractLsb'_toNat, Nat.shiftRight_zero]
    simpa using h

theorem half_toNat (c : BitVec 32) : (c >>> 1).toNat = c.toNat / 2 := by
  rw [BitVec.toNat_ushiftRight, Nat.shiftRight_eq_div_pow]

theorem loadHeader_ok {s : State} (h : s.accel.cur.toNat / 2 + 1 ≤ s.cfg.mainMemSize) :
    s.loadHeader .adpcm4 = .ok { s.accel with ps := psAt s, cur := nibbleAddr s } := by
  unfold State.loadHeader psAt nibbleAddr
  by_cases hz : s.accel.cur.toNat % 16 = 0
  · rw [if_pos ⟨rfl, (extract_low4 _).2 hz⟩, if_pos hz, if_pos hz, half_toNat, mainByte_ok h]
  · rw [if_neg (fun hh => hz ((extract_low4 _).1 hh.2)), if_neg hz, if_neg hz]

theorem nibbleOf_eq (s : State) :
    nibbleOf (nibbleAddr s) (mainAt s ((nibbleAddr s).toNat / 2)) = nibbleAt s := by
  unfold nibbleOf nibbleAt
  have hbit : (nibbleAddr s).getLsbD 0 = decide ((nibbleAddr s).toNat % 2 = 1) := by
    rw [BitVec.getLsbD, Nat.testBit_zero]
  rw [hbit]
  have hb := (mainAt s ((nibbleAddr s).toNat / 2)).isLt
  apply BitVec.eq_of_toNat_eq
  by_cases h : (nibbleAddr s).toNat % 2 = 0
  · rw [if_neg (by simp [h]), if_pos h, BitVec.extractLsb'_toNat, BitVec.toNat_ofNat, Nat.shiftRight_eq_div_pow]
  · rw [if_pos (by simp; omega), if_neg h, BitVec.extractLsb'_toNat, BitVec.toNat_ofNat, Nat.shiftRight_zero]
    omega

/-! ### The kernels (R336, R338) -/

theorem clamp_eq {lo hi : Int} (v : Int) (h : lo ≤ hi) : clamp lo hi v = clampInt lo hi v := by
  unfold clamp clampInt
  split
  · omega
  · split <;> omega

/-- A clamped value is its own 16-bit value. -/
theorem ofInt_clamp {lo hi : Int} (v : Int) (h : lo ≤ hi) (hlo : -0x8000 ≤ lo) (hhi : hi ≤ 0x7FFF) :
    (BitVec.ofInt 16 (clamp lo hi v)).toInt = clampInt lo hi v := by
  rw [clamp_eq v h, BitVec.toInt_ofInt]
  unfold clampInt
  apply Int.bmod_eq_of_le
  · split
    · omega
    · split <;> omega
  · split
    · omega
    · split <;> omega

theorem pcmScale_standard {c : Config} (h : c.pcmScale = .standard) (x : Int) (g : BitVec 16) :
    (pcmScale c x g).toInt = pcmValue x g := by
  unfold pcmScale pcmValue
  rw [h]
  exact ofInt_clamp _ (by decide) (by decide) (by decide)

/-- The index of the first coefficient of a pair. -/
theorem pairIndex_zero (ps : BitVec 16) :
    (ps.extractLsb' 4 3 ++ 0#1 : BitVec 4) = BitVec.ofNat 4 (2 * (ps.toNat / 16 % 8)) := by
  apply BitVec.eq_of_toNat_eq
  rw [BitVec.toNat_append, BitVec.extractLsb'_toNat, BitVec.toNat_ofNat, Nat.shiftRight_eq_div_pow, Nat.shiftLeft_eq]
  simp
  omega

/-- The index of the second coefficient of a pair. -/
theorem pairIndex_one (ps : BitVec 16) :
    (ps.extractLsb' 4 3 ++ 1#1 : BitVec 4) = BitVec.ofNat 4 (2 * (ps.toNat / 16 % 8) + 1) := by
  apply BitVec.eq_of_toNat_eq
  rw [BitVec.toNat_append, BitVec.extractLsb'_toNat, BitVec.toNat_ofNat, Nat.shiftRight_eq_div_pow, Nat.shiftLeft_eq,
    Nat.mul_comm, ← Nat.two_pow_add_eq_or_of_lt (by decide)]
  simp
  omega

/-! ### The stream (R334, R340, R341) -/

/-- The stream after an access, for a descriptor whose stream fields are those of `s`. -/
theorem advanceStream_after (s : State) (y : Accel) (v : BitVec 16) (f : Format) (w : Dir) (pre a : BitVec 32)
    (he : y.endAddr = s.accel.endAddr) (hs : y.startAddr = s.accel.startAddr)
    (ho : y.ovfPending = s.accel.ovfPending) (hv : y.ovfVector = s.accel.ovfVector) :
    StreamAfter s ((({ s with accel := y }).advanceStream f w pre a).toCore v) pre a (overflowId s.cfg.excId f w) := by
  rw [advanceStream_eq]
  unfold StreamAfter
  simp only [he, hs]
  split
  · refine ⟨rfl, rfl, rfl, ?_⟩
    simp only [State.toCore_log, ho, hv]
  · refine ⟨?_, ho, hv, rfl⟩
    show (a + 1).toNat = _
    rw [BitVec.toNat_add]
    rfl

end Sys2Proof.Machine
end

