-- ==== Sys2Proof/Laws/Exec.lean ====
section
/-! SUPPORT. What an instruction can do at all: it answers a next state; what it never touches; its faults and reports. -/

namespace Sys2Proof.Machine

open Sys2Proof.Claim

/-- The fields no instruction touches: pc, the stacks, the core's own registers, the pending interrupt and soft reset, the
control lines, both ROMs, the parameters and the model's own fields but for the returned values. -/
def ExecFrame (s t : State) : Prop :=
  t = { s with
        alu := t.alu, cmb := t.cmb, dmb := t.dmb, dma := t.dma, accel := t.accel, hostIrqCount := t.hostIrqCount
        fault := t.fault, log := t.log, iram := t.iram, dram := t.dram, main := t.main
        coreData := t.coreData, hostData := t.hostData }

/-- The frame, with the fault undoing everything (60_exceptions.md R373) and the log only growing (R374). -/
def ExecLaw (s t : State) : Prop :=
  ExecFrame s t ∧ (t.fault = s.fault ∨ ∃ f, t = s.raise f) ∧ ∃ l, t.log = s.log ++ l

theorem ExecLaw.quiet {s t : State} (h : ExecFrame s t) (hf : t.fault = s.fault) (hl : t.log = s.log) : ExecLaw s t :=
  ⟨h, .inl hf, [], by rw [hl, List.append_nil]⟩

theorem ExecLaw.raised (f : Fault) (s : State) : ExecLaw s (s.raise f) :=
  ⟨rfl, .inr ⟨f, rfl⟩, [], (List.append_nil _).symm⟩

theorem ExecLaw.setAcc_setSr (d : AccId) (v : Acc) (sr : BitVec 16) (s : State) : ExecLaw s ((s.setAcc d v).setSr sr) := by
  cases d <;> exact .quiet rfl rfl rfl

theorem ExecLaw.writeReg (r : Reg) (v : BitVec 16) (s : State) : ExecLaw s (s.writeReg r v) := by
  unfold State.writeReg
  split
  case h_1 d => cases d <;> exact .quiet rfl rfl rfl
  case h_2 d => split <;> cases d <;> exact .quiet rfl rfl rfl
  case h_3 d => cases d <;> exact .quiet rfl rfl rfl
  case h_4 x => cases x <;> exact .quiet rfl rfl rfl
  case h_5 x => cases x <;> exact .quiet rfl rfl rfl
  all_goals exact .quiet rfl rfl rfl

theorem ExecLaw.sendHigh (m : MailboxId) (v : BitVec 16) (s : State) : ExecLaw s (s.sendHigh m v) := by
  cases m
  · rw [State.sendHigh_cmb]; exact ⟨rfl, .inl rfl, _, rfl⟩
  · rw [State.sendHigh_dmb]; exact ⟨rfl, .inl rfl, _, rfl⟩

theorem ExecLaw.sendLow (m : MailboxId) (v : BitVec 16) (s : State) : ExecLaw s (s.sendLow m v) := by
  cases m
  · rw [State.sendLow_cmb]; exact ⟨rfl, .inl rfl, _, rfl⟩
  · rw [State.sendLow_dmb]; exact ⟨rfl, .inl rfl, _, rfl⟩

theorem ExecLaw.requestHostIrq (v : BitVec 16) (s : State) : ExecLaw s (s.requestHostIrq v) := by
  unfold State.requestHostIrq
  split <;> exact .quiet rfl rfl rfl

theorem ExecLaw.unknownAccess (p : Port) (w : Dir) (a : BitVec 16) (s : State) : ExecLaw s (s.unknownAccess p w a) := by
  unfold State.unknownAccess
  split
  · cases w
    · cases p <;> exact ⟨rfl, .inl rfl, _, rfl⟩
    · exact ⟨rfl, .inl rfl, _, rfl⟩
  · exact .raised _ _

/-- A copy over legal addresses changes the two RAMs and main memory, keeps their canonical form and stays in bounds. -/
theorem dmaCopy_keeps {d : Dma} {n : Nat} {s : State}
    (hr : ∀ k, k < n → dmaLegal d (d.dspaddr.toNat + k) = true) :
    ∃ m1 m2 m3, s.dmaCopy d n = { s with iram := m1, dram := m2, main := m3 } ∧
      (s.iram.wf = true → m1.wf = true) ∧ (s.dram.wf = true → m2.wf = true) ∧ (s.main.wf = true → m3.wf = true) ∧
      (s.iram.below 8192 = true → m1.below 8192 = true) ∧ (s.dram.below 8192 = true → m2.below 8192 = true) ∧
      ∀ b, d.mmaddr.toNat + 2 * n ≤ b → s.main.below b = true → m3.below b = true := by
  induction n with
  | zero => exact ⟨s.iram, s.dram, s.main, rfl, id, id, id, id, id, fun _ _ => id⟩
  | succ n ih =>
    obtain ⟨m1, m2, m3, hm, h1, h2, h3, h4, h5, h6⟩ := ih fun k hk => hr k (by omega)
    have hl := hr n (by omega)
    rw [State.dmaCopy, hm]
    rw [dmaLegal_iff] at hl
    cases hd : d.toMain
    · have hram : RamAddr (d.dspaddr.toNat + n) := by
        rw [if_neg (by unfold Dma.toMain at hd; rw [hd]; simp)] at hl
        exact hl
      rw [dmaMove_in hd hram]
      unfold dmaTarget
      unfold RamAddr at hram
      cases d.imem
      · exact ⟨m1, _, m3, rfl, h1, fun h => Memory.writeHalf_wf (h2 h) _ _, h3, h4,
          fun h => Memory.writeHalf_below (h5 h) (by omega) _, fun b hb h => h6 b (by omega) h⟩
      · exact ⟨_, m2, m3, rfl, fun h => Memory.writeHalf_wf (h1 h) _ _, h2, h3,
          fun h => Memory.writeHalf_below (h4 h) (by omega) _, h5, fun b hb h => h6 b (by omega) h⟩
    · have hread : ReadableAddr d.imem (d.dspaddr.toNat + n) := by
        rw [if_pos (by unfold Dma.toMain at hd; exact hd)] at hl
        exact hl
      rw [dmaMove_out hd hread]
      exact ⟨m1, m2, _, rfl, h1, h2, fun h => Memory.writeHalf_wf (h3 h) _ _, h4, h5,
        fun b hb h => Memory.writeHalf_below (h6 b (by omega) h) (by omega) _⟩

/-- What a copy without a fault has passed (45_dma.md R305). -/
theorem dmaCheck_none {c : Config} {d : Dma} (h : dmaCheck c d = none) :
    (∀ k, k < d.len.toNat / 2 → dmaLegal d (d.dspaddr.toNat + k) = true) ∧
      (d.len.toNat / 2 = 0 ∨ d.mmaddr.toNat + 2 * (d.len.toNat / 2) ≤ c.mainMemSize) := by
  unfold dmaCheck at h
  split at h
  · cases h
  split at h
  · cases h
  split at h
  · cases h
  next h1 _ h3 =>
    refine ⟨dmaFirstBad_none.1 (Option.map_eq_none_iff.1 h), ?_⟩
    by_cases hz : d.len = 0
    · left; rw [hz]; rfl
    · right
      have : ¬d.mmaddr.toNat + d.len.toNat > c.mainMemSize := fun hh => h3 ⟨hz, hh⟩
      omega

/-- A DSBL write faults, or changes the length register, the two RAMs and main memory. -/
theorem runDma_cases (v : BitVec 16) (s : State) :
    (∃ f, s.runDma v = s.raise f) ∨
      ∃ m1 m2 m3, s.runDma v =
          { s with dma := { s.dma with len := v }, iram := m1, dram := m2, main := m3 } ∧
        (s.iram.wf = true → m1.wf = true) ∧ (s.dram.wf = true → m2.wf = true) ∧ (s.main.wf = true → m3.wf = true) ∧
        (s.iram.below 8192 = true → m1.below 8192 = true) ∧ (s.dram.below 8192 = true → m2.below 8192 = true) ∧
        (s.main.below s.cfg.mainMemSize = true → m3.below s.cfg.mainMemSize = true) := by
  cases hc : dmaCheck s.cfg { s.dma with len := v } with
  | some f => left; exact ⟨f, by unfold State.runDma; simp only [hc]⟩
  | none =>
    right
    obtain ⟨hl, hb⟩ := dmaCheck_none hc
    obtain ⟨m1, m2, m3, hm, h1, h2, h3, h4, h5, h6⟩ :=
      dmaCopy_keeps (s := { s with dma := { s.dma with len := v } }) hl
    have e : s.runDma v =
        State.dmaCopy { s.dma with len := v } (v.toNat / 2) { s with dma := { s.dma with len := v } } := by
      unfold State.runDma; simp only [hc]
    rcases hb with hz | hb
    · have hz' : v.toNat / 2 = 0 := hz
      rw [hz'] at e
      exact ⟨s.iram, s.dram, s.main, e, id, id, id, id, id, id⟩
    · exact ⟨m1, m2, m3, e.trans hm, h1, h2, h3, h4, h5, h6 _ hb⟩

theorem ExecLaw.runDma (v : BitVec 16) (s : State) : ExecLaw s (s.runDma v) := by
  rcases runDma_cases v s with ⟨f, h⟩ | ⟨_, _, _, h, _⟩ <;> rw [h]
  · exact .raised _ _
  · exact .quiet rfl rfl rfl

/-- Reading main memory faults or gives a value. -/
theorem mainByte_cases (a : Nat) (s : State) :
    s.mainByte a = .ok (mainAt s a) ∨ s.mainByte a = .error (.mainOutOfRange a 1) := by
  unfold State.mainByte
  split
  · exact .inr rfl
  · exact .inl rfl

/-- An accelerator fetch faults, or moves the stream and the decoder's history alone; the history changes in the ADPCM
format alone (46_accelerator.md R339). -/
theorem fetchSample_cases (s : State) :
    (∃ f, s.fetchSample = s.raise f) ∨
      ∃ f y v pre a, s.fetchSample = (({ s with accel := y }).advanceStream f .read pre a).toCore v ∧
        y = { s.accel with ps := y.ps, yn1 := y.yn1, yn2 := y.yn2, cur := y.cur } ∧
        fmtOf s.cfg.fmtCode s.accel.fmt = some f ∧ (f ≠ .adpcm4 → y = s.accel) := by
  unfold State.fetchSample
  split
  · exact .inl ⟨_, rfl⟩
  next f hf =>
    have hload : (∃ e, s.loadHeader f = .error e) ∨
        ∃ x, s.loadHeader f = .ok x ∧ x = { s.accel with ps := x.ps, cur := x.cur } ∧ (f ≠ .adpcm4 → x = s.accel) := by
      unfold State.loadHeader
      split
      next h =>
        split
        next e _ => exact .inl ⟨e, rfl⟩
        next => exact .inr ⟨_, rfl, rfl, fun hn => absurd h.1 hn⟩
      next => exact .inr ⟨_, rfl, rfl, fun _ => rfl⟩
    rcases hload with ⟨e, he⟩ | ⟨x, hx, hxe, hxn⟩
    · rw [he]; exact .inl ⟨_, rfl⟩
    · rw [hx]
      have hsamp : (∃ e, s.sampleAt f x = .error e) ∨
          ∃ v y, s.sampleAt f x = .ok (v, y) ∧ y = { x with yn1 := y.yn1, yn2 := y.yn2 } ∧ (f ≠ .adpcm4 → y = x) := by
        unfold State.sampleAt
        cases f
        · dsimp only
          split
          next e _ => exact .inl ⟨e, rfl⟩
          next => exact .inr ⟨_, _, rfl, rfl, fun hn => absurd rfl hn⟩
        all_goals
          dsimp only
          split
          next e _ => exact .inl ⟨e, rfl⟩
          next => exact .inr ⟨_, _, rfl, rfl, fun _ => rfl⟩
      rcases hsamp with ⟨e, he⟩ | ⟨v, y, hy, hye, hyn⟩
      · dsimp only; rw [he]; exact .inl ⟨_, rfl⟩
      · dsimp only; rw [hy]
        refine .inr ⟨f, y, v, s.accel.cur, x.cur, rfl, ?_, hf, fun hn => (hyn hn).trans (hxn hn)⟩
        rw [hye, hxe]

theorem ExecLaw.advance {s t : State} (h : ExecFrame s t) (hf : t.fault = s.fault) (hl : t.log = s.log) (f : Format)
    (w : Dir) (pre a : BitVec 32) : ExecLaw s (t.advanceStream f w pre a) := by
  unfold ExecFrame at h
  rw [advanceStream_eq]
  split
  · rw [h]
    refine ⟨rfl, .inl hf, if t.accel.ovfPending then [.overflowLost t.accel.ovfVector] else [], ?_⟩
    rw [← hl]
  · rw [h]; exact .quiet rfl hf hl

theorem ExecLaw.fetchSample (s : State) : ExecLaw s s.fetchSample := by
  rcases fetchSample_cases s with ⟨f, h⟩ | ⟨f, y, v, pre, a, h, -⟩ <;> rw [h]
  · exact .raised _ _
  · obtain ⟨h1, h2, h3⟩ := ExecLaw.advance (s := s) (t := { s with accel := y }) rfl rfl rfl f .read pre a
    refine ⟨?_, ?_, h3⟩
    · unfold ExecFrame at *; rw [h1]; rfl
    · exact .inl (by rw [State.toCore_fault, advanceStream_eq]; split <;> rfl)

/-- A raw write faults, or changes main memory in bounds and the stream. -/
theorem writeSample_cases (v : BitVec 16) (s : State) :
    (∃ f, s.writeSample v = s.raise f) ∨
      ∃ f m, s.writeSample v = ({ s with main := m }).advanceStream f .write s.accel.cur s.accel.cur ∧
        (s.main.wf = true → m.wf = true) ∧
        (s.main.below s.cfg.mainMemSize = true → m.below s.cfg.mainMemSize = true) := by
  have hb : ∀ a b, (∃ e, s.setMainByte a b = .error e) ∨
      ∃ m, s.setMainByte a b = .ok { s with main := m } ∧ (s.main.wf = true → m.wf = true) ∧
        (s.main.below s.cfg.mainMemSize = true → m.below s.cfg.mainMemSize = true) := by
    intro a b
    unfold State.setMainByte
    split
    · exact .inl ⟨_, rfl⟩
    · exact .inr ⟨_, rfl, fun h => Memory.write_wf h _ _, fun h => Memory.write_below h (by omega) _⟩
  have hh : ∀ a b, (∃ e, s.setMainHalf a b = .error e) ∨
      ∃ m, s.setMainHalf a b = .ok { s with main := m } ∧ (s.main.wf = true → m.wf = true) ∧
        (s.main.below s.cfg.mainMemSize = true → m.below s.cfg.mainMemSize = true) := by
    intro a b
    unfold State.setMainHalf
    split
    · exact .inl ⟨_, rfl⟩
    · exact .inr ⟨_, rfl, fun h => Memory.writeHalf_wf h _ _, fun h => Memory.writeHalf_below h (by omega) _⟩
  unfold State.writeSample
  split
  · exact .inl ⟨_, rfl⟩
  next f _ =>
    cases f
    · exact .inl ⟨_, rfl⟩
    · rcases hb s.accel.cur.toNat (v.extractLsb' 0 8) with ⟨e, h⟩ | ⟨m, h, h1, h2⟩ <;> simp only [h]
      · exact .inl ⟨_, rfl⟩
      · exact .inr ⟨_, m, rfl, h1, h2⟩
    · rcases hh (wordAddr s.accel.cur) v with ⟨e, h⟩ | ⟨m, h, h1, h2⟩ <;> simp only [h]
      · exact .inl ⟨_, rfl⟩
      · exact .inr ⟨_, m, rfl, h1, h2⟩
    · rcases hb s.accel.cur.toNat (v.extractLsb' 0 8) with ⟨e, h⟩ | ⟨m, h, h1, h2⟩ <;> simp only [h]
      · exact .inl ⟨_, rfl⟩
      · exact .inr ⟨_, m, rfl, h1, h2⟩
    · rcases hh (wordAddr s.accel.cur) v with ⟨e, h⟩ | ⟨m, h, h1, h2⟩ <;> simp only [h]
      · exact .inl ⟨_, rfl⟩
      · exact .inr ⟨_, m, rfl, h1, h2⟩

theorem ExecLaw.writeSample (v : BitVec 16) (s : State) : ExecLaw s (s.writeSample v) := by
  rcases writeSample_cases v s with ⟨f, h⟩ | ⟨f, m, h, -⟩ <;> rw [h]
  · exact .raised _ _
  · exact ExecLaw.advance (s := s) (t := { s with main := m }) rfl rfl rfl _ _ _ _

/-- Every instruction answers a next state, within the frame. -/
theorem exec_next (i : Instr) (s : State) : ∃ t, exec i s = .next t ∧ ExecLaw s t := by
  cases i
  case wreg r v => exact ⟨_, rfl, .writeReg r v s⟩
  case wrHCmbh v => exact ⟨_, rfl, .sendHigh .cmb v s⟩
  case wrDDmbh v => exact ⟨_, rfl, .sendHigh .dmb v s⟩
  case wrHCmbl v => exact ⟨_, rfl, .sendLow .cmb v s⟩
  case wrDDmbl v => exact ⟨_, rfl, .sendLow .dmb v s⟩
  case wrDDirq v => exact ⟨_, rfl, .requestHostIrq v s⟩
  case rdDDirq => exact ⟨_, rfl, rfl, .inl rfl, _, rfl⟩
  case rdDAcdat1 => exact ⟨_, rfl, rfl, .inl rfl, _, rfl⟩
  case unknownD w lo v => exact ⟨_, rfl, .unknownAccess .dsp w _ s⟩
  case unknownH w lo v => exact ⟨_, rfl, .unknownAccess .host w _ s⟩
  case wrDDsbl v => exact ⟨_, rfl, .runDma v s⟩
  case wrHDsbl v => exact ⟨_, rfl, .runDma v s⟩
  case rdDAcdat => exact ⟨_, rfl, .fetchSample s⟩
  case wrDAcdat1 v => exact ⟨_, rfl, .writeSample v s⟩
  all_goals
    first
      | exact ⟨_, rfl, .quiet rfl rfl rfl⟩
      | exact ⟨_, rfl, .raised _ _⟩
      | (rename_i d; cases d <;> exact ⟨_, rfl, .quiet rfl rfl rfl⟩)
      | (rename_i d _; cases d <;> exact ⟨_, rfl, .quiet rfl rfl rfl⟩)

end Sys2Proof.Machine
end

