-- ==== Sys2Proof/Laws/Core.lean ====
section
/-! SUPPORT. What the core's moves can do: a word issued, a data access, a fetch, one instruction, a core step. -/

namespace Sys2Proof.Machine

open Sys2Proof.Claim

/-! ### How steps are put together -/

theorem andNext_ok {t : State} (h : t.fault = none) (g : State → Result) : andNext (.next t) g = g t := by
  simp [andNext, h]

theorem andNext_fault {t : State} {f : Fault} (h : t.fault = some f) (g : State → Result) :
    andNext (.next t) g = .next t := by
  simp [andNext, h]

/-- A next state after two moves: the first faulted, or the second answered it. -/
theorem andNext_next {r : Result} {g : State → Result} {t : State} (h : andNext r g = .next t) :
    (∃ f, r = .next t ∧ t.fault = some f) ∨ ∃ u, r = .next u ∧ u.fault = none ∧ g u = .next t := by
  cases r with
  | next u =>
    cases hf : u.fault with
    | none => rw [andNext_ok hf] at h; exact .inr ⟨u, rfl, hf, h⟩
    | some f => rw [andNext_fault hf] at h; cases h; exact .inl ⟨f, rfl, hf⟩
  | fault f => cases h
  | refused e => cases h

theorem undone_ok {s t : State} (h : t.fault = none) : s.undone (.next t) = .next t := by
  simp [State.undone, h]

theorem undone_fault {s t : State} {f : Fault} (h : t.fault = some f) : s.undone (.next t) = .next (s.raise f) := by
  simp [State.undone, h]

/-- A step of the core, its event taken from the schedule (60_exceptions.md R380). -/
theorem step_core {s : State} {rest : List Event} (h : CoreTurn s rest) :
    step s = andNext s.coreStep (fun t => .next { t with schedule := rest }) := by
  obtain ⟨hf, hs, _⟩ := h
  simp only [step, State.runStep, hf, State.runSchedule, hs, State.runEvent]

theorem coreHeld_turn {s : State} {rest : List Event} (h : CoreTurn s rest) : s.coreHeld = false := by
  obtain ⟨_, _, h1, h2, h3⟩ := h
  simp [State.coreHeld, h1, h2, h3]

/-- A host transaction's step. -/
theorem step_host {s : State} {w : Word} {v : BitVec 16} {rest : List Event} (hf : s.fault = none)
    (hs : s.schedule = .hostTxn w v :: rest) :
    step s = andNext (s.issueWord .host w v) (fun t => .next { t with schedule := rest }) := by
  simp only [step, State.runStep, hf, State.runSchedule, hs, State.runEvent]

/-- The first assertion of the reset line among these events (70_reset_and_hazards.md R410). -/
theorem afterReset_iff {l rest : List Event} : afterReset l = some rest ↔ NextReset l rest := by
  induction l with
  | nil => simp [afterReset, NextReset]
  | cons e l ih =>
    unfold afterReset
    by_cases he : e = .hostInput .assertReset
    · subst he
      rw [if_pos rfl, Option.some.injEq]
      constructor
      · rintro rfl; exact ⟨[], rfl, by simp⟩
      · rintro ⟨before, h, hb⟩
        cases before with
        | nil => cases h; rfl
        | cons x xs => cases h; exact absurd (List.mem_cons_self ..) hb
    · rw [if_neg he, ih]
      constructor
      · rintro ⟨before, rfl, hb⟩; exact ⟨e :: before, rfl, by simp [Ne.symm he, hb]⟩
      · rintro ⟨before, h, hb⟩
        cases before with
        | nil => cases h; exact absurd rfl he
        | cons x xs => cases h; exact ⟨xs, rfl, fun hx => hb (List.mem_cons_of_mem _ hx)⟩

theorem afterReset_none_iff {l : List Event} : afterReset l = none ↔ .hostInput .assertReset ∉ l := by
  induction l with
  | nil => simp [afterReset]
  | cons e l ih =>
    unfold afterReset
    by_cases he : e = .hostInput .assertReset
    · simp [he]
    · simp [he, ih, Ne.symm he]

/-- The step of a faulted state with an assertion of the reset line to come (70_reset_and_hazards.md R410, R415). -/
theorem step_faulted_reset {s : State} {f : Fault} {rest : List Event} (hf : s.fault = some f)
    (h : NextReset s.schedule rest) : step s = .next { s.hostInput .assertReset with schedule := rest } := by
  simp only [step, State.runStep, hf, State.runFaulted, afterReset_iff.2 h]

/-- The step of a faulted state with none to come (60_exceptions.md R373). -/
theorem step_faulted_stands {s : State} {f : Fault} (hf : s.fault = some f)
    (h : .hostInput .assertReset ∉ s.schedule) : step s = .fault f := by
  simp only [step, State.runStep, hf, State.runFaulted, afterReset_none_iff.2 h]

/-- A next state of a faulted state is its hard reset. -/
theorem step_faulted_next {s t : State} {f : Fault} (hf : s.fault = some f) (h : step s = .next t) :
    ∃ rest, NextReset s.schedule rest ∧ t = { s.hostInput .assertReset with schedule := rest } := by
  cases ha : afterReset s.schedule with
  | none => rw [step_faulted_stands hf (afterReset_none_iff.1 ha)] at h; cases h
  | some rest => rw [step_faulted_reset hf (afterReset_iff.1 ha)] at h; cases h; exact ⟨rest, afterReset_iff.1 ha, rfl⟩

theorem softReset_due_iff (s : State) : (s.srPending && decide (s.srCount = 0)) = true ↔ SoftResetDue s := by
  unfold SoftResetDue
  rw [Bool.and_eq_true, decide_eq_true_eq]

theorem admitted_none {s : State} (ho : ¬OverflowDue s) (hi : ¬InterruptDue s) : s.admitted = none := by
  unfold State.admitted
  rw [if_neg (fun h => ho ((overflowAdmitted_iff s).1 h)), if_neg (fun h => hi ((interruptAdmitted_iff s).1 h))]

/-- The counts after a step, whole (60_exceptions.md R380). -/
theorem tick_eq (s : State) :
    s.tick = { s with intCount := Ticked s.intPending s.intCount, srCount := Ticked s.srPending s.srCount } := by
  have h : ∀ (b : Bool) (n : Nat), (if b && decide (0 < n) then n - 1 else n) = Ticked b n := by
    intro b n
    unfold Ticked
    cases b
    · rfl
    · by_cases hn : 0 < n
      · simp [hn]
      · simp [hn]; omega
  unfold State.tick
  rw [h, h]

theorem advanced_eq (s : State) (len : InstrLen) : s.pc + len.slots = advanced s len := by
  apply BitVec.eq_of_toNat_eq
  unfold advanced
  cases len <;> (rw [BitVec.toNat_add, BitVec.toNat_ofNat]; rfl)

/-- What a word issued on a port can answer as a next state. -/
theorem issueWord_next {p : Port} {w : Word} {v : BitVec 16} {s t : State} (h : s.issueWord p w v = .next t) :
    ∃ i, decode s.cfg.ifxMap w v = some i ∧ i.port = p ∧ exec i s = .next t := by
  unfold State.issueWord at h
  split at h
  · cases h
  next i hd =>
    split at h
    next hp => exact ⟨i, hd, hp, h⟩
    · cases h

/-- A word that encodes an instruction of the port it is issued on runs it. -/
theorem issueWord_eq {p : Port} {w : Word} {v : BitVec 16} {s : State} {i : Instr}
    (hd : decode s.cfg.ifxMap w v = some i) (hp : i.port = p) : s.issueWord p w v = exec i s := by
  unfold State.issueWord; simp only [hd, hp, if_true]

/-- A core data access that answers a next state is a read, a store into data RAM, a fault, or a transaction. -/
theorem dataAccess_next {d : Dir} {a v : BitVec 16} {s t : State} (h : s.dataAccess d a v = .next t) :
    (∃ f, t = s.raise f) ∨ (∃ x, t = s.toCore x) ∨
      (∃ k, k < 4096 ∧ t = { s with dram := s.dram.writeHalf (2 * k) v }) ∨ ∃ i, i.port = .dsp ∧ exec i s = .next t := by
  unfold State.dataAccess at h
  split at h
  next r k hk =>
    cases d
    · cases h; exact .inr (.inl ⟨_, rfl⟩)
    · cases h
      unfold dtrans at hk
      split at hk
      · cases hk; refine .inr (.inr (.inl ⟨_, ?_, rfl⟩)); omega
      · split at hk
        · cases hk; exact .inl ⟨_, rfl⟩
        · split at hk
          · cases hk; exact .inl ⟨_, rfl⟩
          · split at hk <;> cases hk
  next =>
    obtain ⟨i, _, hp, he⟩ := issueWord_next h
    exact .inr (.inr (.inr ⟨i, hp, he⟩))
  next => cases h; exact .inl ⟨_, rfl⟩

@[simp] theorem coreVal_given (x : BitVec 16) (s : State) : s.coreVal (.given x) = x := rfl
@[simp] theorem coreVal_returned (s : State) : s.coreVal .returned = s.coreData := rfl

/-- Everything an operation of a core instruction can do: a fault, a value returned, a slot of data RAM written, an
instruction of the DSP port (RREG and WREG among them), a push, a pop, the core's own registers. -/
theorem coreOp_next {op : CoreOp} {s t : State} (h : s.coreOp op = .next t) :
    (∃ f, t = s.raise f) ∨ (∃ x, t = s.toCore x) ∨
      (∃ k v, k < 4096 ∧ t = { s with dram := s.dram.writeHalf (2 * k) v }) ∨ (∃ i, i.port = .dsp ∧ exec i s = .next t) ∨
      (∃ st v, HasRoom s.cfg (s.stack st) ∧ t = s.setStack st (v :: s.stack st)) ∨
      (∃ st v l, s.stack st = v :: l ∧ t = (s.setStack st l).toCore v) ∨ ∃ f, t = { s with coreFile := f } := by
  unfold State.coreOp at h
  split at h
  · obtain ⟨i, _, hp, he⟩ := issueWord_next h; exact .inr (.inr (.inr (.inl ⟨i, hp, he⟩)))
  · rcases dataAccess_next h with h | h | ⟨k, hk, h⟩ | h
    · exact .inl h
    · exact .inr (.inl h)
    · exact .inr (.inr (.inl ⟨k, _, hk, h⟩))
    · exact .inr (.inr (.inr (.inl h)))
  · exact .inr (.inr (.inr (.inl ⟨_, rfl, h⟩)))
  · exact .inr (.inr (.inr (.inl ⟨_, rfl, h⟩)))
  next st v =>
    cases h
    by_cases hr : HasRoom s.cfg (s.stack st)
    · rw [push_ok hr]; exact .inr (.inr (.inr (.inr (.inl ⟨st, _, hr, rfl⟩))))
    · rw [push_full hr]; exact .inl ⟨_, rfl⟩
  next st =>
    cases hs : s.stack st with
    | nil => rw [pop_nil hs] at h; cases h; exact .inl ⟨_, rfl⟩
    | cons a l => rw [pop_cons hs] at h; cases h; exact .inr (.inr (.inr (.inr (.inr (.inl ⟨st, a, l, hs, rfl⟩)))))
  · cases h; exact .inr (.inr (.inr (.inr (.inr (.inr ⟨_, rfl⟩)))))

/-- A fetch of a readable slot of the instruction space (20_memory.md R71). -/
theorem fetchSlot_ok {a : BitVec 16} {s : State} (h : ReadableAddr true a.toNat) :
    s.fetchSlot a = .ok (slotAt s true a.toNat) := by
  obtain ⟨r, k, h1, _, h2⟩ := dmaSlot_readable h
  unfold State.fetchSlot
  rw [show itrans a.toNat = some (r, k) from h1, h2]

/-- A fetch anywhere else (R75). -/
theorem fetchSlot_error {a : BitVec 16} {s : State} (h : ¬ReadableAddr true a.toNat) :
    s.fetchSlot a = .error (.unmappedFetch s.pc) := by
  unfold State.fetchSlot; rw [itrans_none h]

theorem fetchInstr_ok {s : State} {len : InstrLen} (h : Fetchable s len) : s.fetchInstr len = .ok (slotsAt s len) := by
  obtain ⟨h1, h2⟩ := h
  unfold State.fetchInstr slotsAt
  rw [fetchSlot_ok h1]
  cases len
  · rfl
  · dsimp only; rw [fetchSlot_ok (h2 rfl)]; rfl

/-- A fetch of which a slot is untranslatable, the first or the second (R75). -/
theorem fetchInstr_error {s : State} {len : InstrLen} (h : ¬Fetchable s len) :
    s.fetchInstr len = .error (.unmappedFetch s.pc) := by
  unfold State.fetchInstr
  by_cases h1 : ReadableAddr true s.pc.toNat
  · rw [fetchSlot_ok h1]
    cases len
    · exact absurd ⟨h1, fun h => by cases h⟩ h
    · dsimp only; rw [fetchSlot_error (fun h2 => h ⟨h1, fun _ => h2⟩)]
  · rw [fetchSlot_error h1]

/-! ### One instruction (60_exceptions.md R380, 20_memory.md R85) -/

/-- Operations that give a state without a fault. -/
theorem coreOps_iff {ops : List CoreOp} {s u : State} (hs : s.fault = none) :
    (State.coreOps ops s = .next u ∧ u.fault = none) ↔ OpsGive ops s u := by
  induction ops generalizing s with
  | nil =>
    constructor
    · rintro ⟨h, -⟩; cases h; rfl
    · intro h; cases h; exact ⟨rfl, hs⟩
  | cons op rest ih =>
    constructor
    · rintro ⟨h, hu⟩
      rcases andNext_next h with ⟨f, _, hf⟩ | ⟨t, ht, hf, hr⟩
      · rw [hu] at hf; cases hf
      · exact ⟨t, ht, hf, (ih hf).1 ⟨hr, hu⟩⟩
    · rintro ⟨t, ht, hf, hr⟩
      unfold State.coreOps
      rw [ht, andNext_ok hf]
      exact (ih hf).2 hr

/-- How an instruction ends: with a pc, with a pc and the core halted, with both stacks popped, or with a fault. -/
theorem flow_cases (c : CoreInstr) (s : State) :
    (∃ p, s.flow c = { s with pc := p }) ∨ (∃ p, s.flow c = { s with pc := p, halted := true }) ∨
      (∃ sr ds pc cs, s.dataStack = sr :: ds ∧ s.callStack = pc :: cs ∧
        s.flow c = { s with dataStack := ds, callStack := cs, alu := { s.alu with sr := sr }, pc := pc }) ∨
      ∃ f, s.flow c = s.raise f := by
  unfold State.flow
  split
  · exact .inl ⟨_, rfl⟩
  · exact .inl ⟨_, rfl⟩
  · exact .inl ⟨_, rfl⟩
  · unfold State.returnFromException
    cases hd : s.dataStack with
    | nil => rw [pop_nil (show s.stack .data = [] from hd)]; exact .inr (.inr (.inr ⟨_, rfl⟩))
    | cons sr ds =>
      rw [pop_cons (show s.stack .data = sr :: ds from hd)]
      cases hc : s.callStack with
      | nil =>
        dsimp only
        rw [pop_nil (show (s.setStack .data ds).stack .call = [] from hc)]
        exact .inr (.inr (.inr ⟨_, rfl⟩))
      | cons pc cs =>
        dsimp only
        rw [pop_cons (show (s.setStack .data ds).stack .call = pc :: cs from hc)]
        exact .inr (.inr (.inl ⟨sr, ds, pc, cs, rfl, rfl, rfl⟩))
  · exact .inr (.inl ⟨_, rfl⟩)

/-- The instructions that words issue are its operations. -/
theorem issues_opsGive {ops : List CoreOp} {is : List Instr} {s u : State} (h : Issues s.cfg.ifxMap ops is)
    (hr : Runs is s u) : OpsGive ops s u := by
  induction ops generalizing is s with
  | nil =>
    cases is with
    | nil => exact hr
    | cons i is => exact h.elim
  | cons op ops ih =>
    cases op with
    | issue w v =>
      cases is with
      | nil => exact h.elim
      | cons i is =>
        obtain ⟨hd, hp, hi⟩ := h
        obtain ⟨t, ht, hf, hr⟩ := hr
        obtain ⟨t', ht', hl⟩ := exec_next i s
        rw [ht] at ht'
        cases ht'
        have hc : t.cfg = s.cfg := by rw [hl.1]
        refine ⟨t, ?_, hf, ih (by rw [hc]; exact hi) hr⟩
        exact (issueWord_eq hd hp).trans ht
    | access => exact h.elim
    | readReg => exact h.elim
    | writeReg => exact h.elim
    | push => exact h.elim
    | pop => exact h.elim
    | own => exact h.elim

/-- The core's step that executes an instruction. -/
theorem step_instr {s : State} {c : CoreInstr} {more : List CoreInstr} {rest : List Event}
    (h : NextInstr s c more rest) :
    step s =
      andNext
        (s.undone
          (andNext (s.coreOps c.ops) (fun t =>
            andNext (.next (t.flow c)) (fun u => .next { u.tick with fetched := slotsAt s c.len, program := more }))))
        (fun t => .next { t with schedule := rest }) := by
  obtain ⟨ht, ⟨hs, ho, hi⟩, hp, hf⟩ := h
  rw [step_core ht]
  unfold State.coreStep State.runInstr
  rw [coreHeld_turn ht, if_neg (by simp), if_neg (fun h => hs ((softReset_due_iff s).1 h)), admitted_none ho hi]
  dsimp only
  rw [hp]
  dsimp only
  rw [fetchInstr_ok hf]

/-- An instruction without a fault. -/
theorem step_finishes {s u : State} {c : CoreInstr} {more : List CoreInstr} {rest : List Event}
    (h : NextInstr s c more rest) (ho : OpsGive c.ops s u) (hf : (u.flow c).fault = none) :
    step s = .next (Finished s (u.flow c) c.len more rest) := by
  obtain ⟨hc, hu⟩ := (coreOps_iff h.1.1).2 ho
  rw [step_instr h, hc, andNext_ok hu, andNext_ok hf, tick_eq, undone_ok (by exact hf), andNext_ok (by exact hf)]
  rfl

/-- An instruction with a fault in its end. -/
theorem step_endFaults {s u : State} {c : CoreInstr} {more : List CoreInstr} {rest : List Event} {f : Fault}
    (h : NextInstr s c more rest) (ho : OpsGive c.ops s u) (hf : (u.flow c).fault = some f) :
    step s = .next (s.raise f) := by
  obtain ⟨hc, hu⟩ := (coreOps_iff h.1.1).2 ho
  rw [step_instr h, hc, andNext_ok hu, andNext_fault hf, undone_fault hf, andNext_fault (State.raise_fault f s)]

/-- An instruction with a fault in one of its operations. -/
theorem step_opFaults {s t u : State} {c : CoreInstr} {pre post : List CoreOp} {op : CoreOp} {more : List CoreInstr}
    {rest : List Event} {f : Fault} (h : NextInstr s c more rest) (hops : c.ops = pre ++ op :: post)
    (ho : OpsGive pre s t) (hop : t.coreOp op = .next u) (hf : u.fault = some f) : step s = .next (s.raise f) := by
  have key : State.coreOps c.ops s = .next u := by
    rw [hops]
    have hs := h.1.1
    clear h hops
    induction pre generalizing s with
    | nil => cases ho; rw [List.nil_append, State.coreOps, hop, andNext_fault hf]
    | cons p pre ih =>
      obtain ⟨v, hv, hvf, hr⟩ := ho
      rw [List.cons_append, State.coreOps, hv, andNext_ok hvf]
      exact ih hr hvf
  rw [step_instr h, key, andNext_fault hf, undone_fault hf, andNext_fault (State.raise_fault f s)]

/-- What executing an instruction can answer as a next state. -/
theorem runInstr_next {s t : State} {c : CoreInstr} {more : List CoreInstr} (hs : s.fault = none)
    (h : s.runInstr c more = .next t) :
    (∃ f, t = s.raise f) ∨ ∃ ws u, s.fetchInstr c.len = .ok ws ∧ OpsGive c.ops s u ∧ (u.flow c).fault = none ∧
      t = { (u.flow c).tick with fetched := ws, program := more } := by
  unfold State.runInstr at h
  split at h
  · cases h; exact .inl ⟨_, rfl⟩
  next ws hw =>
    generalize hr : andNext (s.coreOps c.ops) _ = r at h
    cases r with
    | fault f => cases h
    | refused e => cases h
    | next v =>
      cases hv : v.fault with
      | some f => rw [undone_fault hv] at h; cases h; exact .inl ⟨f, rfl⟩
      | none =>
        rw [undone_ok hv] at h
        cases h
        rcases andNext_next hr with ⟨f, _, hf⟩ | ⟨u, hu, huf, h2⟩
        · rw [hv] at hf; cases hf
        · rcases andNext_next h2 with ⟨f, _, hf⟩ | ⟨x, hx, hxf, h3⟩
          · rw [hv] at hf; cases hf
          · cases hx
            cases h3
            exact .inr ⟨ws, u, hw, (coreOps_iff hs).1 ⟨hu, huf⟩, hxf, rfl⟩

/-- Every next state of a core step: nothing moved, a fault, a soft reset, an exception entered, an instruction executed
(60_exceptions.md R380). -/
theorem coreStep_next {s t : State} (hs : s.fault = none) (h : s.coreStep = .next t) :
    t = s ∨ (∃ f, t = s.raise f) ∨ (SoftResetDue s ∧ t = s.softReset.tick) ∨
      (∃ src id, s.admitted = some (src, id) ∧ (s.takeException src id).fault = none ∧
        t = (s.takeException src id).tick) ∨
      ∃ c more ws u, s.program = c :: more ∧ s.fetchInstr c.len = .ok ws ∧ OpsGive c.ops s u ∧
        (u.flow c).fault = none ∧ t = { (u.flow c).tick with fetched := ws, program := more } := by
  unfold State.coreStep at h
  split at h
  · cases h; exact .inl rfl
  split at h
  next hd => cases h; exact .inr (.inr (.inl ⟨(softReset_due_iff s).1 hd, rfl⟩))
  split at h
  next src id ha =>
    by_cases hr : HasRoom s.cfg s.callStack ∧ HasRoom s.cfg s.dataStack
    · have hf : (s.takeException src id).fault = none := by
        rw [takeException_ok hr.1 hr.2]; cases src <;> exact hs
      rw [andNext_ok hf] at h
      cases h
      exact .inr (.inr (.inr (.inl ⟨src, id, ha, hf, rfl⟩)))
    · have he : s.takeException src id = s.raise .stackOverflow := takeException_full (by tauto)
      rw [he, andNext_fault (State.raise_fault _ s)] at h
      cases h
      exact .inr (.inl ⟨_, rfl⟩)
  · split at h
    · cases h; exact .inl rfl
    next c more hp =>
      rcases runInstr_next hs h with hf | ⟨ws, u, h1, h2, h3, h4⟩
      · exact .inr (.inl hf)
      · exact .inr (.inr (.inr (.inr ⟨c, more, ws, u, hp, h1, h2, h3, h4⟩)))

/-! ### Stacks and the pending overflow -/

theorem stackWithin_cons {c : Config} {l : List (BitVec 16)} {v : BitVec 16} (h : HasRoom c l) :
    stackWithin c (v :: l) = true := by
  unfold HasRoom at h
  unfold stackWithin
  cases hd : c.stackDepth
  · rfl
  · rw [hd] at h; simpa using h

theorem stackWithin_tail {c : Config} {l : List (BitVec 16)} {v : BitVec 16} (h : stackWithin c (v :: l) = true) :
    stackWithin c l = true := by
  unfold stackWithin at *
  cases hd : c.stackDepth
  · rfl
  · rw [hd] at h; simp at h ⊢; omega

/-- The vector a pending overflow carries (60_exceptions.md R376). -/
theorem vectorLegal_iff (s : State) :
    s.vectorLegal = true ↔
      (s.accel.ovfPending = true →
        s.accel.ovfVector = s.cfg.excId.rawReadOvf ∨ s.accel.ovfVector = s.cfg.excId.rawWriteOvf ∨
          s.accel.ovfVector = s.cfg.excId.adpcmOvf) := by
  unfold State.vectorLegal
  cases s.accel.ovfPending <;> simp [or_assoc]

end Sys2Proof.Machine
end

