-- ==== Sys2Proof/Laws/Decode.lean ====
section
/-! SUPPORT. The small lemmas of the decoder and the encoder: fields, register numbers, register-block addresses and the
parts of a transaction word (30_encoding.md R100 to R108). -/

namespace Sys2Proof

/-! ### Operand bits -/

@[simp] theorem accOf_bit (d : AccId) : accOf d.bit = d := by cases d <;> rfl
@[simp] theorem axOf_bit (x : AxId) : axOf x.bit = x := by cases x <;> rfl
@[simp] theorem halfOf_bit (h : AxHalf) : halfOf h.bit = h := by cases h <;> rfl
@[simp] theorem axRegOf_bits (r : AxReg) : axRegOf r.bits = r := by cases r <;> rfl
@[simp] theorem portOf_bit (p : Port) : portOf p.bit = p := by cases p <;> rfl
@[simp] theorem dirOf_bit (w : Dir) : dirOf w.bit = w := by cases w <;> rfl

theorem accOf_inv (b : BitVec 1) : (accOf b).bit = b := by revert b; decide
theorem axOf_inv (b : BitVec 1) : (axOf b).bit = b := by revert b; decide
theorem halfOf_inv (b : BitVec 1) : (halfOf b).bit = b := by revert b; decide
theorem axRegOf_inv (b : BitVec 2) : (axRegOf b).bits = b := by revert b; decide
theorem portOf_inv (b : BitVec 1) : (portOf b).bit = b := by revert b; decide
theorem dirOf_inv (b : BitVec 1) : (dirOf b).bit = b := by revert b; decide

/-! ### Register numbers (R108) -/

@[simp] theorem regOf_num (r : Reg) : regOf r.num = some r := by
  cases r <;> first | rfl | (rename_i d; cases d <;> rfl)

theorem num_of_regOf (b : BitVec 8) (r : Reg) (h : regOf b = some r) : r.num = b := by
  have key : ∀ c : BitVec 8, (match regOf c with | none => true | some q => decide (q.num = c)) = true := by decide
  have := key b
  rw [h] at this
  exact of_decide_eq_true this

/-! ### Pieces of bit vectors -/

theorem extract_append_high {m n : Nat} (a : BitVec m) (b : BitVec n) : (a ++ b).extractLsb' n m = a := by
  apply BitVec.eq_of_getLsbD_eq; intro i hi
  have : ¬n + i < n := by omega
  simp only [BitVec.getLsbD_extractLsb', BitVec.getLsbD_append]
  simp [hi, this]

theorem extract_append_low {m n : Nat} (a : BitVec m) (b : BitVec n) : (a ++ b).extractLsb' 0 n = b := by
  apply BitVec.eq_of_getLsbD_eq; intro i hi
  simp only [BitVec.getLsbD_extractLsb', BitVec.getLsbD_append]
  simp [hi]

theorem append_extract {m n : Nat} (v : BitVec (m + n)) : v.extractLsb' n m ++ v.extractLsb' 0 n = v := by
  apply BitVec.eq_of_getLsbD_eq; intro i hi
  simp only [BitVec.getLsbD_append, BitVec.getLsbD_extractLsb']
  by_cases h : i < n
  · simp [h]
  · have h1 : i - n < m := by omega
    have h2 : n + (i - n) = i := by omega
    simp [h, h1, h2]

/-! ### Fields of an ALU command word (R106) -/

@[simp] theorem Fields.ofWord_toWord (f : Fields) : Fields.ofWord f.toWord = f := by
  obtain ⟨op, d, s, z, imm⟩ := f
  simp only [Fields.ofWord, Fields.toWord, Fields.mk.injEq]
  refine ⟨?_, ?_, ?_, ?_, ?_⟩ <;>
  · apply BitVec.eq_of_getLsbD_eq; intro i hi
    simp only [BitVec.getLsbD_extractLsb', BitVec.getLsbD_append, hi, decide_true, Bool.true_and]
    repeat' split
    all_goals first | rfl | omega | (congr 1; omega)

@[simp] theorem Fields.toWord_ofWord (w : Word) : (Fields.ofWord w).toWord = w := by
  apply BitVec.eq_of_getLsbD_eq; intro i hi
  simp only [Fields.ofWord, Fields.toWord, BitVec.getLsbD_append, BitVec.getLsbD_extractLsb']
  repeat' split
  all_goals
    rw [decide_eq_true (by omega), Bool.true_and]
    congr 1
    omega

/-! ### Register-block addresses (R102) -/

/-- The address a register is found at is its own, whatever the map. -/
theorem IfxMap.addr_of_regAt {m : IfxMap} {a : BitVec 16} {r : IfxReg} (h : m.regAt a = some r) : m.addr r = a :=
  of_decide_eq_true (List.find?_some (p := fun q => decide (m.addr q = a)) h)

theorem IfxReg.mem_all (r : IfxReg) : r ∈ IfxReg.all := by
  cases r
  case coef i => revert i; decide
  all_goals decide

/-- With no two registers at one address, every register is found at its own. -/
theorem IfxMap.regAt_addr {m : IfxMap} (hm : m.Distinct) (r : IfxReg) : m.regAt (m.addr r) = some r := by
  cases h : m.regAt (m.addr r) with
  | none => exact absurd (List.find?_eq_none.1 h r r.mem_all) (by simp)
  | some q => rw [hm q r (addr_of_regAt h)]

/-- The default map puts no two registers at one address. -/
theorem IfxMap.standard_distinct : IfxMap.standard.Distinct := by
  have key : ∀ r : IfxReg, IfxMap.standard.regAt (IfxMap.standard.addr r) = some r := by
    intro r
    cases r
    case coef i => revert i; decide
    all_goals rfl
  intro r q h
  have hr := key r
  rw [h, key q] at hr
  exact (Option.some.inj hr).symm

/-- A place of the block, and so every register, lies in the top 256 slots. -/
theorem blockAddr_high (lo : BitVec 8) : (blockAddr lo).extractLsb' 8 8 = 0xFF := extract_append_high _ _

theorem blockAddr_low (lo : BitVec 8) : (blockAddr lo).extractLsb' 0 8 = lo := extract_append_low _ _

/-! ### Transaction words (R100) -/

@[simp] theorem txnWord_op (p : Port) (w : Dir) (a : BitVec 16) : (txnWord p w a).extractLsb' 24 8 = 0 := by
  cases p <;> cases w <;>
  · apply BitVec.eq_of_getLsbD_eq; intro i hi
    simp only [txnWord, Port.bit, Dir.bit, BitVec.getLsbD_extractLsb', BitVec.getLsbD_append]
    rw [if_neg (by omega), if_neg (by omega), if_neg (by omega)]
    simp

@[simp] theorem txnWord_zero (p : Port) (w : Dir) (a : BitVec 16) : (txnWord p w a).extractLsb' 18 14 = 0 := by
  cases p <;> cases w <;>
  · apply BitVec.eq_of_getLsbD_eq; intro i hi
    simp only [txnWord, Port.bit, Dir.bit, BitVec.getLsbD_extractLsb', BitVec.getLsbD_append]
    rw [if_neg (by omega), if_neg (by omega), if_neg (by omega)]
    simp

@[simp] theorem txnWord_port (p : Port) (w : Dir) (a : BitVec 16) : (txnWord p w a).extractLsb' 17 1 = p.bit := by
  apply BitVec.eq_of_getLsbD_eq; intro i hi
  have : i = 0 := by omega
  subst this
  simp only [txnWord, BitVec.getLsbD_extractLsb', BitVec.getLsbD_append]
  simp

@[simp] theorem txnWord_dir (p : Port) (w : Dir) (a : BitVec 16) : (txnWord p w a).extractLsb' 16 1 = w.bit := by
  apply BitVec.eq_of_getLsbD_eq; intro i hi
  have : i = 0 := by omega
  subst this
  simp only [txnWord, BitVec.getLsbD_extractLsb', BitVec.getLsbD_append]
  simp

@[simp] theorem txnWord_addr (p : Port) (w : Dir) (a : BitVec 16) : (txnWord p w a).extractLsb' 0 16 = a :=
  extract_append_low _ _

/-- A word with bits 31:18 clear is the transaction word of its parts. -/
theorem txnWord_parts (w : Word) (h : w.extractLsb' 18 14 = 0) :
    txnWord (portOf (w.extractLsb' 17 1)) (dirOf (w.extractLsb' 16 1)) (w.extractLsb' 0 16) = w := by
  rw [txnWord, portOf_inv, dirOf_inv]
  apply BitVec.eq_of_getLsbD_eq; intro i hi
  simp only [BitVec.getLsbD_append]
  repeat' split
  · simp only [BitVec.getLsbD_extractLsb']
    rw [decide_eq_true (by omega), Bool.true_and]
    congr 1
    omega
  · simp only [BitVec.getLsbD_extractLsb']
    rw [decide_eq_true (by omega), Bool.true_and]
    congr 1
    omega
  · simp only [BitVec.getLsbD_extractLsb']
    rw [decide_eq_true (by omega), Bool.true_and]
    congr 1
    omega
  · have hb : (w.extractLsb' 18 14).getLsbD (i - 16 - 1 - 1) = w.getLsbD i := by
      rw [BitVec.getLsbD_extractLsb', decide_eq_true (by omega), Bool.true_and]
      congr 1
      omega
    rw [← hb, h]
    simp

end Sys2Proof
end

