-- ==== Sys2Proof/Laws/PerInstr.lean ====
section
/-! SUPPORT. For every instruction: with the default register map, its word carries the fixed bits of its row of
spec/opcode_table.json (`mask` and `match`, written out from the table). -/

namespace Sys2Proof.Laws

/-- The row's `mask` and `match`. -/
def tableRow : Instr → Word × Word
  | .clr _ => (0xFF7FFFFF, 0x01000000)
  | .add _ => (0xFF7FFFFF, 0x02000000)
  | .addr _ _ => (0xFF4FFFFF, 0x03000000)
  | .addax _ _ => (0xFF6FFFFF, 0x04000000)
  | .addp _ => (0xFF7FFFFF, 0x05000000)
  | .addi _ _ => (0xFF7F0000, 0x06000000)
  | .addis _ _ => (0xFF7FFF00, 0x07000000)
  | .sub _ => (0xFF7FFFFF, 0x08000000)
  | .subr _ _ => (0xFF4FFFFF, 0x09000000)
  | .subax _ _ => (0xFF6FFFFF, 0x0A000000)
  | .subp _ => (0xFF7FFFFF, 0x0B000000)
  | .inc _ => (0xFF7FFFFF, 0x0C000000)
  | .dec _ => (0xFF7FFFFF, 0x0D000000)
  | .incm _ => (0xFF7FFFFF, 0x0E000000)
  | .decm _ => (0xFF7FFFFF, 0x0F000000)
  | .neg _ => (0xFF7FFFFF, 0x10000000)
  | .abs _ => (0xFF7FFFFF, 0x11000000)
  | .cmp => (0xFFFFFFFF, 0x12000000)
  | .cmpi _ _ => (0xFF7F0000, 0x13000000)
  | .tst _ => (0xFF7FFFFF, 0x14000000)
  | .tstaxh _ => (0xFFEFFFFF, 0x15000000)
  | .mov _ => (0xFF7FFFFF, 0x16000000)
  | .movr _ _ => (0xFF4FFFFF, 0x17000000)
  | .movax _ _ => (0xFF6FFFFF, 0x18000000)
  | .movp _ => (0xFF7FFFFF, 0x19000000)
  | .movnp _ => (0xFF7FFFFF, 0x1A000000)
  | .andr _ _ => (0xFF6FFFFF, 0x20000000)
  | .orr _ _ => (0xFF6FFFFF, 0x21000000)
  | .xorr _ _ => (0xFF6FFFFF, 0x22000000)
  | .andc _ => (0xFF7FFFFF, 0x23000000)
  | .orc _ => (0xFF7FFFFF, 0x24000000)
  | .xorc _ => (0xFF7FFFFF, 0x25000000)
  | .andi _ _ => (0xFF7F0000, 0x26000000)
  | .ori _ _ => (0xFF7F0000, 0x27000000)
  | .xori _ _ => (0xFF7F0000, 0x28000000)
  | .not _ => (0xFF7FFFFF, 0x29000000)
  | .andf _ _ => (0xFF7F0000, 0x2A000000)
  | .andcf _ _ => (0xFF7F0000, 0x2B000000)
  | .lsl _ _ => (0xFF7FFFC0, 0x30000000)
  | .lsr _ _ => (0xFF7FFFC0, 0x31000000)
  | .asl _ _ => (0xFF7FFFC0, 0x32000000)
  | .asr _ _ => (0xFF7FFFC0, 0x33000000)
  | .lsl16 _ => (0xFF7FFFFF, 0x34000000)
  | .lsr16 _ => (0xFF7FFFFF, 0x35000000)
  | .asr16 _ => (0xFF7FFFFF, 0x36000000)
  | .mul _ => (0xFFEFFFFF, 0x40000000)
  | .mulx _ _ => (0xFFCFFFFF, 0x41000000)
  | .mulc _ _ => (0xFF6FFFFF, 0x42000000)
  | .mulac _ _ => (0xFF6FFFFF, 0x43000000)
  | .mulmv _ _ => (0xFF6FFFFF, 0x44000000)
  | .madd _ => (0xFFEFFFFF, 0x45000000)
  | .msub _ => (0xFFEFFFFF, 0x46000000)
  | .maddx _ _ => (0xFFCFFFFF, 0x47000000)
  | .msubx _ _ => (0xFFCFFFFF, 0x48000000)
  | .maddc _ _ => (0xFF6FFFFF, 0x49000000)
  | .msubc _ _ => (0xFF6FFFFF, 0x4A000000)
  | .clrp => (0xFFFFFFFF, 0x4B000000)
  | .tstprod => (0xFFFFFFFF, 0x4C000000)
  | .set15 => (0xFFFFFFFF, 0x50000000)
  | .clr15 => (0xFFFFFFFF, 0x51000000)
  | .set40 => (0xFFFFFFFF, 0x52000000)
  | .clr40 => (0xFFFFFFFF, 0x53000000)
  | .m2 => (0xFFFFFFFF, 0x54000000)
  | .m0 => (0xFFFFFFFF, 0x55000000)
  | .rreg _ => (0xFF00FFFF, 0x58000000)
  | .wreg _ _ => (0xFF000000, 0x59000000)
  | .rdDCoef _ => (0xFFFFFFF0, 0x0000FFA0)
  | .wrDCoef _ _ => (0xFFFFFFF0, 0x0001FFA0)
  | .rdHCoef _ => (0xFFFFFFF0, 0x0002FFA0)
  | .wrHCoef _ _ => (0xFFFFFFF0, 0x0003FFA0)
  | .rdDDscr => (0xFFFFFFFF, 0x0000FFC9)
  | .wrDDscr _ => (0xFFFFFFFF, 0x0001FFC9)
  | .rdHDscr => (0xFFFFFFFF, 0x0002FFC9)
  | .wrHDscr _ => (0xFFFFFFFF, 0x0003FFC9)
  | .rdDDsbl => (0xFFFFFFFF, 0x0000FFCB)
  | .wrDDsbl _ => (0xFFFFFFFF, 0x0001FFCB)
  | .rdHDsbl => (0xFFFFFFFF, 0x0002FFCB)
  | .wrHDsbl _ => (0xFFFFFFFF, 0x0003FFCB)
  | .rdDDspa => (0xFFFFFFFF, 0x0000FFCD)
  | .wrDDspa _ => (0xFFFFFFFF, 0x0001FFCD)
  | .rdHDspa => (0xFFFFFFFF, 0x0002FFCD)
  | .wrHDspa _ => (0xFFFFFFFF, 0x0003FFCD)
  | .rdDDsmah => (0xFFFFFFFF, 0x0000FFCE)
  | .wrDDsmah _ => (0xFFFFFFFF, 0x0001FFCE)
  | .rdHDsmah => (0xFFFFFFFF, 0x0002FFCE)
  | .wrHDsmah _ => (0xFFFFFFFF, 0x0003FFCE)
  | .rdDDsmal => (0xFFFFFFFF, 0x0000FFCF)
  | .wrDDsmal _ => (0xFFFFFFFF, 0x0001FFCF)
  | .rdHDsmal => (0xFFFFFFFF, 0x0002FFCF)
  | .wrHDsmal _ => (0xFFFFFFFF, 0x0003FFCF)
  | .rdDFmt => (0xFFFFFFFF, 0x0000FFD1)
  | .wrDFmt _ => (0xFFFFFFFF, 0x0001FFD1)
  | .rdHFmt => (0xFFFFFFFF, 0x0002FFD1)
  | .wrHFmt _ => (0xFFFFFFFF, 0x0003FFD1)
  | .rdDAcdat1 => (0xFFFFFFFF, 0x0000FFD3)
  | .wrDAcdat1 _ => (0xFFFFFFFF, 0x0001FFD3)
  | .rdHAcdat1 => (0xFFFFFFFF, 0x0002FFD3)
  | .wrHAcdat1 _ => (0xFFFFFFFF, 0x0003FFD3)
  | .rdDAcsah => (0xFFFFFFFF, 0x0000FFD4)
  | .wrDAcsah _ => (0xFFFFFFFF, 0x0001FFD4)
  | .rdHAcsah => (0xFFFFFFFF, 0x0002FFD4)
  | .wrHAcsah _ => (0xFFFFFFFF, 0x0003FFD4)
  | .rdDAcsal => (0xFFFFFFFF, 0x0000FFD5)
  | .wrDAcsal _ => (0xFFFFFFFF, 0x0001FFD5)
  | .rdHAcsal => (0xFFFFFFFF, 0x0002FFD5)
  | .wrHAcsal _ => (0xFFFFFFFF, 0x0003FFD5)
  | .rdDAceah => (0xFFFFFFFF, 0x0000FFD6)
  | .wrDAceah _ => (0xFFFFFFFF, 0x0001FFD6)
  | .rdHAceah => (0xFFFFFFFF, 0x0002FFD6)
  | .wrHAceah _ => (0xFFFFFFFF, 0x0003FFD6)
  | .rdDAceal => (0xFFFFFFFF, 0x0000FFD7)
  | .wrDAceal _ => (0xFFFFFFFF, 0x0001FFD7)
  | .rdHAceal => (0xFFFFFFFF, 0x0002FFD7)
  | .wrHAceal _ => (0xFFFFFFFF, 0x0003FFD7)
  | .rdDAccah => (0xFFFFFFFF, 0x0000FFD8)
  | .wrDAccah _ => (0xFFFFFFFF, 0x0001FFD8)
  | .rdHAccah => (0xFFFFFFFF, 0x0002FFD8)
  | .wrHAccah _ => (0xFFFFFFFF, 0x0003FFD8)
  | .rdDAccal => (0xFFFFFFFF, 0x0000FFD9)
  | .wrDAccal _ => (0xFFFFFFFF, 0x0001FFD9)
  | .rdHAccal => (0xFFFFFFFF, 0x0002FFD9)
  | .wrHAccal _ => (0xFFFFFFFF, 0x0003FFD9)
  | .rdDPs => (0xFFFFFFFF, 0x0000FFDA)
  | .wrDPs _ => (0xFFFFFFFF, 0x0001FFDA)
  | .rdHPs => (0xFFFFFFFF, 0x0002FFDA)
  | .wrHPs _ => (0xFFFFFFFF, 0x0003FFDA)
  | .rdDYn1 => (0xFFFFFFFF, 0x0000FFDB)
  | .wrDYn1 _ => (0xFFFFFFFF, 0x0001FFDB)
  | .rdHYn1 => (0xFFFFFFFF, 0x0002FFDB)
  | .wrHYn1 _ => (0xFFFFFFFF, 0x0003FFDB)
  | .rdDYn2 => (0xFFFFFFFF, 0x0000FFDC)
  | .wrDYn2 _ => (0xFFFFFFFF, 0x0001FFDC)
  | .rdHYn2 => (0xFFFFFFFF, 0x0002FFDC)
  | .wrHYn2 _ => (0xFFFFFFFF, 0x0003FFDC)
  | .rdDAcdat => (0xFFFFFFFF, 0x0000FFDD)
  | .wrDAcdat _ => (0xFFFFFFFF, 0x0001FFDD)
  | .rdHAcdat => (0xFFFFFFFF, 0x0002FFDD)
  | .wrHAcdat _ => (0xFFFFFFFF, 0x0003FFDD)
  | .rdDGain => (0xFFFFFFFF, 0x0000FFDE)
  | .wrDGain _ => (0xFFFFFFFF, 0x0001FFDE)
  | .rdHGain => (0xFFFFFFFF, 0x0002FFDE)
  | .wrHGain _ => (0xFFFFFFFF, 0x0003FFDE)
  | .rdDDirq => (0xFFFFFFFF, 0x0000FFFB)
  | .wrDDirq _ => (0xFFFFFFFF, 0x0001FFFB)
  | .rdHDirq => (0xFFFFFFFF, 0x0002FFFB)
  | .wrHDirq _ => (0xFFFFFFFF, 0x0003FFFB)
  | .rdDDmbh => (0xFFFFFFFF, 0x0000FFFC)
  | .wrDDmbh _ => (0xFFFFFFFF, 0x0001FFFC)
  | .rdHDmbh => (0xFFFFFFFF, 0x0002FFFC)
  | .wrHDmbh _ => (0xFFFFFFFF, 0x0003FFFC)
  | .rdDDmbl => (0xFFFFFFFF, 0x0000FFFD)
  | .wrDDmbl _ => (0xFFFFFFFF, 0x0001FFFD)
  | .rdHDmbl => (0xFFFFFFFF, 0x0002FFFD)
  | .wrHDmbl _ => (0xFFFFFFFF, 0x0003FFFD)
  | .rdDCmbh => (0xFFFFFFFF, 0x0000FFFE)
  | .wrDCmbh _ => (0xFFFFFFFF, 0x0001FFFE)
  | .rdHCmbh => (0xFFFFFFFF, 0x0002FFFE)
  | .wrHCmbh _ => (0xFFFFFFFF, 0x0003FFFE)
  | .rdDCmbl => (0xFFFFFFFF, 0x0000FFFF)
  | .wrDCmbl _ => (0xFFFFFFFF, 0x0001FFFF)
  | .rdHCmbl => (0xFFFFFFFF, 0x0002FFFF)
  | .wrHCmbl _ => (0xFFFFFFFF, 0x0003FFFF)
  | .unknownD _ _ _ => (0xFFFEFF00, 0x0000FF00)
  | .unknownH _ _ _ => (0xFFFEFF00, 0x0002FF00)

/-- The word agrees with the row on the row's fixed bits. -/
def TableRow.Statement (i : Instr) : Prop := (encode .standard i).word &&& (tableRow i).1 = (tableRow i).2

/-- A word with an immediate below its fixed bits. -/
theorem row_imm (x k imm : BitVec 16) (m q : Word) (hm : m = k ++ 0#16) (hq : (x &&& k) ++ 0#16 = q) :
    (x ++ imm) &&& m = q := by
  rw [hm, BitVec.and_append, BitVec.and_zero, hq]

theorem row_imm8 (x k : BitVec 16) (imm : BitVec 8) (m q : Word) (hm : m = k ++ (0xFF#8 ++ 0#8))
    (hq : (x &&& k) ++ 0#16 = q) : (x ++ (0#8 ++ imm)) &&& m = q := by
  rw [hm, BitVec.and_append, BitVec.and_append, BitVec.and_zero, BitVec.zero_and, ← hq]
  rfl

theorem row_imm6 (x k : BitVec 16) (n : BitVec 6) (m q : Word) (hm : m = k ++ (0x3FF#10 ++ 0#6))
    (hq : (x &&& k) ++ 0#16 = q) : (x ++ (0#10 ++ n)) &&& m = q := by
  rw [hm, BitVec.and_append, BitVec.and_append, BitVec.and_zero, BitVec.zero_and, ← hq]
  rfl


theorem TableRow.clr (d : AccId) : TableRow.Statement (.clr d) := by
  cases d <;> rfl
theorem TableRow.add (d : AccId) : TableRow.Statement (.add d) := by
  cases d <;> rfl
theorem TableRow.addr (d : AccId) (r : AxReg) : TableRow.Statement (.addr d r) := by
  cases d <;> cases r <;> rfl
theorem TableRow.addax (d : AccId) (x : AxId) : TableRow.Statement (.addax d x) := by
  cases d <;> cases x <;> rfl
theorem TableRow.addp (d : AccId) : TableRow.Statement (.addp d) := by
  cases d <;> rfl
theorem TableRow.addi (d : AccId) (imm : BitVec 16) : TableRow.Statement (.addi d imm) := by
  cases d <;> exact row_imm _ 0xFF7F _ _ _ rfl (by dsimp only [tableRow]; decide)
theorem TableRow.addis (d : AccId) (imm : BitVec 8) : TableRow.Statement (.addis d imm) := by
  cases d <;> exact row_imm8 _ 0xFF7F _ _ _ rfl (by dsimp only [tableRow]; decide)
theorem TableRow.sub (d : AccId) : TableRow.Statement (.sub d) := by
  cases d <;> rfl
theorem TableRow.subr (d : AccId) (r : AxReg) : TableRow.Statement (.subr d r) := by
  cases d <;> cases r <;> rfl
theorem TableRow.subax (d : AccId) (x : AxId) : TableRow.Statement (.subax d x) := by
  cases d <;> cases x <;> rfl
theorem TableRow.subp (d : AccId) : TableRow.Statement (.subp d) := by
  cases d <;> rfl
theorem TableRow.inc (d : AccId) : TableRow.Statement (.inc d) := by
  cases d <;> rfl
theorem TableRow.dec (d : AccId) : TableRow.Statement (.dec d) := by
  cases d <;> rfl
theorem TableRow.incm (d : AccId) : TableRow.Statement (.incm d) := by
  cases d <;> rfl
theorem TableRow.decm (d : AccId) : TableRow.Statement (.decm d) := by
  cases d <;> rfl
theorem TableRow.neg (d : AccId) : TableRow.Statement (.neg d) := by
  cases d <;> rfl
theorem TableRow.abs (d : AccId) : TableRow.Statement (.abs d) := by
  cases d <;> rfl
theorem TableRow.cmp : TableRow.Statement .cmp := rfl
theorem TableRow.cmpi (d : AccId) (imm : BitVec 16) : TableRow.Statement (.cmpi d imm) := by
  cases d <;> exact row_imm _ 0xFF7F _ _ _ rfl (by dsimp only [tableRow]; decide)
theorem TableRow.tst (d : AccId) : TableRow.Statement (.tst d) := by
  cases d <;> rfl
theorem TableRow.tstaxh (x : AxId) : TableRow.Statement (.tstaxh x) := by
  cases x <;> rfl
theorem TableRow.mov (d : AccId) : TableRow.Statement (.mov d) := by
  cases d <;> rfl
theorem TableRow.movr (d : AccId) (r : AxReg) : TableRow.Statement (.movr d r) := by
  cases d <;> cases r <;> rfl
theorem TableRow.movax (d : AccId) (x : AxId) : TableRow.Statement (.movax d x) := by
  cases d <;> cases x <;> rfl
theorem TableRow.movp (d : AccId) : TableRow.Statement (.movp d) := by
  cases d <;> rfl
theorem TableRow.movnp (d : AccId) : TableRow.Statement (.movnp d) := by
  cases d <;> rfl
theorem TableRow.andr (d : AccId) (x : AxId) : TableRow.Statement (.andr d x) := by
  cases d <;> cases x <;> rfl
theorem TableRow.orr (d : AccId) (x : AxId) : TableRow.Statement (.orr d x) := by
  cases d <;> cases x <;> rfl
theorem TableRow.xorr (d : AccId) (x : AxId) : TableRow.Statement (.xorr d x) := by
  cases d <;> cases x <;> rfl
theorem TableRow.andc (d : AccId) : TableRow.Statement (.andc d) := by
  cases d <;> rfl
theorem TableRow.orc (d : AccId) : TableRow.Statement (.orc d) := by
  cases d <;> rfl
theorem TableRow.xorc (d : AccId) : TableRow.Statement (.xorc d) := by
  cases d <;> rfl
theorem TableRow.andi (d : AccId) (imm : BitVec 16) : TableRow.Statement (.andi d imm) := by
  cases d <;> exact row_imm _ 0xFF7F _ _ _ rfl (by dsimp only [tableRow]; decide)
theorem TableRow.ori (d : AccId) (imm : BitVec 16) : TableRow.Statement (.ori d imm) := by
  cases d <;> exact row_imm _ 0xFF7F _ _ _ rfl (by dsimp only [tableRow]; decide)
theorem TableRow.xori (d : AccId) (imm : BitVec 16) : TableRow.Statement (.xori d imm) := by
  cases d <;> exact row_imm _ 0xFF7F _ _ _ rfl (by dsimp only [tableRow]; decide)
theorem TableRow.not (d : AccId) : TableRow.Statement (.not d) := by
  cases d <;> rfl
theorem TableRow.andf (d : AccId) (imm : BitVec 16) : TableRow.Statement (.andf d imm) := by
  cases d <;> exact row_imm _ 0xFF7F _ _ _ rfl (by dsimp only [tableRow]; decide)
theorem TableRow.andcf (d : AccId) (imm : BitVec 16) : TableRow.Statement (.andcf d imm) := by
  cases d <;> exact row_imm _ 0xFF7F _ _ _ rfl (by dsimp only [tableRow]; decide)
theorem TableRow.lsl (d : AccId) (n : BitVec 6) : TableRow.Statement (.lsl d n) := by
  cases d <;> exact row_imm6 _ 0xFF7F _ _ _ rfl (by dsimp only [tableRow]; decide)
theorem TableRow.lsr (d : AccId) (n : BitVec 6) : TableRow.Statement (.lsr d n) := by
  cases d <;> exact row_imm6 _ 0xFF7F _ _ _ rfl (by dsimp only [tableRow]; decide)
theorem TableRow.asl (d : AccId) (n : BitVec 6) : TableRow.Statement (.asl d n) := by
  cases d <;> exact row_imm6 _ 0xFF7F _ _ _ rfl (by dsimp only [tableRow]; decide)
theorem TableRow.asr (d : AccId) (n : BitVec 6) : TableRow.Statement (.asr d n) := by
  cases d <;> exact row_imm6 _ 0xFF7F _ _ _ rfl (by dsimp only [tableRow]; decide)
theorem TableRow.lsl16 (d : AccId) : TableRow.Statement (.lsl16 d) := by
  cases d <;> rfl
theorem TableRow.lsr16 (d : AccId) : TableRow.Statement (.lsr16 d) := by
  cases d <;> rfl
theorem TableRow.asr16 (d : AccId) : TableRow.Statement (.asr16 d) := by
  cases d <;> rfl
theorem TableRow.mul (x : AxId) : TableRow.Statement (.mul x) := by
  cases x <;> rfl
theorem TableRow.mulx (h0 : AxHalf) (h1 : AxHalf) : TableRow.Statement (.mulx h0 h1) := by
  cases h0 <;> cases h1 <;> rfl
theorem TableRow.mulc (d : AccId) (x : AxId) : TableRow.Statement (.mulc d x) := by
  cases d <;> cases x <;> rfl
theorem TableRow.mulac (d : AccId) (x : AxId) : TableRow.Statement (.mulac d x) := by
  cases d <;> cases x <;> rfl
theorem TableRow.mulmv (d : AccId) (x : AxId) : TableRow.Statement (.mulmv d x) := by
  cases d <;> cases x <;> rfl
theorem TableRow.madd (x : AxId) : TableRow.Statement (.madd x) := by
  cases x <;> rfl
theorem TableRow.msub (x : AxId) : TableRow.Statement (.msub x) := by
  cases x <;> rfl
theorem TableRow.maddx (h0 : AxHalf) (h1 : AxHalf) : TableRow.Statement (.maddx h0 h1) := by
  cases h0 <;> cases h1 <;> rfl
theorem TableRow.msubx (h0 : AxHalf) (h1 : AxHalf) : TableRow.Statement (.msubx h0 h1) := by
  cases h0 <;> cases h1 <;> rfl
theorem TableRow.maddc (d : AccId) (x : AxId) : TableRow.Statement (.maddc d x) := by
  cases d <;> cases x <;> rfl
theorem TableRow.msubc (d : AccId) (x : AxId) : TableRow.Statement (.msubc d x) := by
  cases d <;> cases x <;> rfl
theorem TableRow.clrp : TableRow.Statement .clrp := rfl
theorem TableRow.tstprod : TableRow.Statement .tstprod := rfl
theorem TableRow.set15 : TableRow.Statement .set15 := rfl
theorem TableRow.clr15 : TableRow.Statement .clr15 := rfl
theorem TableRow.set40 : TableRow.Statement .set40 := rfl
theorem TableRow.clr40 : TableRow.Statement .clr40 := rfl
theorem TableRow.m2 : TableRow.Statement .m2 := rfl
theorem TableRow.m0 : TableRow.Statement .m0 := rfl
theorem TableRow.rreg (r : Reg) : TableRow.Statement (.rreg r) := by
  cases r <;> first | rfl | (rename_i q; cases q <;> rfl)
theorem TableRow.wreg (r : Reg) (v : BitVec 16) : TableRow.Statement (.wreg r v) := by
  cases r <;> first
    | exact row_imm _ 0xFF00 _ _ _ rfl (by dsimp only [tableRow]; decide)
    | (rename_i q; cases q <;> exact row_imm _ 0xFF00 _ _ _ rfl (by dsimp only [tableRow]; decide))
theorem TableRow.rdDCoef (i : BitVec 4) : TableRow.Statement (.rdDCoef i) := by
  unfold TableRow.Statement; revert i; decide
theorem TableRow.wrDCoef (i : BitVec 4) (v : BitVec 16) : TableRow.Statement (.wrDCoef i v) := by
  change txnWord .dsp .write (IfxMap.standard.addr (.coef i)) &&& 0xFFFFFFF0 = 0x0001FFA0
  revert i; decide
theorem TableRow.rdHCoef (i : BitVec 4) : TableRow.Statement (.rdHCoef i) := by
  unfold TableRow.Statement; revert i; decide
theorem TableRow.wrHCoef (i : BitVec 4) (v : BitVec 16) : TableRow.Statement (.wrHCoef i v) := by
  change txnWord .host .write (IfxMap.standard.addr (.coef i)) &&& 0xFFFFFFF0 = 0x0003FFA0
  revert i; decide
theorem TableRow.rdDDscr : TableRow.Statement .rdDDscr := rfl
theorem TableRow.wrDDscr (v : BitVec 16) : TableRow.Statement (.wrDDscr v) := by
  change txnWord .dsp .write (IfxMap.standard.addr .dscr) &&& 0xFFFFFFFF = 0x0001FFC9
  decide
theorem TableRow.rdHDscr : TableRow.Statement .rdHDscr := rfl
theorem TableRow.wrHDscr (v : BitVec 16) : TableRow.Statement (.wrHDscr v) := by
  change txnWord .host .write (IfxMap.standard.addr .dscr) &&& 0xFFFFFFFF = 0x0003FFC9
  decide
theorem TableRow.rdDDsbl : TableRow.Statement .rdDDsbl := rfl
theorem TableRow.wrDDsbl (v : BitVec 16) : TableRow.Statement (.wrDDsbl v) := by
  change txnWord .dsp .write (IfxMap.standard.addr .dsbl) &&& 0xFFFFFFFF = 0x0001FFCB
  decide
theorem TableRow.rdHDsbl : TableRow.Statement .rdHDsbl := rfl
theorem TableRow.wrHDsbl (v : BitVec 16) : TableRow.Statement (.wrHDsbl v) := by
  change txnWord .host .write (IfxMap.standard.addr .dsbl) &&& 0xFFFFFFFF = 0x0003FFCB
  decide
theorem TableRow.rdDDspa : TableRow.Statement .rdDDspa := rfl
theorem TableRow.wrDDspa (v : BitVec 16) : TableRow.Statement (.wrDDspa v) := by
  change txnWord .dsp .write (IfxMap.standard.addr .dspa) &&& 0xFFFFFFFF = 0x0001FFCD
  decide
theorem TableRow.rdHDspa : TableRow.Statement .rdHDspa := rfl
theorem TableRow.wrHDspa (v : BitVec 16) : TableRow.Statement (.wrHDspa v) := by
  change txnWord .host .write (IfxMap.standard.addr .dspa) &&& 0xFFFFFFFF = 0x0003FFCD
  decide
theorem TableRow.rdDDsmah : TableRow.Statement .rdDDsmah := rfl
theorem TableRow.wrDDsmah (v : BitVec 16) : TableRow.Statement (.wrDDsmah v) := by
  change txnWord .dsp .write (IfxMap.standard.addr .dsmah) &&& 0xFFFFFFFF = 0x0001FFCE
  decide
theorem TableRow.rdHDsmah : TableRow.Statement .rdHDsmah := rfl
theorem TableRow.wrHDsmah (v : BitVec 16) : TableRow.Statement (.wrHDsmah v) := by
  change txnWord .host .write (IfxMap.standard.addr .dsmah) &&& 0xFFFFFFFF = 0x0003FFCE
  decide
theorem TableRow.rdDDsmal : TableRow.Statement .rdDDsmal := rfl
theorem TableRow.wrDDsmal (v : BitVec 16) : TableRow.Statement (.wrDDsmal v) := by
  change txnWord .dsp .write (IfxMap.standard.addr .dsmal) &&& 0xFFFFFFFF = 0x0001FFCF
  decide
theorem TableRow.rdHDsmal : TableRow.Statement .rdHDsmal := rfl
theorem TableRow.wrHDsmal (v : BitVec 16) : TableRow.Statement (.wrHDsmal v) := by
  change txnWord .host .write (IfxMap.standard.addr .dsmal) &&& 0xFFFFFFFF = 0x0003FFCF
  decide
theorem TableRow.rdDFmt : TableRow.Statement .rdDFmt := rfl
theorem TableRow.wrDFmt (v : BitVec 16) : TableRow.Statement (.wrDFmt v) := by
  change txnWord .dsp .write (IfxMap.standard.addr .fmt) &&& 0xFFFFFFFF = 0x0001FFD1
  decide
theorem TableRow.rdHFmt : TableRow.Statement .rdHFmt := rfl
theorem TableRow.wrHFmt (v : BitVec 16) : TableRow.Statement (.wrHFmt v) := by
  change txnWord .host .write (IfxMap.standard.addr .fmt) &&& 0xFFFFFFFF = 0x0003FFD1
  decide
theorem TableRow.rdDAcdat1 : TableRow.Statement .rdDAcdat1 := rfl
theorem TableRow.wrDAcdat1 (v : BitVec 16) : TableRow.Statement (.wrDAcdat1 v) := by
  change txnWord .dsp .write (IfxMap.standard.addr .acdat1) &&& 0xFFFFFFFF = 0x0001FFD3
  decide
theorem TableRow.rdHAcdat1 : TableRow.Statement .rdHAcdat1 := rfl
theorem TableRow.wrHAcdat1 (v : BitVec 16) : TableRow.Statement (.wrHAcdat1 v) := by
  change txnWord .host .write (IfxMap.standard.addr .acdat1) &&& 0xFFFFFFFF = 0x0003FFD3
  decide
theorem TableRow.rdDAcsah : TableRow.Statement .rdDAcsah := rfl
theorem TableRow.wrDAcsah (v : BitVec 16) : TableRow.Statement (.wrDAcsah v) := by
  change txnWord .dsp .write (IfxMap.standard.addr .acsah) &&& 0xFFFFFFFF = 0x0001FFD4
  decide
theorem TableRow.rdHAcsah : TableRow.Statement .rdHAcsah := rfl
theorem TableRow.wrHAcsah (v : BitVec 16) : TableRow.Statement (.wrHAcsah v) := by
  change txnWord .host .write (IfxMap.standard.addr .acsah) &&& 0xFFFFFFFF = 0x0003FFD4
  decide
theorem TableRow.rdDAcsal : TableRow.Statement .rdDAcsal := rfl
theorem TableRow.wrDAcsal (v : BitVec 16) : TableRow.Statement (.wrDAcsal v) := by
  change txnWord .dsp .write (IfxMap.standard.addr .acsal) &&& 0xFFFFFFFF = 0x0001FFD5
  decide
theorem TableRow.rdHAcsal : TableRow.Statement .rdHAcsal := rfl
theorem TableRow.wrHAcsal (v : BitVec 16) : TableRow.Statement (.wrHAcsal v) := by
  change txnWord .host .write (IfxMap.standard.addr .acsal) &&& 0xFFFFFFFF = 0x0003FFD5
  decide
theorem TableRow.rdDAceah : TableRow.Statement .rdDAceah := rfl
theorem TableRow.wrDAceah (v : BitVec 16) : TableRow.Statement (.wrDAceah v) := by
  change txnWord .dsp .write (IfxMap.standard.addr .aceah) &&& 0xFFFFFFFF = 0x0001FFD6
  decide
theorem TableRow.rdHAceah : TableRow.Statement .rdHAceah := rfl
theorem TableRow.wrHAceah (v : BitVec 16) : TableRow.Statement (.wrHAceah v) := by
  change txnWord .host .write (IfxMap.standard.addr .aceah) &&& 0xFFFFFFFF = 0x0003FFD6
  decide
theorem TableRow.rdDAceal : TableRow.Statement .rdDAceal := rfl
theorem TableRow.wrDAceal (v : BitVec 16) : TableRow.Statement (.wrDAceal v) := by
  change txnWord .dsp .write (IfxMap.standard.addr .aceal) &&& 0xFFFFFFFF = 0x0001FFD7
  decide
theorem TableRow.rdHAceal : TableRow.Statement .rdHAceal := rfl
theorem TableRow.wrHAceal (v : BitVec 16) : TableRow.Statement (.wrHAceal v) := by
  change txnWord .host .write (IfxMap.standard.addr .aceal) &&& 0xFFFFFFFF = 0x0003FFD7
  decide
theorem TableRow.rdDAccah : TableRow.Statement .rdDAccah := rfl
theorem TableRow.wrDAccah (v : BitVec 16) : TableRow.Statement (.wrDAccah v) := by
  change txnWord .dsp .write (IfxMap.standard.addr .accah) &&& 0xFFFFFFFF = 0x0001FFD8
  decide
theorem TableRow.rdHAccah : TableRow.Statement .rdHAccah := rfl
theorem TableRow.wrHAccah (v : BitVec 16) : TableRow.Statement (.wrHAccah v) := by
  change txnWord .host .write (IfxMap.standard.addr .accah) &&& 0xFFFFFFFF = 0x0003FFD8
  decide
theorem TableRow.rdDAccal : TableRow.Statement .rdDAccal := rfl
theorem TableRow.wrDAccal (v : BitVec 16) : TableRow.Statement (.wrDAccal v) := by
  change txnWord .dsp .write (IfxMap.standard.addr .accal) &&& 0xFFFFFFFF = 0x0001FFD9
  decide
theorem TableRow.rdHAccal : TableRow.Statement .rdHAccal := rfl
theorem TableRow.wrHAccal (v : BitVec 16) : TableRow.Statement (.wrHAccal v) := by
  change txnWord .host .write (IfxMap.standard.addr .accal) &&& 0xFFFFFFFF = 0x0003FFD9
  decide
theorem TableRow.rdDPs : TableRow.Statement .rdDPs := rfl
theorem TableRow.wrDPs (v : BitVec 16) : TableRow.Statement (.wrDPs v) := by
  change txnWord .dsp .write (IfxMap.standard.addr .ps) &&& 0xFFFFFFFF = 0x0001FFDA
  decide
theorem TableRow.rdHPs : TableRow.Statement .rdHPs := rfl
theorem TableRow.wrHPs (v : BitVec 16) : TableRow.Statement (.wrHPs v) := by
  change txnWord .host .write (IfxMap.standard.addr .ps) &&& 0xFFFFFFFF = 0x0003FFDA
  decide
theorem TableRow.rdDYn1 : TableRow.Statement .rdDYn1 := rfl
theorem TableRow.wrDYn1 (v : BitVec 16) : TableRow.Statement (.wrDYn1 v) := by
  change txnWord .dsp .write (IfxMap.standard.addr .yn1) &&& 0xFFFFFFFF = 0x0001FFDB
  decide
theorem TableRow.rdHYn1 : TableRow.Statement .rdHYn1 := rfl
theorem TableRow.wrHYn1 (v : BitVec 16) : TableRow.Statement (.wrHYn1 v) := by
  change txnWord .host .write (IfxMap.standard.addr .yn1) &&& 0xFFFFFFFF = 0x0003FFDB
  decide
theorem TableRow.rdDYn2 : TableRow.Statement .rdDYn2 := rfl
theorem TableRow.wrDYn2 (v : BitVec 16) : TableRow.Statement (.wrDYn2 v) := by
  change txnWord .dsp .write (IfxMap.standard.addr .yn2) &&& 0xFFFFFFFF = 0x0001FFDC
  decide
theorem TableRow.rdHYn2 : TableRow.Statement .rdHYn2 := rfl
theorem TableRow.wrHYn2 (v : BitVec 16) : TableRow.Statement (.wrHYn2 v) := by
  change txnWord .host .write (IfxMap.standard.addr .yn2) &&& 0xFFFFFFFF = 0x0003FFDC
  decide
theorem TableRow.rdDAcdat : TableRow.Statement .rdDAcdat := rfl
theorem TableRow.wrDAcdat (v : BitVec 16) : TableRow.Statement (.wrDAcdat v) := by
  change txnWord .dsp .write (IfxMap.standard.addr .acdat) &&& 0xFFFFFFFF = 0x0001FFDD
  decide
theorem TableRow.rdHAcdat : TableRow.Statement .rdHAcdat := rfl
theorem TableRow.wrHAcdat (v : BitVec 16) : TableRow.Statement (.wrHAcdat v) := by
  change txnWord .host .write (IfxMap.standard.addr .acdat) &&& 0xFFFFFFFF = 0x0003FFDD
  decide
theorem TableRow.rdDGain : TableRow.Statement .rdDGain := rfl
theorem TableRow.wrDGain (v : BitVec 16) : TableRow.Statement (.wrDGain v) := by
  change txnWord .dsp .write (IfxMap.standard.addr .gain) &&& 0xFFFFFFFF = 0x0001FFDE
  decide
theorem TableRow.rdHGain : TableRow.Statement .rdHGain := rfl
theorem TableRow.wrHGain (v : BitVec 16) : TableRow.Statement (.wrHGain v) := by
  change txnWord .host .write (IfxMap.standard.addr .gain) &&& 0xFFFFFFFF = 0x0003FFDE
  decide
theorem TableRow.rdDDirq : TableRow.Statement .rdDDirq := rfl
theorem TableRow.wrDDirq (v : BitVec 16) : TableRow.Statement (.wrDDirq v) := by
  change txnWord .dsp .write (IfxMap.standard.addr .dirq) &&& 0xFFFFFFFF = 0x0001FFFB
  decide
theorem TableRow.rdHDirq : TableRow.Statement .rdHDirq := rfl
theorem TableRow.wrHDirq (v : BitVec 16) : TableRow.Statement (.wrHDirq v) := by
  change txnWord .host .write (IfxMap.standard.addr .dirq) &&& 0xFFFFFFFF = 0x0003FFFB
  decide
theorem TableRow.rdDDmbh : TableRow.Statement .rdDDmbh := rfl
theorem TableRow.wrDDmbh (v : BitVec 16) : TableRow.Statement (.wrDDmbh v) := by
  change txnWord .dsp .write (IfxMap.standard.addr .dmbh) &&& 0xFFFFFFFF = 0x0001FFFC
  decide
theorem TableRow.rdHDmbh : TableRow.Statement .rdHDmbh := rfl
theorem TableRow.wrHDmbh (v : BitVec 16) : TableRow.Statement (.wrHDmbh v) := by
  change txnWord .host .write (IfxMap.standard.addr .dmbh) &&& 0xFFFFFFFF = 0x0003FFFC
  decide
theorem TableRow.rdDDmbl : TableRow.Statement .rdDDmbl := rfl
theorem TableRow.wrDDmbl (v : BitVec 16) : TableRow.Statement (.wrDDmbl v) := by
  change txnWord .dsp .write (IfxMap.standard.addr .dmbl) &&& 0xFFFFFFFF = 0x0001FFFD
  decide
theorem TableRow.rdHDmbl : TableRow.Statement .rdHDmbl := rfl
theorem TableRow.wrHDmbl (v : BitVec 16) : TableRow.Statement (.wrHDmbl v) := by
  change txnWord .host .write (IfxMap.standard.addr .dmbl) &&& 0xFFFFFFFF = 0x0003FFFD
  decide
theorem TableRow.rdDCmbh : TableRow.Statement .rdDCmbh := rfl
theorem TableRow.wrDCmbh (v : BitVec 16) : TableRow.Statement (.wrDCmbh v) := by
  change txnWord .dsp .write (IfxMap.standard.addr .cmbh) &&& 0xFFFFFFFF = 0x0001FFFE
  decide
theorem TableRow.rdHCmbh : TableRow.Statement .rdHCmbh := rfl
theorem TableRow.wrHCmbh (v : BitVec 16) : TableRow.Statement (.wrHCmbh v) := by
  change txnWord .host .write (IfxMap.standard.addr .cmbh) &&& 0xFFFFFFFF = 0x0003FFFE
  decide
theorem TableRow.rdDCmbl : TableRow.Statement .rdDCmbl := rfl
theorem TableRow.wrDCmbl (v : BitVec 16) : TableRow.Statement (.wrDCmbl v) := by
  change txnWord .dsp .write (IfxMap.standard.addr .cmbl) &&& 0xFFFFFFFF = 0x0001FFFF
  decide
theorem TableRow.rdHCmbl : TableRow.Statement .rdHCmbl := rfl
theorem TableRow.wrHCmbl (v : BitVec 16) : TableRow.Statement (.wrHCmbl v) := by
  change txnWord .host .write (IfxMap.standard.addr .cmbl) &&& 0xFFFFFFFF = 0x0003FFFF
  decide
theorem TableRow.unknownD (dir : Dir) (lo : BitVec 8) (v : BitVec 16) : TableRow.Statement (.unknownD dir lo v) := by
  change txnWord .dsp dir (blockAddr lo) &&& 0xFFFEFF00 = 0x0000FF00
  cases dir <;> (revert lo; decide)
theorem TableRow.unknownH (dir : Dir) (lo : BitVec 8) (v : BitVec 16) : TableRow.Statement (.unknownH dir lo v) := by
  change txnWord .host dir (blockAddr lo) &&& 0xFFFEFF00 = 0x0002FF00
  cases dir <;> (revert lo; decide)

end Sys2Proof.Laws
end

