-- ==== Sys2Proof/Tests/Slice0.lean ====
section
/-! SUPPORT. Tests: ill-formed instructions, every constructor's word, one step per instruction with the spec's vectors
(95_test_vectors.md V1 to V12), and a witness for every statement that has hypotheses. -/

namespace Sys2Proof.Tests

open Sys2Proof.Machine Sys2Proof.Claim

/-! ### Well-formedness: each check refuses an ill-formed term -/

/-- 0xFFC9 is DSCR, an address the register map holds. -/
theorem test_wf_refuses_mapped_address : (Instr.unknownD .read 0xC9 0).wf .standard = false := by decide
theorem test_wf_refuses_mapped_address_host : (Instr.unknownH .write 0xFF 7).wf .standard = false := by decide
/-- A read carries no data (R100). -/
theorem test_wf_refuses_read_with_data : (Instr.unknownD .read 0x80 1).wf .standard = false := by decide
theorem test_wf_refuses_read_with_data_host : (Instr.unknownH .read 0x80 1).wf .standard = false := by decide
theorem test_wf_accepts_unmapped_write : (Instr.unknownD .write 0x80 1).wf .standard = true := by decide

/-! ### Decoding: every constructor's word, written from R100 to R108 -/

/-- Every word of a list, with data 0xBEEF beside it, decodes to its instruction. -/
def decodesAll (l : List (Word × Instr)) : Bool := l.all fun p => decide (decode .standard p.1 0xBEEF = some p.2)

theorem test_decode_additive : decodesAll
    [(0x01800000, .clr .ac1), (0x02800000, .add .ac1), (0x03A00000, .addr .ac1 .ax0h),
      (0x04900000, .addax .ac1 .ax1), (0x05800000, .addp .ac1), (0x06808001, .addi .ac1 0x8001),
      (0x07800081, .addis .ac1 0x81), (0x08800000, .sub .ac1), (0x09A00000, .subr .ac1 .ax0h),
      (0x0A900000, .subax .ac1 .ax1), (0x0B800000, .subp .ac1), (0x0C800000, .inc .ac1), (0x0D800000, .dec .ac1),
      (0x0E800000, .incm .ac1), (0x0F800000, .decm .ac1), (0x10800000, .neg .ac1), (0x11800000, .abs .ac1),
      (0x12000000, .cmp), (0x13808001, .cmpi .ac1 0x8001), (0x14800000, .tst .ac1), (0x15100000, .tstaxh .ax1),
      (0x16800000, .mov .ac1), (0x17A00000, .movr .ac1 .ax0h), (0x18900000, .movax .ac1 .ax1),
      (0x19800000, .movp .ac1), (0x1A800000, .movnp .ac1)] = true := by decide

theorem test_decode_logic_and_shift : decodesAll
    [(0x20900000, .andr .ac1 .ax1), (0x21900000, .orr .ac1 .ax1), (0x22900000, .xorr .ac1 .ax1),
      (0x23800000, .andc .ac1), (0x24800000, .orc .ac1), (0x25800000, .xorc .ac1), (0x26808001, .andi .ac1 0x8001),
      (0x27808001, .ori .ac1 0x8001), (0x28808001, .xori .ac1 0x8001), (0x29800000, .not .ac1),
      (0x2A808001, .andf .ac1 0x8001), (0x2B808001, .andcf .ac1 0x8001), (0x30800021, .lsl .ac1 0x21),
      (0x31800021, .lsr .ac1 0x21), (0x32800021, .asl .ac1 0x21), (0x33800021, .asr .ac1 0x21),
      (0x34800000, .lsl16 .ac1), (0x35800000, .lsr16 .ac1), (0x36800000, .asr16 .ac1)] = true := by decide

theorem test_decode_multiply : decodesAll
    [(0x40100000, .mul .ax1), (0x41200000, .mulx .high .low), (0x42900000, .mulc .ac1 .ax1),
      (0x43900000, .mulac .ac1 .ax1), (0x44900000, .mulmv .ac1 .ax1), (0x45100000, .madd .ax1),
      (0x46100000, .msub .ax1), (0x47200000, .maddx .high .low), (0x48200000, .msubx .high .low),
      (0x49900000, .maddc .ac1 .ax1), (0x4A900000, .msubc .ac1 .ax1), (0x4B000000, .clrp),
      (0x4C000000, .tstprod)] = true := by decide

theorem test_decode_mode_and_register : decodesAll
    [(0x50000000, .set15), (0x51000000, .clr15), (0x52000000, .set40), (0x53000000, .clr40), (0x54000000, .m2),
      (0x55000000, .m0), (0x581F0000, .rreg (.acM .ac1)),
      (0x59188001, .wreg (.axL .ax0) 0x8001)] = true := by decide

theorem test_decode_dsp_read : decodesAll
    [(0x0000FFA5, .rdDCoef 5), (0x0000FFC9, .rdDDscr), (0x0000FFCB, .rdDDsbl), (0x0000FFCD, .rdDDspa),
      (0x0000FFCE, .rdDDsmah), (0x0000FFCF, .rdDDsmal), (0x0000FFD1, .rdDFmt), (0x0000FFD3, .rdDAcdat1),
      (0x0000FFD4, .rdDAcsah), (0x0000FFD5, .rdDAcsal), (0x0000FFD6, .rdDAceah), (0x0000FFD7, .rdDAceal),
      (0x0000FFD8, .rdDAccah), (0x0000FFD9, .rdDAccal), (0x0000FFDA, .rdDPs), (0x0000FFDB, .rdDYn1),
      (0x0000FFDC, .rdDYn2), (0x0000FFDD, .rdDAcdat), (0x0000FFDE, .rdDGain), (0x0000FFFB, .rdDDirq),
      (0x0000FFFC, .rdDDmbh), (0x0000FFFD, .rdDDmbl), (0x0000FFFE, .rdDCmbh), (0x0000FFFF, .rdDCmbl),
      (0x0000FF80, .unknownD .read 0x80 0)] = true := by decide

theorem test_decode_dsp_write : decodesAll
    [(0x0001FFA5, .wrDCoef 5 0xBEEF), (0x0001FFC9, .wrDDscr 0xBEEF), (0x0001FFCB, .wrDDsbl 0xBEEF),
      (0x0001FFCD, .wrDDspa 0xBEEF), (0x0001FFCE, .wrDDsmah 0xBEEF), (0x0001FFCF, .wrDDsmal 0xBEEF),
      (0x0001FFD1, .wrDFmt 0xBEEF), (0x0001FFD3, .wrDAcdat1 0xBEEF), (0x0001FFD4, .wrDAcsah 0xBEEF),
      (0x0001FFD5, .wrDAcsal 0xBEEF), (0x0001FFD6, .wrDAceah 0xBEEF), (0x0001FFD7, .wrDAceal 0xBEEF),
      (0x0001FFD8, .wrDAccah 0xBEEF), (0x0001FFD9, .wrDAccal 0xBEEF), (0x0001FFDA, .wrDPs 0xBEEF),
      (0x0001FFDB, .wrDYn1 0xBEEF), (0x0001FFDC, .wrDYn2 0xBEEF), (0x0001FFDD, .wrDAcdat 0xBEEF),
      (0x0001FFDE, .wrDGain 0xBEEF), (0x0001FFFB, .wrDDirq 0xBEEF), (0x0001FFFC, .wrDDmbh 0xBEEF),
      (0x0001FFFD, .wrDDmbl 0xBEEF), (0x0001FFFE, .wrDCmbh 0xBEEF), (0x0001FFFF, .wrDCmbl 0xBEEF),
      (0x0001FF80, .unknownD .write 0x80 0xBEEF)] = true := by decide

theorem test_decode_host_read : decodesAll
    [(0x0002FFA5, .rdHCoef 5), (0x0002FFC9, .rdHDscr), (0x0002FFCB, .rdHDsbl), (0x0002FFCD, .rdHDspa),
      (0x0002FFCE, .rdHDsmah), (0x0002FFCF, .rdHDsmal), (0x0002FFD1, .rdHFmt), (0x0002FFD3, .rdHAcdat1),
      (0x0002FFD4, .rdHAcsah), (0x0002FFD5, .rdHAcsal), (0x0002FFD6, .rdHAceah), (0x0002FFD7, .rdHAceal),
      (0x0002FFD8, .rdHAccah), (0x0002FFD9, .rdHAccal), (0x0002FFDA, .rdHPs), (0x0002FFDB, .rdHYn1),
      (0x0002FFDC, .rdHYn2), (0x0002FFDD, .rdHAcdat), (0x0002FFDE, .rdHGain), (0x0002FFFB, .rdHDirq),
      (0x0002FFFC, .rdHDmbh), (0x0002FFFD, .rdHDmbl), (0x0002FFFE, .rdHCmbh), (0x0002FFFF, .rdHCmbl),
      (0x0002FF80, .unknownH .read 0x80 0)] = true := by decide

theorem test_decode_host_write : decodesAll
    [(0x0003FFA5, .wrHCoef 5 0xBEEF), (0x0003FFC9, .wrHDscr 0xBEEF), (0x0003FFCB, .wrHDsbl 0xBEEF),
      (0x0003FFCD, .wrHDspa 0xBEEF), (0x0003FFCE, .wrHDsmah 0xBEEF), (0x0003FFCF, .wrHDsmal 0xBEEF),
      (0x0003FFD1, .wrHFmt 0xBEEF), (0x0003FFD3, .wrHAcdat1 0xBEEF), (0x0003FFD4, .wrHAcsah 0xBEEF),
      (0x0003FFD5, .wrHAcsal 0xBEEF), (0x0003FFD6, .wrHAceah 0xBEEF), (0x0003FFD7, .wrHAceal 0xBEEF),
      (0x0003FFD8, .wrHAccah 0xBEEF), (0x0003FFD9, .wrHAccal 0xBEEF), (0x0003FFDA, .wrHPs 0xBEEF),
      (0x0003FFDB, .wrHYn1 0xBEEF), (0x0003FFDC, .wrHYn2 0xBEEF), (0x0003FFDD, .wrHAcdat 0xBEEF),
      (0x0003FFDE, .wrHGain 0xBEEF), (0x0003FFFB, .wrHDirq 0xBEEF), (0x0003FFFC, .wrHDmbh 0xBEEF),
      (0x0003FFFD, .wrHDmbl 0xBEEF), (0x0003FFFE, .wrHCmbh 0xBEEF), (0x0003FFFF, .wrHCmbl 0xBEEF),
      (0x0003FF80, .unknownH .write 0x80 0xBEEF)] = true := by decide

/-- Reserved ops, numbers that are no engine register, nonzero unused fields (R109, R111, V4.23). -/
theorem test_decode_refuses_reserved :
    ([0x00000000, 0x1B000000, 0x56000000, 0x57000000, 0x5A000000, 0xFF000000, 0x02100000, 0x03400000, 0x15800000,
      0x07000100, 0x02010000, 0x0004FFFF, 0x30000040, 0x58120000, 0x581E0001] : List Word).all
        (fun w => decide (decode .standard w 0 = none)) = true := by decide

theorem test_encode_wreg : (encode .standard (.wreg .sr 0x4000)).word = 0x59134000 := by decide
theorem test_encode_write_data : (encode .standard (.wrHCmbh 0x0ABC)).data = 0x0ABC := by decide

/-- R8, D2: under another register map the word of an address is another register's. -/
theorem test_decode_other_map :
    decode { IfxMap.standard with dscr := 0x80 } 0x0001FF80 7 = some (.wrDDscr 7) ∧
      decode { IfxMap.standard with dscr := 0x80 } 0x0001FFC9 7 = some (.unknownD .write 0xC9 7) := by decide

/-! ### One step per instruction -/

/-- The step that takes a word and its data, checked by `f`. -/
def runs (w : Word) (v : BitVec 16) (s : State) (f : State → Bool) : Bool :=
  match step (s.placeWord w v) with
  | .next t => f t
  | .fault _ => false
  | .refused _ => false

/-- An ALU command. -/
def cmd (w : Word) (s : State) (f : State → Bool) : Bool := runs w 0 s f

/-- Both accumulators. -/
def accs (a b : Acc) : State := (State.reset.setAcc .ac0 a).setAcc .ac1 b

/-- Both axN, the product and SR. -/
def muls (a b : BitVec 32) (p : Int) (sr : BitVec 16) (s : State) : State :=
  (((s.setAx .ax0 a).setAx .ax1 b).storeProd p).setSr sr

/-- The accumulator and the low 13 bits of SR. -/
def accIs (d : AccId) (v : Acc) (sr : BitVec 16) (t : State) : Bool := t.acc d == v && t.alu.sr &&& 0x1FFF == sr

def flagsAre (sr : BitVec 16) (t : State) : Bool := t.alu.sr &&& 0x1FFF == sr

def prodIs (v : Int) (t : State) : Bool := t.prod.toInt == v

/-- V1.1. -/
theorem test_clr :
    cmd 0x01000000 (accs 0x1234567890 0x0000000000) (accIs .ac0 0x0000000000 0x24) = true := by decide
/-- V1.3. -/
theorem test_add_past_32_bits :
    cmd 0x02000000 (accs 0x007FFFFFFF 0x0000000001) (accIs .ac0 0x0080000000 0x10) = true := by decide
/-- V1.5. -/
theorem test_add_overflow_and_carry :
    cmd 0x02000000 (accs 0x8000000000 0x8000000000) (accIs .ac0 0x0000000000 0xA7) = true := by decide
/-- V1.6. -/
theorem test_addr_sign_extends :
    cmd 0x03A00000 (muls 0x80000000 0x00000000 0 0x0000 State.reset)
      (accIs .ac1 0xFF80000000 0x08) = true := by decide
/-- V1.8. -/
theorem test_addax :
    cmd 0x04100000 (muls 0 0xFFFFFFFF 0 0 (accs 1 0)) (accIs .ac0 0x0000000000 0x25) = true := by decide
/-- V1.9. -/
theorem test_addp :
    cmd 0x05000000 (muls 0 0 32 0 (accs 16 0)) (accIs .ac0 0x0000000030 0x20) = true := by decide
/-- V1.11. -/
theorem test_addi :
    cmd 0x0600FFFF (accs 0x0000010000 0x0000000000) (accIs .ac0 0x0000000000 0x25) = true := by decide
/-- V1.14. -/
theorem test_addis_sign_extends :
    cmd 0x07000080 (accs 0x0000000000 0x0000000000) (accIs .ac0 0xFFFF800000 0x28) = true := by decide
/-- V1.19. -/
theorem test_sub :
    cmd 0x08000000 (accs 0x0000000003 0x0000000005) (accIs .ac0 0xFFFFFFFFFE 0x28) = true := by decide
/-- V1.20. -/
theorem test_subr :
    cmd 0x09100000 (muls 0x00000000 0x00000001 0 0x0000 State.reset)
      (accIs .ac0 0xFFFFFF0000 0x28) = true := by decide
/-- V1.21. -/
theorem test_subax_overflow :
    cmd 0x0A800000 (muls 1 0 0 0 (accs 0 0x8000000000)) (accIs .ac1 0x7FFFFFFFFF 0xB3) = true := by decide
/-- V1.22. -/
theorem test_subp :
    cmd 0x0B000000 (accs 0x0000000000 0x0000000000) (accIs .ac0 0x0000000000 0x25) = true := by decide
/-- V1.15. -/
theorem test_inc_wraps :
    cmd 0x0C000000 (accs 0xFFFFFFFFFF 0x0000000000) (accIs .ac0 0x0000000000 0x25) = true := by decide
/-- V1.24. -/
theorem test_dec :
    cmd 0x0D000000 (accs 0x8000000000 0x0000000000) (accIs .ac0 0x7FFFFFFFFF 0xB3) = true := by decide
/-- V1.17. -/
theorem test_incm :
    cmd 0x0E800000 (accs 0x0000000000 0x007FFF0000) (accIs .ac1 0x0080000000 0x10) = true := by decide
/-- V1.25. -/
theorem test_decm :
    cmd 0x0F800000 (accs 0x0000000000 0x0000010000) (accIs .ac1 0x0000000000 0x25) = true := by decide
/-- V1.27. -/
theorem test_neg_zero_carries :
    cmd 0x10000000 (accs 0x0000000000 0x0000000000) (accIs .ac0 0x0000000000 0x25) = true := by decide
/-- V1.28. -/
theorem test_neg_most_negative :
    cmd 0x10000000 (accs 0x8000000000 0x0000000000) (accIs .ac0 0x8000000000 0xBA) = true := by decide
/-- V1.29. -/
theorem test_abs :
    cmd 0x11000000 (accs 0xFFFFFFFFFB 0x0000000000) (accIs .ac0 0x0000000005 0x20) = true := by decide
/-- V1.30. -/
theorem test_abs_most_negative :
    cmd 0x11000000 (accs 0x8000000000 0x0000000000) (accIs .ac0 0x8000000000 0x38) = true := by decide
/-- V1.31. -/
theorem test_cmp : cmd 0x12000000 (accs 0x0000000003 0x0000000005) (flagsAre 0x28) = true := by decide
/-- V1.34. -/
theorem test_cmpi : cmd 0x13000005 (accs 0x0000050001 0x0000000000) (flagsAre 0x21) = true := by decide
/-- V1.35. -/
theorem test_tst : cmd 0x14800000 (accs 0x0000000000 0x0100000000) (flagsAre 0x30) = true := by decide
/-- V1.36. -/
theorem test_tstaxh :
    cmd 0x15100000 (muls 0x00000000 0x80000000 0 0x0000 State.reset) (flagsAre 0x08) = true := by decide
/-- V1.38. -/
theorem test_mov :
    cmd 0x16000000 (accs 0x0000000000 0xFFFFFFFFFF) (accIs .ac0 0xFFFFFFFFFF 0x28) = true := by decide
/-- V1.39. -/
theorem test_movr :
    cmd 0x17000000 (muls 0x4000 0 0 0 (accs 65535 0)) (accIs .ac0 0x0040000000 0x00) = true := by decide
/-- V1.40. -/
theorem test_movax :
    cmd 0x18900000 (muls 0x00000000 0x80000000 0 0x0000 State.reset)
      (accIs .ac1 0xFF80000000 0x08) = true := by decide
/-- V1.41. -/
theorem test_movp :
    cmd 0x19000000 (accs 0x0000000007 0x0000000000) (accIs .ac0 0x0000000000 0x24) = true := by decide
/-- V1.42. -/
theorem test_movnp :
    cmd 0x1A800000 (muls 0x00000000 0x00000000 16 0x0000 State.reset)
      (accIs .ac1 0xFFFFFFFFF0 0x28) = true := by decide
/-- V2.1. -/
theorem test_andr :
    cmd 0x20100000 (muls 0 0x0F0F0000 0 0 (accs 0x00FF001234 0))
      (accIs .ac0 0x000F001234 0x20) = true := by decide
/-- V2.2. -/
theorem test_orr :
    cmd 0x21800000 (muls 0x80000000 0x00000000 0 0x0000 State.reset)
      (accIs .ac1 0x0080000000 0x18) = true := by decide
/-- V2.3. -/
theorem test_xorr :
    cmd 0x22000000 (muls 0xFFFF0000 0 0 0 (accs 0x00FFFF0000 0))
      (accIs .ac0 0x0000000000 0x24) = true := by decide
/-- V2.4. -/
theorem test_andc :
    cmd 0x23000000 (accs 0x0012340000 0x0000FF0000) (accIs .ac0 0x0000340000 0x20) = true := by decide
/-- V2.5. -/
theorem test_orc :
    cmd 0x24800000 (accs 0x0000010000 0x0040000000) (accIs .ac1 0x0040010000 0x00) = true := by decide
/-- V2.6. -/
theorem test_xorc :
    cmd 0x25000000 (accs 0x00AAAA0000 0x00AAAA0000) (accIs .ac0 0x0000000000 0x24) = true := by decide
/-- V2.9. -/
theorem test_andi :
    cmd 0x260000FF (accs 0x0012340000 0x0000000000) (accIs .ac0 0x0000340000 0x20) = true := by decide
/-- V2.10. -/
theorem test_ori :
    cmd 0x2700C000 (accs 0x0000000000 0x0000000000) (accIs .ac0 0x00C0000000 0x38) = true := by decide
/-- V2.11. -/
theorem test_xori :
    cmd 0x288000FF (accs 0x0000000000 0x0000FF0000) (accIs .ac1 0x0000000000 0x24) = true := by decide
/-- V2.8. -/
theorem test_not_keeps_high_slice :
    cmd 0x29000000 (accs 0xFFFFFF0000 0x0000000000) (accIs .ac0 0xFF00000000 0x34) = true := by decide
/-- V2.12. -/
theorem test_andf_sets_lz : cmd 0x2A00000F (accs 0x0000F00000 0x0000000000) (flagsAre 0x40) = true := by decide
/-- V2.13. -/
theorem test_andf_clears_lz :
    cmd 0x2A000010 (muls 0 0 0 0x40 (accs 0x0000F00000 0)) (flagsAre 0x00) = true := by decide
/-- V2.14. -/
theorem test_andcf_sets_lz : cmd 0x2B000030 (accs 0x0000F00000 0x0000000000) (flagsAre 0x40) = true := by decide
/-- V2.15. -/
theorem test_andcf_clears_lz :
    cmd 0x2B000101 (accs 0x0000F10000 0x0000000000) (flagsAre 0x00) = true := by decide
/-- V2.16. -/
theorem test_lsl :
    cmd 0x30000001 (accs 0x0040000001 0x0000000000) (accIs .ac0 0x0080000002 0x10) = true := by decide
/-- V2.17. -/
theorem test_lsl_past_the_top :
    cmd 0x30000028 (accs 0x123456789A 0x0000000000) (accIs .ac0 0x0000000000 0x24) = true := by decide
/-- V2.19. -/
theorem test_lsr_is_unsigned :
    cmd 0x31000004 (accs 0xFF00000000 0x0000000000) (accIs .ac0 0x0FF0000000 0x30) = true := by decide
/-- V2.20. -/
theorem test_lsr_63 :
    cmd 0x3100003F (accs 0xFFFFFFFFFF 0x0000000000) (accIs .ac0 0x0000000000 0x24) = true := by decide
/-- V2.21. -/
theorem test_asl :
    cmd 0x32800026 (accs 0x0000000000 0x0000000003) (accIs .ac1 0xC000000000 0x38) = true := by decide
/-- V2.22. -/
theorem test_asr :
    cmd 0x33800004 (accs 0x0000000000 0xFF00000000) (accIs .ac1 0xFFF0000000 0x28) = true := by decide
/-- V2.24. -/
theorem test_asr_50 :
    cmd 0x33000032 (accs 0x8000000000 0x0000000000) (accIs .ac0 0xFFFFFFFFFF 0x28) = true := by decide
/-- V2.26. -/
theorem test_lsl16 :
    cmd 0x34000000 (accs 0x123456789A 0x0000000000) (accIs .ac0 0x56789A0000 0x10) = true := by decide
/-- V2.27. -/
theorem test_lsr16 :
    cmd 0x35000000 (accs 0x8000000000 0x0000000000) (accIs .ac0 0x0000800000 0x20) = true := by decide
/-- V2.28. -/
theorem test_asr16 :
    cmd 0x36000000 (accs 0x8000000000 0x0000000000) (accIs .ac0 0xFFFF800000 0x28) = true := by decide
/-- V3.2. -/
theorem test_mul_doubles :
    cmd 0x40000000 (muls 0x80008000 0x00000000 0 0x0000 State.reset) (prodIs 2147483648) = true := by decide
/-- V3.3. -/
theorem test_mul_am_keeps :
    cmd 0x40100000 (muls 0x00000000 0x80008000 0 0x2000 State.reset) (prodIs 1073741824) = true := by decide
/-- V3.5. -/
theorem test_mulx_unsigned :
    cmd 0x41000000 (muls 0x0000FFFF 0x0000FFFF 0 0xA000 State.reset) (prodIs 4294836225) = true := by decide
/-- V3.7. -/
theorem test_mulx_mixed :
    cmd 0x41100000 (muls 0x0000FFFF 0xFFFF0000 0 0xA000 State.reset) (prodIs (-65535)) = true := by decide
/-- V3.9. -/
theorem test_mulc :
    cmd 0x42100000 (muls 0 0x01000000 0 0 (accs 0x01000000 0)) (prodIs 131072) = true := by decide
/-- V3.10. -/
theorem test_mulac_adds_old_product :
    cmd 0x43000000 (muls 0x00030002 0 32 0x2000 (accs 16 0))
      (fun t => accIs .ac0 48 0x20 t && prodIs 6 t) = true := by decide
/-- V3.11. -/
theorem test_mulmv_moves_old_product :
    cmd 0x44900000 (muls 0 0x00050004 32 0x2000 State.reset)
      (fun t => accIs .ac1 32 0x20 t && prodIs 20 t) = true := by decide
/-- V3.12. -/
theorem test_madd :
    cmd 0x45000000 (muls 0x00030002 0x00000000 256 0x2000 State.reset) (prodIs 262) = true := by decide
/-- V3.21. -/
theorem test_madd_wraps :
    cmd 0x45000000 (muls 0x00010001 0x00000000 549755813887 0x2000 State.reset) (prodIs
      (-549755813888)) = true := by decide
/-- V3.13. -/
theorem test_msub :
    cmd 0x46000000 (muls 0x00030002 0x00000000 256 0x2000 State.reset) (prodIs 250) = true := by decide
/-- V3.14. -/
theorem test_maddx :
    cmd 0x47300000 (muls 0xFFFF0000 0x00020000 0 0x2000 State.reset) (prodIs (-2)) = true := by decide
/-- V3.15. -/
theorem test_msubx :
    cmd 0x48300000 (muls 0xFFFF0000 0x00020000 0 0x2000 State.reset) (prodIs 2) = true := by decide
/-- V3.16. -/
theorem test_maddc :
    cmd 0x49800000 (muls 0x00040000 0 1 0x2000 (accs 0 0x00030000)) (prodIs 13) = true := by decide
/-- V3.17. -/
theorem test_msubc :
    cmd 0x4A800000 (muls 0x00040000 0 1 0x2000 (accs 0 0x00030000)) (prodIs (-11)) = true := by decide
/-- V3.18. -/
theorem test_clrp_slices :
    cmd 0x4B000000 (muls 0 0 4660 0 State.reset)
      (fun t => t.alu.prod == ⟨0, 0xFFF0, 0xFF, 0x10⟩ && prodIs 0 t) = true := by decide
/-- V3.20. -/
theorem test_tstprod :
    cmd 0x4C000000 (muls 0x00000000 0x00000000 2147483648 0x0000 State.reset)
      (flagsAre 0x10) = true := by decide
/-- V4.1. -/
theorem test_set15 : cmd 0x50000000 (State.reset.setSr 0x0000) (fun t => t.alu.sr == 0x8000) = true := by decide
/-- V4.2. -/
theorem test_clr15 : cmd 0x51000000 (State.reset.setSr 0x8025) (fun t => t.alu.sr == 0x0025) = true := by decide
/-- R242. -/
theorem test_set40 : cmd 0x52000000 (State.reset.setSr 0x0025) (fun t => t.alu.sr == 0x4025) = true := by decide
/-- R243. -/
theorem test_clr40 : cmd 0x53000000 (State.reset.setSr 0xFFFF) (fun t => t.alu.sr == 0xBFFF) = true := by decide
/-- V4.5. -/
theorem test_m2 : cmd 0x54000000 (State.reset.setSr 0x2000) (fun t => t.alu.sr == 0x0000) = true := by decide
/-- V4.6. -/
theorem test_m0 : cmd 0x55000000 (State.reset.setSr 0x0000) (fun t => t.alu.sr == 0x2000) = true := by decide
/-- V4.19. -/
theorem test_rreg_saturates :
    cmd 0x581E0000 ((accs 0xFF7FFF0000 0).setSr 0x4000) (fun t => t.coreData == 0x8000) = true := by decide
/-- V4.11. -/
theorem test_rreg_sign_extends_high_slice :
    cmd 0x58110000 (accs 0 0x8000000000) (fun t => t.coreData == 0xFF80) = true := by decide
/-- V4.7. -/
theorem test_wreg_sxm_clears_low_slice :
    cmd 0x591E8000 ((accs 0x123456789A 0).setSr 0x4000) (accIs .ac0 0xFF80000000 0) = true := by decide
/-- V4.8. -/
theorem test_wreg_middle_slice_alone :
    cmd 0x591E8000 (accs 0x123456789A 0) (accIs .ac0 0x128000789A 0) = true := by decide

/-! ### Mailboxes and DIRQ -/

def withCmb (b : Mailbox) : State := { State.reset with cmb := b }
def withDmb (b : Mailbox) : State := { State.reset with dmb := b }

/-- A fault recorded. -/
def faulted (f : Fault) (t : State) : Bool := t.fault == some f

/-- V7.2: the message in the slot is reported as overwritten. -/
theorem test_host_sends_high :
    runs 0x0003FFFE 0x0005 (withCmb ⟨1, 2, true⟩)
      (fun t => t.cmb == ⟨5, 2, false⟩ && t.log == [.mailboxOverwrite .cmb]) = true := by decide
/-- V7.3. -/
theorem test_host_sends_low :
    runs 0x0003FFFF 0xBEEF (withCmb ⟨0x123, 0, false⟩)
      (fun t => t.cmb == ⟨0x123, 0xBEEF, true⟩ && t.log == []) = true := by decide
/-- V7.5. -/
theorem test_dsp_reads_cmbh :
    runs 0x0000FFFE 0 (withCmb ⟨0x123, 0xBEEF, true⟩)
      (fun t => t.cmb.ready && t.coreData == 0x8123) = true := by decide
/-- V7.6. -/
theorem test_host_reads_cmbh :
    runs 0x0002FFFE 0 (withCmb ⟨0x123, 0xBEEF, true⟩)
      (fun t => t.cmb.ready && t.hostData == 0x8123) = true := by decide
/-- V7.7. -/
theorem test_dsp_receives_low :
    runs 0x0000FFFF 0 (withCmb ⟨0x123, 0xBEEF, true⟩)
      (fun t => !t.cmb.ready && t.coreData == 0xBEEF) = true := by decide
/-- V7.9: the sender frees nothing. -/
theorem test_host_reads_cmbl :
    runs 0x0002FFFF 0 (withCmb ⟨0x123, 0xBEEF, true⟩)
      (fun t => t.cmb.ready && t.hostData == 0xBEEF) = true := by decide
/-- R272: bit 15 is not kept. -/
theorem test_dsp_sends_high :
    runs 0x0001FFFC 0x8111 (withDmb ⟨0, 0, false⟩) (fun t => t.dmb == ⟨0x111, 0, false⟩) = true := by decide
/-- V7.10. -/
theorem test_dsp_sends_low :
    runs 0x0001FFFD 0x2222 (withDmb ⟨0x111, 0, false⟩)
      (fun t => t.dmb == ⟨0x111, 0x2222, true⟩) = true := by decide
/-- V7.11. -/
theorem test_host_receives_low :
    runs 0x0002FFFD 0 (withDmb ⟨0x111, 0x2222, true⟩)
      (fun t => !t.dmb.ready && t.hostData == 0x2222) = true := by decide
/-- V7.12. -/
theorem test_dsp_reads_dmbl :
    runs 0x0000FFFD 0 (withDmb ⟨0x111, 0x2222, true⟩)
      (fun t => t.dmb.ready && t.coreData == 0x2222) = true := by decide
/-- V7.13. -/
theorem test_host_write_of_dmbl_faults :
    runs 0x0003FFFD 0 (withDmb ⟨0x111, 0x2222, true⟩) (faulted
      (.accessDenied .host 0xFFFD .write)) = true := by decide
/-- V7.14. -/
theorem test_dsp_write_of_cmbh_faults :
    runs 0x0001FFFE 0 State.reset (faulted (.accessDenied .dsp 0xFFFE .write)) = true := by decide
/-- V7.15. -/
theorem test_dirq_write : runs 0x0001FFFB 0x0001 State.reset (fun t => t.hostIrqCount == 1) = true := by decide
/-- V7.16. -/
theorem test_dirq_write_of_even_value :
    runs 0x0001FFFB 0xFFFE State.reset (fun t => t.hostIrqCount == 0) = true := by decide
/-- V7.17. -/
theorem test_dirq_read :
    runs 0x0000FFFB 0 State.reset
      (fun t => t.coreData == 0 && t.log == [.writeOnlyRead 0xFFFB]) = true := by decide
/-- V7.18. -/
theorem test_dirq_host_read_faults :
    runs 0x0002FFFB 0 State.reset (faulted (.accessDenied .host 0xFFFB .read)) = true := by decide
/-- V6.11. -/
theorem test_unknown_register_faults :
    runs 0x0000FF80 0 State.reset (faulted (.unknownRegister 0xFF80)) = true := by decide

/-! ### DMA -/

/-- Eight bytes at 0x1000 of main memory (95_test_vectors.md V8). -/
def loaded : State :=
  { State.reset with
    main := [(0x1000, 0x12), (0x1001, 0x34), (0x1002, 0x56), (0x1003, 0x78), (0x1004, 0x9A), (0x1005, 0xBC),
      (0x1006, 0xDE), (0x1007, 0xF0)] }

/-- A descriptor. -/
def dmaAt (mm : BitVec 32) (dsp ctl : BitVec 16) (s : State) : State := { s with dma := ⟨mm, dsp, 0, ctl⟩ }

/-- V8.1. -/
theorem test_dma_into_instruction_ram :
    runs 0x0003FFCB 0x0004 (dmaAt 0x1000 0x10 2 loaded)
      (fun t => t.slot .iram 0x10 == 0x1234 && t.slot .iram 0x11 == 0x5678) = true := by decide
/-- V8.2, by the DSP. -/
theorem test_dma_into_data_ram :
    runs 0x0001FFCB 0x0008 (dmaAt 0x1000 0x20 0 loaded)
      (fun t => t.slot .dram 0x20 == 0x1234 && t.slot .dram 0x23 == 0xDEF0) = true := by decide
/-- V8.4. -/
theorem test_dma_out_of_instruction_rom :
    runs 0x0003FFCB 0x0002 (dmaAt 0x2000 0x8000 3 (loaded.setSlot .irom 0 0xA55A))
      (fun t => t.main.read 0x2000 == 0xA5 && t.main.read 0x2001 == 0x5A) = true := by decide
/-- V8.7. -/
theorem test_dma_odd_length_keeps_len :
    runs 0x0003FFCB 0x0003 (dmaAt 0x1000 0x10 2 loaded)
      (fun t => faulted (.dmaOddLength 3) t && t.dma.len == 0) = true := by decide
/-- V8.9. -/
theorem test_dma_past_ram_writes_nothing :
    runs 0x0003FFCB 0x0004 (dmaAt 0x1000 0x0FFF 2 loaded)
      (fun t => faulted (.badDspAddress 0x1000) t && t.iram == []) = true := by decide
/-- V8.11. -/
theorem test_dma_no_wrap :
    runs 0x0003FFCB 0x0004 (dmaAt 0x1000 0x8FFF 3 loaded) (faulted (.badDspAddress 0x9000)) = true := by decide
/-- V8.15. -/
theorem test_dscr_reads_without_bit_2 :
    runs 0x0000FFC9 0 (dmaAt 0 0 7 State.reset) (fun t => t.coreData == 3) = true := by decide
/-- V8.16. -/
theorem test_dsmah_write :
    runs 0x0003FFCE 0x0001 (dmaAt 0x2345 0 0 State.reset) (fun t => t.dma.mmaddr == 0x12345) = true := by decide

/-! ### The accelerator -/

/-- A stream over some bytes of main memory. -/
def stream (fmt : BitVec 16) (first last cur : BitVec 32) (gain ps : BitVec 16) (m : Memory) : State :=
  { State.reset with
    main := m
    accel := { Accel.reset with fmt := fmt, startAddr := first, endAddr := last, cur := cur, gain := gain, ps := ps } }

/-- The sample returned and the pointer after it. -/
def got (v : BitVec 16) (cur : BitVec 32) (t : State) : Bool := t.coreData == v && t.accel.cur == cur

/-- The ADPCM frame of V9.9. -/
def frame : State :=
  { stream 0 0 0x1000 0x200 0 0 [(0x100, 0x12), (0x101, 0x7F)] with
    accel :=
      { (stream 0 0 0x1000 0x200 0 0 []).accel with
        coef := (Accel.reset.coef.set 2 0x400).set 3 0xFC00, yn1 := 0x10, yn2 := 8 } }

/-- V9.1. -/
theorem test_fetch_raw16_at_the_end :
    runs 0x0000FFDD 0 (stream 2 0x10 0x11 0x11 0 0 [(0x22, 0xAB), (0x23, 0xCD)])
      (fun t => got 0xABCD 0x10 t && t.accel.ovfPending && t.accel.ovfVector == 3) = true := by decide
/-- V9.3. -/
theorem test_fetch_raw8 :
    runs 0x0000FFDD 0 (stream 1 0 0x100 0x40 0 0 [(0x40, 0x9C)]) (got 0x009C 0x41) = true := by decide
/-- V9.4. -/
theorem test_fetch_pcm16 :
    runs 0x0000FFDD 0 (stream 4 0 0x100 8 0x800 0 [(0x10, 0x12), (0x11, 0x34)])
      (got 0x1234 9) = true := by decide
/-- V9.5. -/
theorem test_fetch_pcm8 :
    runs 0x0000FFDD 0 (stream 3 0 0x100 0x40 0x400 0 [(0x40, 0x80)]) (got 0xC000 0x41) = true := by decide
/-- V9.7. -/
theorem test_fetch_pcm16_clamps :
    runs 0x0000FFDD 0 (stream 4 0 0x100 8 0xFFFF 0 [(0x10, 0x80)]) (got 0x8000 9) = true := by decide
/-- V9.9. -/
theorem test_fetch_adpcm_frame_start :
    runs 0x0000FFDD 0 frame
      (fun t => got 0x20 0x203 t && t.accel.ps == 0x12 && t.accel.yn1 == 0x20 &&
        t.accel.yn2 == 0x10) = true := by decide
/-- V9.12. -/
theorem test_fetch_adpcm_low_nibble :
    runs 0x0000FFDD 0 (stream 0 0 0x1000 0x201 0 0x0B [(0x100, 7)]) (got 0x3800 0x202) = true := by decide
/-- V9.14. -/
theorem test_fetch_adpcm_clamps :
    runs 0x0000FFDD 0 (stream 0 0 0x1000 0x202 0 0x0F [(0x101, 0x80)]) (got 0x8001 0x203) = true := by decide
/-- V9.15. -/
theorem test_fetch_adpcm_header_passes_the_end :
    runs 0x0000FFDD 0 (stream 0 0x300 0x300 0x300 0 0 [])
      (fun t => t.accel.cur == 0x300 && t.accel.ovfVector == 5) = true := by decide
/-- V9.20. -/
theorem test_fetch_unknown_format :
    runs 0x0000FFDD 0 (stream 7 0x50 0x60 0x60 0 0 [])
      (fun t => faulted (.unknownFormat 7) t && t.accel.cur == 0x60) = true := by decide
/-- V9.17. -/
theorem test_raw_write_16 :
    runs 0x0001FFD3 0xBEEF (stream 2 0 0x30 0x20 0 0 [])
      (fun t => t.main == [(0x40, 0xBE), (0x41, 0xEF)] && t.accel.cur == 0x21) = true := by decide
/-- V9.18. -/
theorem test_raw_write_8_at_the_end :
    runs 0x0001FFD3 0x12AB (stream 1 0x50 0x60 0x60 0 0 [])
      (fun t => t.main == [(0x60, 0xAB)] && t.accel.cur == 0x50 && t.accel.ovfVector == 4) = true := by decide
/-- V9.19. -/
theorem test_raw_write_adpcm_faults :
    runs 0x0001FFD3 0x12AB (stream 0 0x50 0x60 0x60 0 0 []) (faulted .accelAdpcmWrite) = true := by decide
/-- V9.21. -/
theorem test_acdat1_read :
    runs 0x0000FFD3 0 State.reset
      (fun t => t.coreData == 0 && t.log == [.writeOnlyRead 0xFFD3]) = true := by decide
/-- V9.22. -/
theorem test_acdat_write_faults :
    runs 0x0001FFDD 0 State.reset (faulted (.accessDenied .dsp 0xFFDD .write)) = true := by decide
/-- V9.25. -/
theorem test_accah_write :
    runs 0x0001FFD8 0x0001 (stream 0 0 0 0x200 0 0 []) (fun t => t.accel.cur == 0x10200) = true := by decide

/-! ### The core, exceptions and reset -/

/-- The step of an event, checked by `f`. -/
def onEvent (e : Event) (s : State) (f : State → Bool) : Bool :=
  match step { s with schedule := e :: s.schedule } with
  | .next t => f t
  | .fault _ => false
  | .refused _ => false

/-- Holds of the state after one more step. -/
def thenStep (s : State) (f : State → Bool) : Bool :=
  match step s with
  | .next t => f t
  | .fault _ => false
  | .refused _ => false

/-- A state at a pc with an SR. -/
def at_ (pc sr : BitVec 16) : State := { State.reset with pc := pc }.setSr sr

/-- With a pending overflow. -/
def pendingOvf (v : BitVec 3) (s : State) : State :=
  { s with accel := { s.accel with ovfPending := true, ovfVector := v } }

/-- With a pending interrupt. -/
def pendingInt (s : State) : State := { s with intPending := true }

/-- With other parameters. -/
def withCfg (c : Config) (s : State) : State := { s with cfg := c }

/-- With stacks of one entry. -/
def oneDeep (s : State) : State := withCfg { s.cfg with stackDepth := some 1 } s

/-- With an instruction to execute. -/
def offers (c : CoreInstr) (s : State) : State := { s with program := [c] }

/-- V6.2. -/
theorem test_core_reads_data_rom :
    onEvent .core (offers (oneOp (.access .read 0x1000 (.given 0)) .one) (State.reset.setSlot .drom 0 7))
      (fun t => t.coreData == 7) = true := by decide
/-- V6.3. -/
theorem test_core_read_unmapped :
    onEvent .core (offers (oneOp (.access .read 0x1800 (.given 0)) .one) State.reset)
      (faulted (.unmappedData 0x1800 .read)) = true := by decide
/-- V6.5. -/
theorem test_core_write_of_rom :
    onEvent .core (offers (oneOp (.access .write 0x1000 (.given 5)) .one) State.reset)
      (fun t => faulted (.romWrite 0x1000) t && t.drom == []) = true := by decide
/-- R76, R103: from 0xFF00 on a data access is a transaction. -/
theorem test_core_access_of_register_block :
    onEvent .core (offers (oneOp (.access .write 0xFFFD (.given 0x2222)) .one) State.reset)
      (fun t => t.dmb == ⟨0, 0x2222, true⟩) = true := by decide
/-- V5.1: the word 0 is refused, of the core too. -/
theorem test_word_zero_refused :
    step (State.reset.placeWord 0 0) = .refused (.notAnInstruction 0) := rfl
/-- V12.1: two commands of one instruction, in one event. -/
theorem test_instruction_is_one_event :
    onEvent .core (offers { ops := [.issue 0x52000000 0, .issue 0x591E8000 0], len := .one, flow := .next }
        (at_ 0x8000 0))
      (fun t => t.alu.ac0 == 0xFF80000000 && t.pc == 0x8001) = true := by decide
/-- R373: the second operation's fault undoes the first. -/
theorem test_later_fault_undoes_instruction :
    onEvent .core (offers { ops := [.issue 0x50000000 0, .pop .data], len := .one, flow := .next } State.reset)
      (fun t => faulted .stackUnderflow t && t.alu.sr == 0 && t.pc == 0x8000) = true := by decide
/-- R22: a jump under a condition that fails (LZ) advances the pc, two slots. -/
theorem test_jump_not_taken :
    onEvent .core (offers { ops := [], len := .two, flow := .jump 0xD (.given 0x20) } (at_ 0x8000 0))
      (fun t => t.pc == 0x8002) = true := by decide
/-- IFcc under a condition that fails (LZ): one slot of its own and the two of the next instruction (log 25). -/
theorem test_if_skips :
    onEvent .core (offers (onlyFlow (.skip 0xD .two) .one) (at_ 0x8000 0)) (fun t => t.pc == 0x8003) = true := by decide
/-- RET goes to the entry its pop returned (log 25). -/
theorem test_ret :
    onEvent .core (offers { ops := [.pop .call], len := .one, flow := .jump 0xF .returned }
        { at_ 0x8000 0 with callStack := [0x123, 0x456] })
      (fun t => t.pc == 0x123 && t.callStack == [0x456]) = true := by decide
/-- R251, R245: a slot loaded into ac0.m under SXM is sign-extended and ac0.l cleared. -/
theorem test_load_sign_extends :
    onEvent .core (offers (allOps (loadOps (.acM .ac0) 0x10) .one)
        ({ accs 0x1111 0 with alu := { (accs 0x1111 0).alu with sr := 0x4000 } }.setSlot .dram 0x10 0x8000))
      (fun t => t.alu.ac0 == 0xFF80000000) = true := by decide
/-- R251, R246: ac0.m stored under SXM is saturated, 7FFF for a sum above the 32-bit range. -/
theorem test_store_saturates :
    onEvent .core (offers (allOps (storeOps (.acM .ac0) 0x10) .one)
        { accs 0x0080000000 0 with alu := { (accs 0x0080000000 0).alu with sr := 0x4000 } })
      (fun t => t.slot .dram 0x10 == 0x7FFF && t.alu.ac0 == 0x0080000000) = true := by decide
/-- R108: a move between two registers. -/
theorem test_move :
    onEvent .core (offers (allOps (moveOps (.axL .ax0) (.acL .ac0)) .one) (accs 0x1234 0))
      (fun t => axVal t .ax0 % 0x10000 == 0x1234) = true := by decide

/-- V6.7. -/
theorem test_fetch_unmapped :
    onEvent .core (offers (onlyFlow .next .one) (at_ 0x1000 0))
      (fun t => faulted (.unmappedFetch 0x1000) t && t.pc == 0x1000) = true := by decide
/-- R75, R82: the second slot of a 4-byte instruction, just past instruction RAM, faults with the pc (log 16). -/
theorem test_fetch_second_slot_unmapped :
    onEvent .core (offers (onlyFlow .next .two) (at_ 0x0FFF 0))
      (fun t => faulted (.unmappedFetch 0x0FFF) t && t.pc == 0x0FFF) = true := by decide
/-- V10.1. -/
theorem test_overflow_entry :
    onEvent .core (pendingOvf 5 (at_ 0x123 0x200))
      (fun t => t.callStack == [0x123] && t.dataStack == [0x200] && t.pc == 0xA &&
        !t.accel.ovfPending) = true := by decide
/-- V10.8. -/
theorem test_entry_clears_enable :
    onEvent .core (pendingInt (withCfg { Config.default with entryClearsEnable := true } (at_ 0x40 0xA00)))
      (fun t => t.alu.sr == 0x200 && t.dataStack == [0xA00]) = true := by decide
/-- V10.5. -/
theorem test_soft_reset_comes_first :
    onEvent .core { pendingOvf 3 (at_ 0x40 0x200) with srPending := true }
      (fun t => t.pc == 0 && t.accel.ovfPending && !t.srPending) = true := by decide
/-- V10.9. -/
theorem test_return_from_exception :
    onEvent .core (offers (onlyFlow .returnFromException .one) { at_ 0x40 0 with callStack := [0x123], dataStack := [0x200] })
      (fun t => t.pc == 0x123 && t.alu.sr == 0x200) = true := by decide
/-- V10.10. -/
theorem test_return_on_empty_stack :
    onEvent .core (offers (onlyFlow .returnFromException .one) (at_ 0x40 7))
      (fun t => faulted .stackUnderflow t && t.pc == 0x40 && t.alu.sr == 7) = true := by decide
/-- V10.11. -/
theorem test_entry_onto_full_stack :
    onEvent .core (pendingOvf 5 (oneDeep { at_ 0x40 0x200 with callStack := [0x50] }))
      (fun t => faulted .stackOverflow t && t.callStack == [0x50] && t.dataStack == [] &&
        t.accel.ovfPending) = true := by decide
/-- V10.13. -/
theorem test_halted_core_takes_no_interrupt :
    onEvent .core { at_ 0x40 0x800 with halted := true, intPending := true }
      (fun t => t.intPending && t.pc == 0x40) = true := by decide
/-- R414. -/
theorem test_halt :
    onEvent .core (offers (onlyFlow .halt .one) (at_ 0x40 0)) (fun t => t.halted && t.pc == 0x41) = true := by decide
/-- V10.7. -/
theorem test_second_interrupt_changes_nothing :
    onEvent (.hostInput .assertInterrupt) { at_ 0 0 with intPending := true, intCount := 1 }
      (fun t => t.intCount == 1) = true := by decide
/-- V11.1. -/
theorem test_hard_reset :
    onEvent (.hostInput .assertReset) (pendingOvf 1 { at_ 0x456 0x6A25 with callStack := [0x20, 0x10] })
      (fun t => t == { State.reset with resetLine := true }) = true := by decide
/-- V11.4. -/
theorem test_hard_reset_keeps_fault :
    onEvent (.hostInput .assertReset) { at_ 0x456 7 with fault := some (.romWrite 0x1000) }
      (fun t => t == { State.reset with resetLine := true, fault := some (.romWrite 0x1000) }) = true := by decide
/-- V11.4 in a run: the core's pop of an empty stack faults, its event still the first to come, and the next step is the
reset line's, asserted later: it resets every register and keeps the fault. -/
theorem test_hard_reset_after_faulting_step :
    onEvent .core { offers (oneOp (.pop .call) .one) (at_ 0x8000 7) with schedule := [.hostInput .assertReset] }
      (fun t => faulted .stackUnderflow t && t.alu.sr == 7 && thenStep t (fun u =>
        u == { State.reset with resetLine := true, fault := some .stackUnderflow, program := t.program })) = true := by decide
/-- V6.10: ROM images of the wrong size are reported. -/
theorem test_rom_image_sizes :
    (State.construct Config.default [1] []).log = [.loadSizeMismatch .irom, .loadSizeMismatch .drom] := by decide

/-! ### A witness for every statement with hypotheses

`runsOnly` is a core about to execute one instruction, `core` one of a single operation, `host` a host about to issue a
word, `waits` a core whose turn it is. -/

def waits (s : State) : State := { s with schedule := [.core] }
def runsOnly (c : CoreInstr) : State := waits (offers c State.reset)
def core (op : CoreOp) : State := runsOnly (oneOp op .one)
def host (w : Word) (v : BitVec 16) : State := { State.reset with schedule := [.hostTxn w v] }
def limited (n : Nat) (s : State) : State := { s with cfg := { s.cfg with stackDepth := some n } }

theorem nothing_due {s : State} (hr : s.srPending = false) (ho : s.accel.ovfPending = false)
    (hi : s.intPending = false) : NothingDue s :=
  ⟨fun h => Bool.noConfusion (hr.symm.trans h.1), fun h => Bool.noConfusion (ho.symm.trans h.1),
    fun h => Bool.noConfusion (hi.symm.trans h.1)⟩
theorem next_instr {s : State} {c : CoreInstr} (ht : CoreTurn s []) (hd : NothingDue s) (hp : s.program = [c])
    (h0 : ReadableAddr true s.pc.toNat) (h1 : ReadableAddr true (s.pc + 1).toNat) : NextInstr s c [] [] :=
  ⟨ht, hd, hp, h0, fun _ => h1⟩
theorem runsOnly_next (c : CoreInstr) : NextInstr (runsOnly c) c [] [] :=
  next_instr ⟨rfl, rfl, rfl, rfl, rfl⟩ (nothing_due rfl rfl rfl) rfl
    (show ReadableAddr true (0x8000#16).toNat by decide) (show ReadableAddr true (0x8001#16).toNat by decide)
theorem default_codes : CodesDistinct State.reset.cfg.fmtCode := by unfold CodesDistinct; decide

theorem witness_DecodeInvertsEncode :
    IfxMap.standard.Distinct ∧ (Instr.lsl .ac1 63).wf .standard = true ∧
      (Instr.unknownD .write 0x80 0xFFFF).wf .standard = true ∧ (Instr.unknownH .read 0xD0 0).wf .standard = true :=
  ⟨IfxMap.standard_distinct, by decide⟩
theorem witness_EncodeInvertsDecode :
    decode .standard 0x308000FF 0 = none ∧ decode .standard 0x3080003F 0 = some (.lsl .ac1 63) ∧
      decode .standard 0x0001FF80 0xFFFF = some (.unknownD .write 0x80 0xFFFF) := by decide

theorem witness_ReservedWordsRefused_ops :
    ∀ w ∈ ([0x1B000000, 0x1F000000, 0x2C000000, 0x2F000000, 0x37000000, 0x3F000000, 0x4D000000, 0x4F000000,
      0x56000000, 0x57FFFFFF, 0x5A000000, 0xFFFFFFFF] : List Word), ReservedOp (w.toNat / 2 ^ 24) := by
  simp [ReservedOp]
theorem witness_ReservedWordsRefused_op_zero :
    ∀ w ∈ ([0x00040000, 0x00FFFFFF, 0x00000000, 0x0000FEFF, 0x0001FEFF, 0x0003FEFF] : List Word),
      w.toNat / 2 ^ 24 = 0 ∧ (w.toNat / 2 ^ 18 ≠ 0 ∨ w.toNat % 2 ^ 16 < 0xFF00) := by simp
theorem witness_ReservedWordsRefused_registers :
    ∀ w ∈ ([0x580F0000, 0x58120000, 0x58200000, 0x590F0000, 0x59120000, 0x59200000] : List Word),
      (w.toNat / 2 ^ 24 = 0x58 ∨ w.toNat / 2 ^ 24 = 0x59) ∧ ¬EngineReg (w.toNat / 2 ^ 16 % 2 ^ 8) := by
  simp [EngineReg]
theorem witness_ReservedWordsRefused_value :
    (0x58130001#32).toNat / 2 ^ 24 = 0x58 ∧ (0x58130001#32).toNat % 2 ^ 16 ≠ 0 := by decide
theorem witness_ReservedWordsRefused_step :
    let c : CoreInstr := { ops := [.issue 0x0000FEFF 0, .issue 0x02000000 0], len := .one, flow := .next }
    decode (runsOnly c).cfg.ifxMap 0x0000FEFF 0 = none ∧ NextInstr (runsOnly c) c [] [] ∧
      c.ops = .issue 0x0000FEFF 0 :: [.issue 0x02000000 0] ∧ decode .standard 0x1B000000 0 = none ∧
      (host 0x1B000000 0).fault = none ∧ (host 0x1B000000 0).schedule = .hostTxn 0x1B000000 0 :: [] :=
  ⟨by decide, runsOnly_next _, rfl, by decide, rfl, rfl⟩
theorem witness_StepRunsDecodedWord :
    decode State.reset.cfg.ifxMap 0x02000000 0 = some (.add .ac0) ∧ (Instr.add .ac0).port = .dsp ∧
      NextInstr (core (.issue 0x02000000 0)) (oneOp (.issue 0x02000000 0) .one) [] [] ∧
      decode State.reset.cfg.ifxMap 0x0003FFFE 5 = some (.wrHCmbh 5) ∧ (Instr.wrHCmbh 5).port = .host ∧
      (host 0x0003FFFE 5).fault = none ∧ (host 0x0003FFFE 5).schedule = .hostTxn 0x0003FFFE 5 :: [] :=
  ⟨by decide, rfl, runsOnly_next _, by decide, rfl, rfl, rfl⟩

/-- SET40 and WREG in one instruction of two slots (V12.1). -/
theorem witness_StepRunsDecodedWord_several :
    let c : CoreInstr := { ops := [.issue 0x52000000 0, .issue 0x591E8000 0], len := .two, flow := .next }
    NextInstr (runsOnly c) c [] [] ∧ c.flow = .next ∧
      Issues (runsOnly c).cfg.ifxMap c.ops [.set40, .wreg (.acM .ac0) 0x8000] ∧
      ∃ u, Runs [.set40, .wreg (.acM .ac0) 0x8000] (runsOnly c) u :=
  ⟨runsOnly_next _, rfl, ⟨by decide, rfl, by decide, rfl, trivial⟩, _, _, rfl, rfl, _, rfl, rfl, rfl⟩

/-- The largest sum that fits, and one command of each form. -/
theorem witness_WideResultsExact :
    ¬Outside40 (accVal (accs 0x7FFFFFFFFE 1) .ac0 + accVal (accs 0x7FFFFFFFFE 1) AccId.ac0.other) ∧
      Instr.add .ac0 ∈ additive ∧ Instr.addr .ac0 .ax0l ∈ additive ∧ Instr.addax .ac0 .ax0 ∈ additive ∧
      Instr.addi .ac0 0 ∈ additive ∧ Instr.addis .ac0 0 ∈ additive :=
  ⟨by unfold Outside40; decide, .inl ⟨_, .inl rfl⟩, .inr (.inl ⟨_, _, .inl rfl⟩),
    .inr (.inr (.inl ⟨_, _, .inl rfl⟩)), .inr (.inr (.inr (.inl ⟨_, _, rfl⟩))), .inr (.inr (.inr (.inr ⟨_, _, rfl⟩)))⟩
theorem witness_AluKeepsControlBits :
    decode .standard 0x02000000 0 = some (.add .ac0) ∧ (0x02000000#32).toNat / 2 ^ 24 ≠ 0 ∧
      Instr.add .ac0 ∉ [Instr.set15, .clr15, .set40, .clr40, .m2, .m0] ∧ (∀ u, Instr.add .ac0 ≠ .wreg .sr u) ∧
      exec (.add .ac0) State.reset = .next (State.reset.addInto .ac0 (State.reset.acc .ac1)) :=
  ⟨by decide, by decide, by decide, (by simp), rfl⟩
theorem witness_ConditionCodes :
    (0x0055#16).getLsbD 0 = true ∧ (0x0055#16).getLsbD 1 = false ∧ (0x0055#16).getLsbD 2 = true ∧
      (0x0055#16).getLsbD 3 = false ∧ (0x0055#16).getLsbD 4 = true ∧ (0x0055#16).getLsbD 5 = false ∧
      (0x0055#16).getLsbD 6 = true := by decide
theorem witness_DeniedAccessesFault :
    Denied .host .read (.coef 15) = true ∧ Denied .host .write .dirq = true ∧ Denied .dsp .write .acdat = true := by
  decide
theorem witness_UnknownAddresses :
    State.reset.cfg.ifxMap.regAt (blockAddr 0x9F) = none ∧ State.reset.cfg.ifxMap.regAt (blockAddr 0xB0) = none ∧
      blockAddr 0x9F ∉ State.reset.cfg.knownUnknown ∧ blockAddr 0x9F ∈ [0xFF9F#16] := by decide
theorem witness_DmaDescriptorReads :
    ∀ k : Fin 16, (0xFFFB#16).getLsbD k = ((0xFFFF#16).getLsbD k && decide (k.val ≠ 2)) := by decide

/-- The last slot of instruction RAM and the last bytes of main memory. -/
def copyIn : State := { dmaAt 0xFFFFFFFE 0x0FFF 2 State.reset with main := [(0xFFFFFFFE, 0x12)] }

theorem witness_DmaCopyIn :
    copyIn.memWf = true ∧ copyIn.dma.ctl.getLsbD 0 = false ∧ DmaLengthOk copyIn 2 ∧
      ∀ k, k < (2#16).toNat / 2 → RamAddr (copyIn.dma.dspaddr.toNat + k) :=
  ⟨by decide, by decide, by unfold DmaLengthOk; decide, by decide⟩

/-- A main memory of `n` bytes. -/
def sized (n : Nat) (s : State) : State := { s with cfg := { s.cfg with mainMemSize := n } }

/-- Length 0 with the address beyond main memory, in either direction. -/
theorem witness_DmaCopy_empty :
    let s (ctl : BitVec 16) : State := sized 0x100 (dmaAt 0x1000 0xFFFF ctl State.reset)
    (s 0).memWf = true ∧ (s 0).dma.ctl.getLsbD 0 = false ∧ DmaLengthOk (s 0) 0 ∧
      (∀ k, k < (0#16).toNat / 2 → RamAddr ((s 0).dma.dspaddr.toNat + k)) ∧ (s 1).memWf = true ∧
      (s 1).dma.ctl.getLsbD 0 = true ∧ DmaLengthOk (s 1) 0 ∧
      ∀ k, k < (0#16).toNat / 2 → ReadableAddr ((s 1).dma.ctl.getLsbD 1) ((s 1).dma.dspaddr.toNat + k) :=
  ⟨by decide, by decide, by unfold DmaLengthOk; decide, by decide, by decide, by decide, by unfold DmaLengthOk; decide,
    by decide⟩

/-- The last slot of data ROM, out of data space. -/
def copyOut : State := dmaAt 0x1000 0x17FF 1 State.reset

/-- The last slot of instruction ROM, out of instruction space. -/
def copyRom : State := dmaAt 0x1000 0x8FFF 3 State.reset

theorem witness_DmaCopyOut :
    (copyOut.memWf = true ∧ copyOut.dma.ctl.getLsbD 0 = true ∧ DmaLengthOk copyOut 2 ∧
      ∀ k, k < (2#16).toNat / 2 → ReadableAddr (copyOut.dma.ctl.getLsbD 1) (copyOut.dma.dspaddr.toNat + k)) ∧
    copyRom.memWf = true ∧ copyRom.dma.ctl.getLsbD 0 = true ∧ DmaLengthOk copyRom 2 ∧
      ∀ k, k < (2#16).toNat / 2 → ReadableAddr (copyRom.dma.ctl.getLsbD 1) (copyRom.dma.dspaddr.toNat + k) :=
  ⟨⟨by decide, by decide, by unfold DmaLengthOk; decide, by decide⟩, by decide, by decide,
    by unfold DmaLengthOk; decide, by decide⟩

/-- The clauses in order: odd length 1, a misaligned address, one byte too many, the first address past RAM. -/
theorem witness_DmaChecksFault :
    (1#16).toNat % 2 = 1 ∧
    (2#16).toNat % 2 ≠ 1 ∧ (dmaAt 0x1001 0 0 State.reset).dma.mmaddr.toNat % 2 ≠ 0 ∧
    (2#16).toNat ≠ 0 ∧
    State.reset.cfg.mainMemSize < (dmaAt 0xFFFFFFFF 0 0 State.reset).dma.mmaddr.toNat + (2#16).toNat ∧
    ¬DmaAddr (dmaAt 0 0x0FFF 0 State.reset) (0x0FFF + 1) ∧ DmaAddr (dmaAt 0 0x0FFF 0 State.reset) (0x0FFF + 0) ∧
    1 < (4#16).toNat / 2 := by unfold DmaAddr; decide
theorem witness_DmaRoundTrip :
    copyIn.memWf = true ∧ copyIn.dma.ctl = 0x0002 ∧ DmaLengthOk copyIn 2 ∧
      copyIn.dma.mmaddr.toNat + (2#16).toNat ≤ copyIn.cfg.mainMemSize ∧
      copyIn.dma.dspaddr.toNat + (2#16).toNat / 2 ≤ 0x1000 :=
  ⟨by decide, by decide, by unfold DmaLengthOk; decide, by decide, by decide⟩

/-- The last byte and the last pair of main memory. -/
theorem witness_FetchRawAndPcm :
    let s (f : BitVec 16) : State := stream f 0 0 0xFFFFFFFF 0 0 []
    CodesDistinct (s 1).cfg.fmtCode ∧ (s 1).accel.fmt = codeOf (s 1).cfg.fmtCode .raw8 ∧
      (s 1).accel.cur.toNat + 1 ≤ (s 1).cfg.mainMemSize ∧ (s 2).accel.fmt = codeOf (s 2).cfg.fmtCode .raw16 ∧
      pairAddr (s 2) + 2 ≤ (s 2).cfg.mainMemSize ∧ (s 3).accel.fmt = codeOf (s 3).cfg.fmtCode .pcm8 ∧
      (s 3).accel.cur.toNat + 1 ≤ (s 3).cfg.mainMemSize ∧ (s 3).cfg.pcmScale = .standard ∧
      (s 4).accel.fmt = codeOf (s 4).cfg.fmtCode .pcm16 ∧ pairAddr (s 4) + 2 ≤ (s 4).cfg.mainMemSize ∧
      (s 4).cfg.pcmScale = .standard :=
  ⟨default_codes, by decide⟩
theorem witness_FetchAdpcm :
    CodesDistinct frame.cfg.fmtCode ∧ frame.accel.fmt = codeOf frame.cfg.fmtCode .adpcm4 ∧
      frame.cfg.adpcmDecode = .standard ∧ frame.accel.cur.toNat / 2 + 1 ≤ frame.cfg.mainMemSize ∧
      (nibbleAddr frame).toNat / 2 + 1 ≤ frame.cfg.mainMemSize ∧ frame.accel.cur.toNat % 16 = 0 :=
  ⟨default_codes, by decide⟩
theorem witness_RawWriteStoresSample :
    let s (f : BitVec 16) : State := stream f 0 0 0x7FFFFFFF 0 0 []
    (s 1).memWf = true ∧ CodesDistinct (s 1).cfg.fmtCode ∧ (s 1).accel.fmt = codeOf (s 1).cfg.fmtCode .raw8 ∧
      (s 3).accel.fmt = codeOf (s 3).cfg.fmtCode .pcm8 ∧ (s 1).accel.cur.toNat + 1 ≤ (s 1).cfg.mainMemSize ∧
      (s 2).accel.fmt = codeOf (s 2).cfg.fmtCode .raw16 ∧ (s 4).accel.fmt = codeOf (s 4).cfg.fmtCode .pcm16 ∧
      pairAddr (s 2) + 2 = (s 2).cfg.mainMemSize :=
  ⟨by decide, default_codes, by decide⟩

theorem witness_AcceleratorFaults :
    let s (f : BitVec 16) (c : BitVec 32) : State := sized 0x100 (stream f 0 0 c 0 0 [])
    CodesDistinct (s 5 0).cfg.fmtCode ∧ (∀ f, (s 5 0).accel.fmt ≠ codeOf (s 5 0).cfg.fmtCode f) ∧
      (s 0 0x200).accel.fmt = codeOf (s 0 0x200).cfg.fmtCode .adpcm4 ∧
      (s 0 0x200).cfg.mainMemSize < (s 0 0x200).accel.cur.toNat / 2 + 1 ∧
      (s 1 0x100).accel.fmt = codeOf (s 1 0x100).cfg.fmtCode .raw8 ∧
      (s 1 0x100).cfg.mainMemSize < (s 1 0x100).accel.cur.toNat + 1 ∧
      (s 2 0x80).accel.fmt = codeOf (s 2 0x80).cfg.fmtCode .raw16 ∧
      (s 2 0x80).cfg.mainMemSize < pairAddr (s 2 0x80) + 2 :=
  ⟨default_codes, (fun f => by cases f <;> decide), by decide⟩
theorem witness_HistoryChangesOnlyByAdpcm :
    exec (.wrDPs 1) State.reset = .next { State.reset with accel := { Accel.reset with ps := 1 } } ∧
      (1#16 ≠ State.reset.accel.ps) := ⟨rfl, by decide⟩

/-- Reads, writes, loads and stores at both ends of every range, and a move. -/
theorem witness_CoreDataAccess :
    (∀ a ∈ [0x0000, 0x0FFF, 0x1000, 0x17FF, 0x8000, 0x8FFF], a < 0xFF00 ∧ ReadableAddr false a) ∧
    (∀ a ∈ [0x1800, 0x7FFF, 0x9000, 0xFEFF], a < 0xFF00 ∧ ¬ReadableAddr false a ∧ ¬RamAddr a) ∧
    (∀ a ∈ [0x0000, 0x0FFF], RamAddr a) ∧ (∀ a ∈ [0x1000, 0x8FFF], ¬RamAddr a) ∧
    (∀ d a v, (core (.access d a v)).memWf = true ∧
      NextInstr (core (.access d a v)) (oneOp (.access d a v) .one) [] []) ∧
    decode State.reset.cfg.ifxMap (txnWord .dsp .read 0xFF00) 7 = some (.unknownD .read 0x00 0) ∧
    decode State.reset.cfg.ifxMap (txnWord .dsp .write 0xFFFF) 7 = some (.wrDCmbl 7) ∧
    (∀ ops, (runsOnly (allOps ops .two)).memWf = true ∧
      NextInstr (runsOnly (allOps ops .two)) (allOps ops .two) [] []) ∧
    decode State.reset.cfg.ifxMap (txnWord .dsp .read 0xFFFF) 0 = some .rdDCmbl ∧
    decode State.reset.cfg.ifxMap (txnWord .dsp .write 0xFFFF) 0 = some (.wrDCmbl 0) :=
  ⟨by decide, by decide, by decide, by decide, fun _ _ _ => ⟨by rfl, runsOnly_next _⟩, by decide, by decide,
    fun _ => ⟨by rfl, runsOnly_next _⟩, by decide, by decide⟩

/-- Under SXM, a positive sum and a negative sum that do not fit in 32 bits. -/
theorem witness_CoreDataAccess_saturation :
    let s (a : Acc) : State := { accs a 0 with alu := { (accs a 0).alu with sr := 0x4000 } }
    (s 0).alu.sr.getLsbD 14 = true ∧ (¬Fits32 (accVal (s 0x0080000000) .ac0) ∧ 0 < accVal (s 0x0080000000) .ac0) ∧
      ¬Fits32 (accVal (s 0xFF7FFFFFFF) .ac0) ∧ ¬0 < accVal (s 0xFF7FFFFFFF) .ac0 := by unfold Fits32; decide

/-- The first slot untranslatable, the second alone, and neither. -/
theorem witness_FetchAtBoundary :
    let s (pc : BitVec 16) (len : InstrLen) : State :=
      waits (offers (onlyFlow .next len) { State.reset with pc := pc })
    (∀ pc len, CoreTurn (s pc len) [] ∧ NothingDue (s pc len) ∧
      (s pc len).program = onlyFlow .next len :: [] ∧ onlyFlow .next len = onlyFlow .next (onlyFlow .next len).len) ∧
    ¬Fetchable (s 0x1000 .one) .one ∧ ¬Fetchable (s 0x7FFF .one) .one ∧ ¬Fetchable (s 0x0FFF .two) .two ∧
    ¬Fetchable (s 0x8FFF .two) .two ∧ Fetchable (s 0x0FFF .one) .one ∧ Fetchable (s 0x8FFF .one) .one ∧
    Fetchable (s 0x8000 .two) .two :=
  ⟨fun _ _ => ⟨⟨rfl, rfl, rfl, rfl, rfl⟩, nothing_due rfl rfl rfl, rfl, rfl⟩, (fun h => absurd h.1 (by decide)),
    (fun h => absurd h.1 (by decide)), (fun h => absurd (h.2 rfl) (by decide)), (fun h => absurd (h.2 rfl) (by decide)),
    ⟨by decide, fun h => by cases h⟩, ⟨by decide, fun h => by cases h⟩, by decide, fun _ => by decide⟩

/-- An operation, then each end. -/
theorem witness_InstructionEnds :
    ∀ f ∈ [CoreFlow.next, .jump 0xF (.given 0xFFFF), .jump 0xE .returned, .skip 0xE .two, .skip 0xF .one,
        .halt],
      let c : CoreInstr := { ops := [.push .call (.given 7)], len := .two, flow := f }
      NextInstr (runsOnly c) c [] [] ∧ c.flow = f ∧ OpsGive c.ops (runsOnly c) { runsOnly c with callStack := [7] } :=
  fun _ _ => ⟨runsOnly_next _, rfl, _, rfl, rfl, rfl⟩

/-- A stack one short of its depth, a full one, one with an entry and an empty one. -/
theorem witness_StacksLifo :
    let full : State := limited 1 { core (.push .call (.given 7)) with callStack := [0x20] }
    let one : State := { core (.pop .data) with dataStack := [7] }
    NextInstr (limited 1 (core (.push .call (.given 7)))) (oneOp (.push .call (.given 7)) .one) [] [] ∧
      HasRoom (limited 1 (core (.push .call (.given 7)))).cfg ((limited 1 (core (.push .call (.given 7)))).stack .call) ∧
      NextInstr full (oneOp (.push .call (.given 7)) .one) [] [] ∧ ¬HasRoom full.cfg (full.stack .call) ∧
      NextInstr one (oneOp (.pop .data) .one) [] [] ∧ one.stack .data = 7 :: [] ∧
      NextInstr (core (.pop .data)) (oneOp (.pop .data) .one) [] [] ∧ (core (.pop .data)).stack .data = [] :=
  ⟨runsOnly_next _, (show (0 : Nat) < 1 by decide), runsOnly_next _, (show ¬(1 : Nat) < 1 by decide), runsOnly_next _,
    rfl, runsOnly_next _, rfl⟩

/-- Both sources due, the overflow id 3 below the interrupt id 7. -/
theorem witness_ExceptionEntry_overflow :
    let s : State := waits { pendingOvf 3 (at_ 0x40 0x0A00) with intPending := true }
    CoreTurn s [] ∧ ¬SoftResetDue s ∧ HasRoom s.cfg s.callStack ∧ HasRoom s.cfg s.dataStack ∧ OverflowDue s ∧
      InterruptDue s ∧ s.accel.ovfVector.toNat < s.cfg.excId.int.toNat :=
  ⟨⟨rfl, rfl, rfl, rfl, rfl⟩, (fun h => by cases h.1), trivial, trivial, ⟨rfl, by decide⟩, ⟨rfl, rfl, by decide⟩,
    by decide⟩

/-- Both sources due, the interrupt id 2 below the overflow id 3. -/
theorem witness_ExceptionEntry_interrupt :
    let c : Config := { Config.default with excId := { Config.default.excId with int := 2 } }
    let s : State := waits { pendingOvf 3 (at_ 0x40 0x0A00) with intPending := true, cfg := c }
    CoreTurn s [] ∧ ¬SoftResetDue s ∧ InterruptDue s ∧ OverflowDue s ∧
      s.cfg.excId.int.toNat < s.accel.ovfVector.toNat :=
  ⟨⟨rfl, rfl, rfl, rfl, rfl⟩, (fun h => by cases h.1), ⟨rfl, rfl, by decide⟩, ⟨rfl, by decide⟩, by decide⟩
theorem witness_ExceptionEntry_full :
    let s : State := waits (limited 1 { pendingOvf 3 (at_ 0x40 0x0200) with callStack := [0x20] })
    CoreTurn s [] ∧ ¬SoftResetDue s ∧ OverflowDue s ∧ ¬HasRoom s.cfg s.callStack :=
  ⟨⟨rfl, rfl, rfl, rfl, rfl⟩, (fun h => by cases h.1), ⟨rfl, by decide⟩, (show ¬(1 : Nat) < 1 by decide)⟩

/-- Both sources pending, SR without IE and EIE, with the bit of the other source alone, with one source's own bit. -/
def bothPending (sr : BitVec 16) : State :=
  waits (offers (onlyFlow .next .one) { pendingOvf 5 (at_ 0x123 sr) with intPending := true })
theorem witness_MaskedExceptionWaits :
    (∀ sr, CoreTurn (bothPending sr) [] ∧ ¬SoftResetDue (bothPending sr) ∧
      (bothPending sr).cfg.maskPolicy = .standard ∧ (bothPending sr).program = onlyFlow .next .one :: [] ∧
      Fetchable (bothPending sr) .one ∧ HasRoom (bothPending sr).cfg (bothPending sr).callStack ∧
      HasRoom (bothPending sr).cfg (bothPending sr).dataStack) ∧
    (bothPending 0).alu.sr.getLsbD 9 = false ∧ (bothPending 0).alu.sr.getLsbD 11 = false ∧
    (bothPending 0x0200).alu.sr.getLsbD 9 = true ∧ (bothPending 0x0200).alu.sr.getLsbD 11 = false ∧
    (bothPending 0x0800).alu.sr.getLsbD 9 = false ∧ (bothPending 0x0800).alu.sr.getLsbD 11 = true ∧
    (bothPending 0x0800).intPending = true ∧ (bothPending 0x0800).intCount = 0 :=
  ⟨fun _ => ⟨⟨rfl, rfl, rfl, rfl, rfl⟩, (fun h => by cases h.1), rfl, rfl,
    ⟨(show ReadableAddr true (0x123#16).toNat by decide), fun h => by cases h⟩, trivial, trivial⟩, by decide⟩

/-- Each source alone: the interrupt under IE only, the overflow under EIE only. -/
theorem witness_MaskedExceptionWaits_other_bit :
    let i : State := waits (offers (onlyFlow .next .one) (pendingInt (at_ 0x123 0x0200)))
    let o : State := waits (offers (onlyFlow .next .one) (pendingOvf 5 (at_ 0x123 0x0800)))
    CoreTurn i [] ∧ ¬SoftResetDue i ∧ i.accel.ovfPending = false ∧ i.intPending = true ∧ i.intCount = 0 ∧
      i.alu.sr.getLsbD 9 = true ∧ i.alu.sr.getLsbD 11 = false ∧
      CoreTurn o [] ∧ ¬SoftResetDue o ∧ o.intPending = false ∧ o.accel.ovfPending = true ∧
      o.alu.sr.getLsbD 9 = false ∧ o.alu.sr.getLsbD 11 = true :=
  ⟨⟨rfl, rfl, rfl, rfl, rfl⟩, (fun h => by cases h.1), rfl, rfl, rfl, by decide, by decide,
    ⟨rfl, rfl, rfl, rfl, rfl⟩, (fun h => by cases h.1), rfl, rfl, by decide, by decide⟩
theorem witness_ReturnFromExceptionPops :
    let c : CoreInstr := onlyFlow .returnFromException .one
    let s : State := { runsOnly c with dataStack := [0x200], callStack := [0x123] }
    NextInstr s c [] [] ∧ s.dataStack = 0x200 :: [] ∧ s.callStack = 0x123 :: [] ∧
      NextInstr (runsOnly c) c [] [] ∧ (runsOnly c).dataStack = [] :=
  ⟨runsOnly_next _, rfl, rfl, runsOnly_next _, rfl⟩
theorem witness_SoftResetAction :
    let s : State := waits { State.reset with srPending := true }
    CoreTurn s [] ∧ SoftResetDue s := ⟨⟨rfl, rfl, rfl, rfl, rfl⟩, rfl, rfl⟩
theorem witness_HostControlInputs :
    let s (c : HostInput) : State := { State.reset with schedule := [.hostInput c] }
    ∀ c, (s c).fault = none ∧ (s c).schedule = .hostInput c :: [] := fun _ => ⟨rfl, rfl⟩
theorem witness_FaultingStepUndone :
    let s : State := core (.pop .call)
    s.fault = none ∧ step s = .next (s.raise .stackUnderflow) ∧
      (s.raise .stackUnderflow).fault = some .stackUnderflow :=
  ⟨rfl, rfl, rfl⟩

/-- A faulted state with no assertion to come, and one with an assertion after an event without a step. -/
theorem witness_FaultIsFinal :
    let s (l : List Event) : State := { State.reset with fault := some .stackOverflow, schedule := l }
    (s [.core, .hostInput .deassertReset]).fault = some .stackOverflow ∧
      .hostInput .assertReset ∉ (s [.core, .hostInput .deassertReset]).schedule ∧
      ∃ t, step (s [.core, .hostInput .assertReset]) = .next t :=
  ⟨rfl, by decide, _, rfl⟩

/-- Without a fault, and in a faulted state with events before the assertion. -/
theorem witness_HardResetAction :
    NextReset [.hostInput .assertReset] [] ∧ NextReset [.core, .hostTxn 0 0, .hostInput .assertReset, .core] [.core] ∧
      ({ State.reset with fault := some .stackOverflow } : State).fault ≠ none :=
  ⟨⟨[], rfl, by decide⟩, ⟨[.core, .hostTxn 0 0], rfl, by decide⟩, by decide⟩
theorem witness_HeldCoreStands :
    let s : State := waits { State.reset with resetLine := true }
    let h : State := waits { State.reset with halted := true }
    let l : State := waits { State.reset with haltLine := true }
    s.fault = none ∧ s.schedule = .core :: [] ∧ s.resetLine = true ∧ h.halted = true ∧ l.haltLine = true :=
  ⟨rfl, rfl, rfl, rfl, rfl⟩
theorem witness_HostTransactionsSpareTheCore :
    (host 0x0002FFFC 0).fault = none ∧ (host 0x0002FFFC 0).schedule = .hostTxn 0x0002FFFC 0 :: [] ∧
      ∃ t, step (host 0x0002FFFC 0) = .next t := ⟨rfl, rfl, _, rfl⟩
theorem witness_StepKeepsInvariant :
    (core (.issue 0x02000000 0)).Inv ∧ ∃ t, step (core (.issue 0x02000000 0)) = .next t :=
  ⟨⟨by rfl, by rfl, rfl, rfl, rfl, rfl, rfl⟩, _, rfl⟩
theorem witness_RomsAndLogPersist :
    let s : State := core (.issue 0x0000FFFB 0)
    ∃ t, step s = .next t ∧ t.log = s.log ++ [.writeOnlyRead 0xFFFB] := ⟨_, rfl, rfl⟩


end Sys2Proof.Tests
end

section
/-! PROOFS. Encoding (30_encoding.md R100 to R111): decoding inverts encoding, encoding inverts decoding, and the words
that encode nothing. Each format of R107 and each transaction word is said once, as the words it stands for; the three
obligations are read off from that. -/

namespace Sys2Proof

open Sys2Proof.Machine Sys2Proof.Claim

/-! ### Unused bits of a field -/

/-- A field whose high bits are 0 is its low bits. -/
theorem zero_append_low {m n : Nat} {v : BitVec (m + n)} (h : v.extractLsb' n m = 0) :
    0#m ++ v.extractLsb' 0 n = v := by
  have hv := append_extract v
  rwa [h] at hv

/-- The selector of format X2: a bit 0, then the halves of ax0 and ax1. -/
theorem halfSelector_parts {s : BitVec 3} (h : s.extractLsb' 2 1 = 0) :
    0#1 ++ (halfOf (s.extractLsb' 1 1)).bit ++ (halfOf (s.extractLsb' 0 1)).bit = s := by
  revert s; decide

theorem regNum_parts (n : BitVec 8) : n.extractLsb' 7 1 ++ n.extractLsb' 4 3 ++ n.extractLsb' 0 4 = n := by
  revert n; decide

theorem regNum_fields (d : BitVec 1) (s : BitVec 3) (z : BitVec 4) :
    (d ++ s ++ z).extractLsb' 7 1 = d ∧ (d ++ s ++ z).extractLsb' 4 3 = s ∧ (d ++ s ++ z).extractLsb' 0 4 = z := by
  revert d s z; decide

/-- A number names a register exactly when R108 lists it (R247). -/
theorem regOf_isSome_iff (n : BitVec 8) : (regOf n).isSome = true ↔ EngineReg n.toNat := by
  revert n; unfold EngineReg; decide

/-! ### The formats of R107: which fields each accepts, and for which instruction -/

section Formats

variable {f : Fields} {i : Instr}

theorem formA_eq_some {k : AccId → Instr} :
    formA f k = some i ↔ ∃ d, f = ⟨f.op, d.bit, 0, 0, 0⟩ ∧ k d = i := by
  obtain ⟨op, d, s, z, imm⟩ := f
  simp only [formA, Option.ite_none_right_eq_some, Option.some.injEq, Fields.mk.injEq, true_and]
  constructor
  · rintro ⟨⟨hs, hz, hi⟩, rfl⟩
    exact ⟨_, ⟨(accOf_inv d).symm, hs, hz, hi⟩, rfl⟩
  · rintro ⟨a, ⟨rfl, hs, hz, hi⟩, rfl⟩
    exact ⟨⟨hs, hz, hi⟩, by rw [accOf_bit]⟩

theorem formAR_eq_some {k : AccId → AxReg → Instr} :
    formAR f k = some i ↔ ∃ d r, f = ⟨f.op, d.bit, 0#1 ++ r.bits, 0, 0⟩ ∧ k d r = i := by
  obtain ⟨op, d, s, z, imm⟩ := f
  simp only [formAR, Option.ite_none_right_eq_some, Option.some.injEq, Fields.mk.injEq, true_and]
  constructor
  · rintro ⟨⟨hs, hz, hi⟩, rfl⟩
    exact ⟨_, _, ⟨(accOf_inv d).symm, by rw [axRegOf_inv]; exact (zero_append_low hs).symm, hz, hi⟩, rfl⟩
  · rintro ⟨a, r, ⟨rfl, rfl, hz, hi⟩, rfl⟩
    exact ⟨⟨extract_append_high _ _, hz, hi⟩, by rw [accOf_bit, extract_append_low, axRegOf_bits]⟩

theorem formAX_eq_some {k : AccId → AxId → Instr} :
    formAX f k = some i ↔ ∃ d x, f = ⟨f.op, d.bit, 0#2 ++ x.bit, 0, 0⟩ ∧ k d x = i := by
  obtain ⟨op, d, s, z, imm⟩ := f
  simp only [formAX, Option.ite_none_right_eq_some, Option.some.injEq, Fields.mk.injEq, true_and]
  constructor
  · rintro ⟨⟨hs, hz, hi⟩, rfl⟩
    exact ⟨_, _, ⟨(accOf_inv d).symm, by rw [axOf_inv]; exact (zero_append_low hs).symm, hz, hi⟩, rfl⟩
  · rintro ⟨a, x, ⟨rfl, rfl, hz, hi⟩, rfl⟩
    exact ⟨⟨extract_append_high _ _, hz, hi⟩, by rw [accOf_bit, extract_append_low, axOf_bit]⟩

theorem formX1_eq_some {k : AxId → Instr} :
    formX1 f k = some i ↔ ∃ x, f = ⟨f.op, 0, 0#2 ++ x.bit, 0, 0⟩ ∧ k x = i := by
  obtain ⟨op, d, s, z, imm⟩ := f
  simp only [formX1, Option.ite_none_right_eq_some, Option.some.injEq, Fields.mk.injEq, true_and]
  constructor
  · rintro ⟨⟨hd, hs, hz, hi⟩, rfl⟩
    exact ⟨_, ⟨hd, by rw [axOf_inv]; exact (zero_append_low hs).symm, hz, hi⟩, rfl⟩
  · rintro ⟨x, ⟨hd, rfl, hz, hi⟩, rfl⟩
    exact ⟨⟨hd, extract_append_high _ _, hz, hi⟩, by rw [extract_append_low, axOf_bit]⟩

theorem formX2_eq_some {k : AxHalf → AxHalf → Instr} :
    formX2 f k = some i ↔ ∃ h0 h1, f = ⟨f.op, 0, 0#1 ++ h0.bit ++ h1.bit, 0, 0⟩ ∧ k h0 h1 = i := by
  obtain ⟨op, d, s, z, imm⟩ := f
  simp only [formX2, Option.ite_none_right_eq_some, Option.some.injEq, Fields.mk.injEq, true_and]
  constructor
  · rintro ⟨⟨hd, hs, hz, hi⟩, rfl⟩
    exact ⟨_, _, ⟨hd, (halfSelector_parts hs).symm, hz, hi⟩, rfl⟩
  · rintro ⟨h0, h1, ⟨hd, rfl, hz, hi⟩, rfl⟩
    refine ⟨⟨hd, ?_, hz, hi⟩, ?_⟩ <;> cases h0 <;> cases h1 <;> rfl

theorem formAI_eq_some {k : AccId → BitVec 16 → Instr} :
    formAI f k = some i ↔ ∃ d imm, f = ⟨f.op, d.bit, 0, 0, imm⟩ ∧ k d imm = i := by
  obtain ⟨op, d, s, z, imm⟩ := f
  simp only [formAI, Option.ite_none_right_eq_some, Option.some.injEq, Fields.mk.injEq, true_and]
  constructor
  · rintro ⟨⟨hs, hz⟩, rfl⟩
    exact ⟨_, _, ⟨(accOf_inv d).symm, hs, hz, rfl⟩, rfl⟩
  · rintro ⟨a, v, ⟨rfl, hs, hz, rfl⟩, rfl⟩
    exact ⟨⟨hs, hz⟩, by rw [accOf_bit]⟩

theorem formAI8_eq_some {k : AccId → BitVec 8 → Instr} :
    formAI8 f k = some i ↔ ∃ d imm, f = ⟨f.op, d.bit, 0, 0, 0#8 ++ imm⟩ ∧ k d imm = i := by
  obtain ⟨op, d, s, z, imm⟩ := f
  simp only [formAI8, Option.ite_none_right_eq_some, Option.some.injEq, Fields.mk.injEq, true_and]
  constructor
  · rintro ⟨⟨hs, hz, hi⟩, rfl⟩
    exact ⟨_, _, ⟨(accOf_inv d).symm, hs, hz, (zero_append_low hi).symm⟩, rfl⟩
  · rintro ⟨a, v, ⟨rfl, hs, hz, rfl⟩, rfl⟩
    exact ⟨⟨hs, hz, extract_append_high _ _⟩, by rw [accOf_bit, extract_append_low]⟩

theorem formAS6_eq_some {k : AccId → BitVec 6 → Instr} :
    formAS6 f k = some i ↔ ∃ d n, f = ⟨f.op, d.bit, 0, 0, 0#10 ++ n⟩ ∧ k d n = i := by
  obtain ⟨op, d, s, z, imm⟩ := f
  simp only [formAS6, Option.ite_none_right_eq_some, Option.some.injEq, Fields.mk.injEq, true_and]
  constructor
  · rintro ⟨⟨hs, hz, hi⟩, rfl⟩
    exact ⟨_, _, ⟨(accOf_inv d).symm, hs, hz, (zero_append_low hi).symm⟩, rfl⟩
  · rintro ⟨a, v, ⟨rfl, hs, hz, rfl⟩, rfl⟩
    exact ⟨⟨hs, hz, extract_append_high _ _⟩, by rw [accOf_bit, extract_append_low]⟩

theorem formN_eq_some {j : Instr} : formN f j = some i ↔ f = ⟨f.op, 0, 0, 0, 0⟩ ∧ j = i := by
  obtain ⟨op, d, s, z, imm⟩ := f
  simp only [formN, Option.ite_none_right_eq_some, Option.some.injEq, Fields.mk.injEq, true_and]

/-- The register field is the bits 23:16 (R106). -/
theorem regOf_fields_eq_some {r : Reg} :
    regOf (f.d ++ f.s ++ f.z) = some r ↔
      f = ⟨f.op, r.num.extractLsb' 7 1, r.num.extractLsb' 4 3, r.num.extractLsb' 0 4, f.imm⟩ := by
  obtain ⟨op, d, s, z, imm⟩ := f
  simp only [Fields.mk.injEq, true_and, and_true]
  constructor
  · intro h
    obtain ⟨hd, hs, hz⟩ := regNum_fields d s z
    rw [num_of_regOf _ _ h]
    exact ⟨hd.symm, hs.symm, hz.symm⟩
  · rintro ⟨rfl, rfl, rfl⟩
    rw [regNum_parts, regOf_num]

theorem formWrite_eq_some {k : Reg → BitVec 16 → Instr} :
    formWrite f k = some i ↔
      ∃ r v, f = ⟨f.op, r.num.extractLsb' 7 1, r.num.extractLsb' 4 3, r.num.extractLsb' 0 4, v⟩ ∧ k r v = i := by
  simp only [formWrite, Option.map_eq_some_iff, regOf_fields_eq_some]
  constructor
  · rintro ⟨r, hf, rfl⟩
    exact ⟨r, f.imm, hf, rfl⟩
  · rintro ⟨r, v, hf, rfl⟩
    have hv : f.imm = v := congrArg Fields.imm hf
    subst hv
    exact ⟨r, hf, rfl⟩

theorem formRead_eq_some {k : Reg → Instr} :
    formRead f k = some i ↔
      ∃ r, f = ⟨f.op, r.num.extractLsb' 7 1, r.num.extractLsb' 4 3, r.num.extractLsb' 0 4, 0⟩ ∧ k r = i := by
  simp only [formRead, Option.ite_none_right_eq_some, Option.map_eq_some_iff, regOf_fields_eq_some]
  constructor
  · rintro ⟨hi, r, hf, rfl⟩
    rw [hi] at hf
    exact ⟨r, hf, rfl⟩
  · rintro ⟨r, hf, rfl⟩
    have hv : f.imm = 0 := congrArg Fields.imm hf
    rw [hv]
    exact ⟨rfl, r, hf, rfl⟩

end Formats

/-! ### ALU command words -/

/-- The word of these fields is the word of `i`, a well-formed instruction, whatever the register map. -/
def Fields.Encode (f : Fields) (i : Instr) : Prop := ∀ m : IfxMap, i.wf m = true ∧ encode m i = f.code

/-- What the decoder does with one op value: one format of R107, with a command whose words have that op and that format,
or nothing (R111). -/
inductive CommandRow (f : Fields) (op : BitVec 8) : Option Instr → Prop
  | formA (k : AccId → Instr) (h : ∀ d, Fields.Encode ⟨op, d.bit, 0, 0, 0⟩ (k d)) : CommandRow f op (formA f k)
  | formAR (k : AccId → AxReg → Instr) (h : ∀ d r, Fields.Encode ⟨op, d.bit, 0#1 ++ r.bits, 0, 0⟩ (k d r)) :
      CommandRow f op (formAR f k)
  | formAX (k : AccId → AxId → Instr) (h : ∀ d x, Fields.Encode ⟨op, d.bit, 0#2 ++ x.bit, 0, 0⟩ (k d x)) :
      CommandRow f op (formAX f k)
  | formX1 (k : AxId → Instr) (h : ∀ x, Fields.Encode ⟨op, 0, 0#2 ++ x.bit, 0, 0⟩ (k x)) : CommandRow f op (formX1 f k)
  | formX2 (k : AxHalf → AxHalf → Instr)
      (h : ∀ h0 h1, Fields.Encode ⟨op, 0, 0#1 ++ h0.bit ++ h1.bit, 0, 0⟩ (k h0 h1)) : CommandRow f op (formX2 f k)
  | formAI (k : AccId → BitVec 16 → Instr) (h : ∀ d imm, Fields.Encode ⟨op, d.bit, 0, 0, imm⟩ (k d imm)) :
      CommandRow f op (formAI f k)
  | formAI8 (k : AccId → BitVec 8 → Instr) (h : ∀ d imm, Fields.Encode ⟨op, d.bit, 0, 0, 0#8 ++ imm⟩ (k d imm)) :
      CommandRow f op (formAI8 f k)
  | formAS6 (k : AccId → BitVec 6 → Instr) (h : ∀ d n, Fields.Encode ⟨op, d.bit, 0, 0, 0#10 ++ n⟩ (k d n)) :
      CommandRow f op (formAS6 f k)
  | formN (j : Instr) (h : Fields.Encode ⟨op, 0, 0, 0, 0⟩ j) : CommandRow f op (formN f j)
  | formRead (k : Reg → Instr)
      (h : ∀ r : Reg,
        Fields.Encode ⟨op, r.num.extractLsb' 7 1, r.num.extractLsb' 4 3, r.num.extractLsb' 0 4, 0⟩ (k r)) :
      CommandRow f op (formRead f k)
  | formWrite (k : Reg → BitVec 16 → Instr)
      (h : ∀ (r : Reg) (v : BitVec 16),
        Fields.Encode ⟨op, r.num.extractLsb' 7 1, r.num.extractLsb' 4 3, r.num.extractLsb' 0 4, v⟩ (k r v)) :
      CommandRow f op (formWrite f k)
  | reserved : CommandRow f op none

/-- The decoder's table and the encoder's agree, op by op: the arm names its format, and the encoder gives every command of
that arm the arm's op and format by definition. -/
theorem decodeFields_row (f : Fields) : CommandRow f f.op (decodeFields f) := by
  have hop : f.op = BitVec.ofNat 8 f.op.toNat := (BitVec.ofNat_toNat 8 f.op).symm
  rw [hop, decodeFields]
  generalize f.op.toNat = n
  split
  all_goals constructor <;> (intros; exact fun _ => ⟨rfl, rfl⟩)

/-- Fields that decode are those of the instruction's word. -/
theorem CommandRow.encode {f : Fields} {o : Option Instr} {i : Instr} (hrow : CommandRow f f.op o) (h : o = some i) :
    f.Encode i := by
  cases hrow with
  | formA k hk => obtain ⟨d, hf, rfl⟩ := formA_eq_some.1 h; rw [hf]; exact hk d
  | formAR k hk => obtain ⟨d, r, hf, rfl⟩ := formAR_eq_some.1 h; rw [hf]; exact hk d r
  | formAX k hk => obtain ⟨d, x, hf, rfl⟩ := formAX_eq_some.1 h; rw [hf]; exact hk d x
  | formX1 k hk => obtain ⟨x, hf, rfl⟩ := formX1_eq_some.1 h; rw [hf]; exact hk x
  | formX2 k hk => obtain ⟨h0, h1, hf, rfl⟩ := formX2_eq_some.1 h; rw [hf]; exact hk h0 h1
  | formAI k hk => obtain ⟨d, imm, hf, rfl⟩ := formAI_eq_some.1 h; rw [hf]; exact hk d imm
  | formAI8 k hk => obtain ⟨d, imm, hf, rfl⟩ := formAI8_eq_some.1 h; rw [hf]; exact hk d imm
  | formAS6 k hk => obtain ⟨d, n, hf, rfl⟩ := formAS6_eq_some.1 h; rw [hf]; exact hk d n
  | formN j hj => obtain ⟨hf, rfl⟩ := formN_eq_some.1 h; rw [hf]; exact hj
  | formRead k hk => obtain ⟨r, hf, rfl⟩ := formRead_eq_some.1 h; rw [hf]; exact hk r
  | formWrite k hk => obtain ⟨r, v, hf, rfl⟩ := formWrite_eq_some.1 h; rw [hf]; exact hk r v
  | reserved => cases h

/-- No command has the op 0 of the transaction words (R111). -/
theorem decodeFields_opZero {f : Fields} (h : f.op = 0) : decodeFields f = none := by
  rw [decodeFields, h]
  rfl

/-- A word with another op is an ALU command word. -/
theorem decode_command {w : Word} (m : IfxMap) (v : BitVec 16) (h : (Fields.ofWord w).op ≠ 0) :
    decode m w v = decodeFields (Fields.ofWord w) :=
  if_neg h

/-- The word of a command's fields is decoded by them. -/
theorem decode_code {f : Fields} {i : Instr} (m : IfxMap) (h : decodeFields f = some i) :
    decode m f.code.word f.code.data = some i := by
  have hf : Fields.ofWord f.code.word = f := Fields.ofWord_toWord f
  have hop : f.op ≠ 0 := fun h0 => Option.some_ne_none i (h.symm.trans (decodeFields_opZero h0))
  rw [decode_command m _ (by rwa [hf]), hf, h]

/-! ### Transaction words (R100 to R104) -/

theorem encode_txnInstr (m : IfxMap) (p : Port) (w : Dir) (r : IfxReg) (v : BitVec 16) :
    encode m (txnInstr p w r v) = codeTxn m p w r (dataOf w v) := by
  cases p <;> cases w <;> cases r <;> rfl

theorem wf_txnInstr (m : IfxMap) (p : Port) (w : Dir) (r : IfxReg) (v : BitVec 16) :
    (txnInstr p w r v).wf m = true := by
  cases p <;> cases w <;> cases r <;> rfl

theorem encode_unknownInstr (m : IfxMap) (p : Port) (w : Dir) (lo : BitVec 8) (v : BitVec 16) :
    encode m (unknownInstr p w lo v) = codeUnknown p w lo (dataOf w v) := by
  cases p <;> rfl

theorem dataOf_dataOf (w : Dir) (v : BitVec 16) : dataOf w (dataOf w v) = dataOf w v := by
  cases w <;> rfl

theorem unknownWf_iff {m : IfxMap} {w : Dir} {lo : BitVec 8} {v : BitVec 16} :
    unknownWf m w lo v = true ↔ m.regAt (blockAddr lo) = none ∧ dataOf w v = v := by
  rw [unknownWf, Bool.and_eq_true, Option.isNone_iff_eq_none, decide_eq_true_iff]

theorem wf_unknownInstr {m : IfxMap} {lo : BitVec 8} (p : Port) (w : Dir) (v : BitVec 16)
    (h : m.regAt (blockAddr lo) = none) : (unknownInstr p w lo v).wf m = true := by
  cases p <;> exact unknownWf_iff.2 ⟨h, dataOf_dataOf w v⟩

/-- A transaction on an address the map holds. -/
theorem decode_txnWord_held {m : IfxMap} {a : BitVec 16} {r : IfxReg} (p : Port) (w : Dir) (v : BitVec 16)
    (h : m.regAt a = some r) : decode m (txnWord p w a) v = some (txnInstr p w r v) := by
  simp only [decode, decodeTransaction, txnWord_op, txnWord_zero, txnWord_addr, txnWord_port, txnWord_dir, portOf_bit,
    dirOf_bit, h, if_true]

/-- A transaction on an address the map does not hold (R104). -/
theorem decode_txnWord_free {m : IfxMap} {a : BitVec 16} (p : Port) (w : Dir) (v : BitVec 16)
    (h : m.regAt a = none) :
    decode m (txnWord p w a) v =
      if a.extractLsb' 8 8 = 0xFF then some (unknownInstr p w (a.extractLsb' 0 8) v) else none := by
  have hbyte : ∀ k, k + 8 ≤ 16 → (txnWord p w a).extractLsb' k 8 = a.extractLsb' k 8 := by
    intro k hk
    rw [← BitVec.extractLsb'_extractLsb'_of_le hk, txnWord_addr]
  simp only [decode, decodeTransaction, txnWord_op, txnWord_zero, txnWord_addr, txnWord_port, txnWord_dir, portOf_bit,
    dirOf_bit, h, if_true, hbyte 8 (by omega), hbyte 0 (by omega)]

/-- A register's transaction is found at the register's own address. -/
theorem decode_codeTxn {m : IfxMap} (hm : m.Distinct) {i : Instr} {p : Port} {w : Dir} {r : IfxReg} {v : BitVec 16}
    (hcode : encode m i = codeTxn m p w r v) (hi : txnInstr p w r v = i) :
    decode m (encode m i).word (encode m i).data = some i := by
  rw [hcode, codeTxn, decode_txnWord_held p w v (IfxMap.regAt_addr hm r), hi]

theorem decode_codeUnknown {m : IfxMap} {w : Dir} {lo : BitVec 8} {v : BitVec 16} (p : Port)
    (h : unknownWf m w lo v = true) :
    decode m (codeUnknown p w lo v).word (codeUnknown p w lo v).data = some (unknownInstr p w lo v) := by
  obtain ⟨hfree, -⟩ := unknownWf_iff.1 h
  rw [codeUnknown, decode_txnWord_free p w v hfree, if_pos (blockAddr_high lo), blockAddr_low]

/-- A transaction word that decodes names a register or a free address of the block (R103, R104). -/
theorem decode_txnWord_cases {m : IfxMap} {p : Port} {w : Dir} {a v : BitVec 16} {i : Instr}
    (h : decode m (txnWord p w a) v = some i) :
    (∃ r, a = m.addr r ∧ i = txnInstr p w r v) ∨
      ∃ lo, a = blockAddr lo ∧ m.regAt (blockAddr lo) = none ∧ i = unknownInstr p w lo v := by
  cases hr : m.regAt a with
  | some r =>
    rw [decode_txnWord_held p w v hr] at h
    exact .inl ⟨r, (IfxMap.addr_of_regAt hr).symm, (Option.some.inj h).symm⟩
  | none =>
    rw [decode_txnWord_free p w v hr] at h
    obtain ⟨hhigh, hi⟩ := Option.ite_none_right_eq_some.1 h
    have ha : a = blockAddr (a.extractLsb' 0 8) := by
      have hparts := append_extract (m := 8) (n := 8) a
      rw [hhigh] at hparts
      exact hparts.symm
    exact .inr ⟨_, ha, ha ▸ hr, (Option.some.inj hi).symm⟩

/-- A word that decodes is a transaction word or an ALU command word (R100, R106). -/
theorem decode_cases {m : IfxMap} {w : Word} {v : BitVec 16} {i : Instr} (h : decode m w v = some i) :
    (∃ p d a, w = txnWord p d a) ∨ decodeFields (Fields.ofWord w) = some i := by
  rw [decode] at h
  split at h
  · obtain ⟨hzero, -⟩ := Option.ite_none_right_eq_some.1 h
    exact .inl ⟨_, _, _, (txnWord_parts w hzero).symm⟩
  · exact .inr h

/-! ### O1 and O2: the round trips -/

/-- Settles O1: format by format for the commands, and by the register's own address for the transactions. -/
theorem decodeInvertsEncode : Obligations.DecodeInvertsEncode := by
  unfold Obligations.DecodeInvertsEncode
  intro m i hm hwf
  cases i with
  | clr d | add d | addp d | sub d | subp d | inc d | dec d | incm d | decm d | neg d | abs d | tst d | mov d | movp d
  | movnp d | andc d | orc d | xorc d | not d | lsl16 d | lsr16 d | asr16 d =>
    exact decode_code m (formA_eq_some.2 ⟨d, rfl, rfl⟩)
  | addr d r | subr d r | movr d r => exact decode_code m (formAR_eq_some.2 ⟨d, r, rfl, rfl⟩)
  | addax d x | subax d x | movax d x | andr d x | orr d x | xorr d x | mulc d x | mulac d x | mulmv d x | maddc d x
  | msubc d x => exact decode_code m (formAX_eq_some.2 ⟨d, x, rfl, rfl⟩)
  | tstaxh x | mul x | madd x | msub x => exact decode_code m (formX1_eq_some.2 ⟨x, rfl, rfl⟩)
  | mulx h0 h1 | maddx h0 h1 | msubx h0 h1 => exact decode_code m (formX2_eq_some.2 ⟨h0, h1, rfl, rfl⟩)
  | addi d imm | cmpi d imm | andi d imm | ori d imm | xori d imm | andf d imm | andcf d imm =>
    exact decode_code m (formAI_eq_some.2 ⟨d, imm, rfl, rfl⟩)
  | addis d imm => exact decode_code m (formAI8_eq_some.2 ⟨d, imm, rfl, rfl⟩)
  | lsl d n | lsr d n | asl d n | asr d n => exact decode_code m (formAS6_eq_some.2 ⟨d, n, rfl, rfl⟩)
  | cmp | clrp | tstprod | set15 | clr15 | set40 | clr40 | m2 | m0 =>
    exact decode_code m (formN_eq_some.2 ⟨rfl, rfl⟩)
  | rreg r => exact decode_code m (formRead_eq_some.2 ⟨r, rfl, rfl⟩)
  | wreg r v => exact decode_code m (formWrite_eq_some.2 ⟨r, v, rfl, rfl⟩)
  | unknownD w lo v =>
    have h := decode_codeUnknown .dsp hwf
    rwa [unknownInstr, (unknownWf_iff.1 hwf).2] at h
  | unknownH w lo v =>
    have h := decode_codeUnknown .host hwf
    rwa [unknownInstr, (unknownWf_iff.1 hwf).2] at h
  | _ => exact decode_codeTxn hm rfl rfl

/-- Settles O2: the word is a transaction word or an ALU command word, and each is the word of what it decodes to. -/
theorem encodeInvertsDecode : Obligations.EncodeInvertsDecode := by
  unfold Obligations.EncodeInvertsDecode
  intro m w v i h
  rcases decode_cases h with ⟨p, d, a, rfl⟩ | hcommand
  · rcases decode_txnWord_cases h with ⟨r, rfl, rfl⟩ | ⟨lo, rfl, hfree, rfl⟩
    · exact ⟨wf_txnInstr m p d r v, by rw [encode_txnInstr]; rfl⟩
    · exact ⟨wf_unknownInstr p d v hfree, by rw [encode_unknownInstr]; rfl⟩
  · obtain ⟨hwf, hcode⟩ := (decodeFields_row (Fields.ofWord w)).encode hcommand m
    exact ⟨hwf, by rw [hcode]; exact Fields.toWord_ofWord w⟩

/-! ### O4: words that encode nothing -/

/-- The bits of a word from `k` up, `l` of them, as a number. -/
theorem extract_toNat {n : Nat} (w : BitVec n) (k l : Nat) : (w.extractLsb' k l).toNat = w.toNat / 2 ^ k % 2 ^ l := by
  rw [BitVec.extractLsb'_toNat, Nat.shiftRight_eq_div_pow]

theorem op_toNat (w : Word) : (Fields.ofWord w).op.toNat = w.toNat / 2 ^ 24 := by
  rw [Fields.ofWord, extract_toNat]
  omega

theorem imm_toNat (w : Word) : (Fields.ofWord w).imm.toNat = w.toNat % 2 ^ 16 := by
  rw [Fields.ofWord, extract_toNat, pow_zero, Nat.div_one]

theorem regField_toNat (w : Word) :
    ((Fields.ofWord w).d ++ (Fields.ofWord w).s ++ (Fields.ofWord w).z).toNat = w.toNat / 2 ^ 16 % 2 ^ 8 := by
  rw [← extract_toNat]
  simp only [Fields.ofWord]
  rw [BitVec.extractLsb'_append_extractLsb'_eq_extractLsb' (show 23 = 20 + 3 from rfl),
    BitVec.extractLsb'_append_extractLsb'_eq_extractLsb' (show 20 = 16 + 4 from rfl)]

/-- An op value without a row decodes to nothing (R111): of the decoder's 67 arms only the last is left. -/
theorem decodeFields_reserved {f : Fields} (h : ReservedOp f.op.toNat) : decodeFields f = none := by
  unfold ReservedOp at h
  rw [decodeFields]
  generalize f.op.toNat = n at h
  split
  case h_67 => rfl
  all_goals omega

theorem blockAddr_toNat (lo : BitVec 8) : (blockAddr lo).toNat = 0xFF00 + lo.toNat := by
  revert lo; decide

/-- A transaction word that decodes has its address in the register block (R103). -/
theorem block_of_decode_txnWord {m : IfxMap} {p : Port} {w : Dir} {a v : BitVec 16} {i : Instr}
    (h : decode m (txnWord p w a) v = some i) : 0xFF00 ≤ a.toNat := by
  have hblock : ∃ lo, a = blockAddr lo := by
    rcases decode_txnWord_cases h with ⟨r, ha, -⟩ | ⟨lo, ha, -⟩
    · exact ⟨m.place r, ha⟩
    · exact ⟨lo, ha⟩
  obtain ⟨lo, rfl⟩ := hblock
  rw [blockAddr_toNat]
  omega

/-- A word of a nonzero op is an ALU command word. -/
theorem decode_op {m : IfxMap} {w : Word} {v : BitVec 16} (h : w.toNat / 2 ^ 24 ≠ 0) :
    decode m w v = decodeFields (Fields.ofWord w) := by
  refine decode_command m v fun h0 => h ?_
  rw [← op_toNat, h0]
  rfl

theorem decode_reservedOp {m : IfxMap} {w : Word} {v : BitVec 16} (h : ReservedOp (w.toNat / 2 ^ 24)) :
    decode m w v = none := by
  have hop : w.toNat / 2 ^ 24 ≠ 0 := by
    unfold ReservedOp at h
    omega
  rw [decode_op hop]
  exact decodeFields_reserved (by rwa [op_toNat])

theorem decode_opZero {m : IfxMap} {w : Word} {v : BitVec 16} (hop : w.toNat / 2 ^ 24 = 0)
    (h : w.toNat / 2 ^ 18 ≠ 0 ∨ w.toNat % 2 ^ 16 < 0xFF00) : decode m w v = none := by
  rw [Option.eq_none_iff_forall_ne_some]
  intro i hi
  rcases decode_cases hi with ⟨p, d, a, rfl⟩ | hcommand
  · have hblock := block_of_decode_txnWord hi
    have hzero : (txnWord p d a).toNat / 2 ^ 18 % 2 ^ 14 = 0 := by rw [← extract_toNat, txnWord_zero]; rfl
    have haddr : (txnWord p d a).toNat / 2 ^ 0 % 2 ^ 16 = a.toNat := by rw [← extract_toNat, txnWord_addr]
    omega
  · have hzero : (Fields.ofWord w).op = 0 := BitVec.eq_of_toNat_eq (by rw [op_toNat, hop]; rfl)
    rw [decodeFields_opZero hzero] at hcommand
    cases hcommand

/-- A word with RREG's op is decoded by RREG's format (R246). -/
theorem decode_rreg {m : IfxMap} {w : Word} {v : BitVec 16} (hop : w.toNat / 2 ^ 24 = 0x58) :
    decode m w v = formRead (Fields.ofWord w) .rreg := by
  rw [decode_op (by omega), decodeFields, op_toNat, hop]
  rfl

/-- A word with WREG's op is decoded by WREG's format (R245). -/
theorem decode_wreg {m : IfxMap} {w : Word} {v : BitVec 16} (hop : w.toNat / 2 ^ 24 = 0x59) :
    decode m w v = formWrite (Fields.ofWord w) .wreg := by
  rw [decode_op (by omega), decodeFields, op_toNat, hop]
  rfl

theorem regOf_none {w : Word} (h : ¬EngineReg (w.toNat / 2 ^ 16 % 2 ^ 8)) :
    regOf ((Fields.ofWord w).d ++ (Fields.ofWord w).s ++ (Fields.ofWord w).z) = none := by
  rw [← regField_toNat, ← regOf_isSome_iff] at h
  exact Option.not_isSome_iff_eq_none.1 h

theorem issueWord_refused {s : State} {w : Word} {v : BitVec 16} (p : Port) (h : decode s.cfg.ifxMap w v = none) :
    s.issueWord p w v = .refused (.notAnInstruction w) := by
  rw [State.issueWord, h]

/-- A core instruction whose first operation is refused. -/
theorem step_opRefused {s : State} {c : CoreInstr} {op : CoreOp} {ops : List CoreOp} {more : List CoreInstr}
    {rest : List Event} {e : Refusal} (h : NextInstr s c more rest) (hops : c.ops = op :: ops)
    (hop : s.coreOp op = .refused e) : step s = .refused e := by
  rw [step_instr h, hops, State.coreOps, hop]
  rfl

/-- Settles O4: each kind of reserved word by the field that refuses it, and the step by its first operation. -/
theorem reservedWordsRefused : Obligations.ReservedWordsRefused := by
  unfold Obligations.ReservedWordsRefused
  refine ⟨fun m w v => decode_reservedOp, fun m w v => decode_opZero, ?_, ?_, ?_⟩
  · intro m w v hop hreg
    rcases hop with hop | hop
    · rw [decode_rreg hop, formRead, regOf_none hreg, Option.map_none, ite_self]
    · rw [decode_wreg hop, formWrite, regOf_none hreg, Option.map_none]
  · intro m w v hop hvalue
    have himm : (Fields.ofWord w).imm ≠ 0 := fun h0 => hvalue (by rw [← imm_toNat, h0]; rfl)
    rw [decode_rreg hop, formRead, if_neg himm]
  · intro s w v rest hnone
    refine ⟨fun c ops more hnext hops => ?_, fun hfault hsched => ?_⟩
    · exact step_opRefused hnext hops (issueWord_refused .dsp hnone)
    · rw [step_host hfault hsched, issueWord_refused .host hnone]
      rfl

end Sys2Proof
end

section
/-! PROOFS. The invariant (10_state.md R23, R47; 20_memory.md R70; 60_exceptions.md R376, R380; 70_reset_and_hazards.md
R412): what an instruction keeps of the memories and the pending overflow, then the invariant under each move of the machine,
from the operations of a core instruction up to a step. -/

namespace Sys2Proof.Machine

open Sys2Proof.Claim

section Stores

variable {s t : State}

/-! ### The memories and the pending overflow under one instruction -/

/-- The bytes of a memory array (20_memory.md R70). -/
def Region.size (c : Config) : Region → Nat
  | .iram | .irom | .dram => 8192
  | .drom => 4096
  | .main => c.mainMemSize

/-- A content that region `r` may have: in canonical form and within the region's size. -/
def RegionOk (c : Config) (r : Region) (m : Memory) : Prop := m.wf = true ∧ m.below (r.size c) = true

theorem forall_region {P : Region → Prop} : (∀ r, P r) ↔ P .iram ∧ P .irom ∧ P .dram ∧ P .drom ∧ P .main := by
  constructor
  · exact fun h => ⟨h .iram, h .irom, h .dram, h .drom, h .main⟩
  · rintro ⟨h1, h2, h3, h4, h5⟩ r
    cases r <;> assumption

/-- The invariant's two parts about memory, region by region. -/
theorem memWf_memBounded_iff (s : State) :
    s.memWf = true ∧ s.memBounded = true ↔
      (∀ r, RegionOk s.cfg r (s.mem r)) ∧ RegionOk s.cfg .iram s.cfg.iramImage ∧
        RegionOk s.cfg .dram s.cfg.dramImage := by
  simp only [State.memWf, State.memBounded, Bool.and_eq_true, forall_region, RegionOk, Region.size, State.mem]
  tauto

/-- From `s` to `t` every region keeps to its form and size, and the pending overflow to its three ids. -/
structure KeepsStores (s t : State) : Prop where
  cfg : t.cfg = s.cfg
  regions : ∀ r, RegionOk s.cfg r (s.mem r) → RegionOk s.cfg r (t.mem r)
  vector : s.vectorLegal = true → t.vectorLegal = true

theorem KeepsStores.of_same (hcfg : t.cfg = s.cfg) (hmem : ∀ r, t.mem r = s.mem r)
    (hpending : t.accel.ovfPending = s.accel.ovfPending) (hvector : t.accel.ovfVector = s.accel.ovfVector) :
    KeepsStores s t where
  cfg := hcfg
  regions r h := by rwa [hmem]
  vector h := by rwa [vectorLegal_iff, hpending, hvector, hcfg, ← vectorLegal_iff]

theorem KeepsStores.raise (f : Fault) (s : State) : KeepsStores s (s.raise f) := .of_same rfl (fun _ => rfl) rfl rfl

theorem KeepsStores.trans {u : State} (h1 : KeepsStores s t) (h2 : KeepsStores t u) : KeepsStores s u where
  cfg := h2.cfg.trans h1.cfg
  regions r h := by
    have := h2.regions r
    rw [h1.cfg] at this
    exact this (h1.regions r h)
  vector h := h2.vector (h1.vector h)

theorem KeepsStores.setSr (sr : BitVec 16) (s : State) : KeepsStores s (s.setSr sr) :=
  .of_same rfl (fun _ => rfl) rfl rfl

theorem KeepsStores.setProd (p : ProdReg) (s : State) : KeepsStores s (s.setProd p) :=
  .of_same rfl (fun _ => rfl) rfl rfl

theorem KeepsStores.setAcc (d : AccId) (v : Acc) (s : State) : KeepsStores s (s.setAcc d v) := by
  cases d <;> exact .of_same rfl (fun _ => rfl) rfl rfl

theorem KeepsStores.setAx (x : AxId) (v : BitVec 32) (s : State) : KeepsStores s (s.setAx x v) := by
  cases x <;> exact .of_same rfl (fun _ => rfl) rfl rfl

theorem KeepsStores.toCore (v : BitVec 16) (s : State) : KeepsStores s (s.toCore v) :=
  .of_same rfl (fun _ => rfl) rfl rfl

theorem KeepsStores.writeReg (r : Reg) (v : BitVec 16) (s : State) : KeepsStores s (s.writeReg r v) := by
  unfold State.writeReg
  split
  case h_2 d => split <;> exact .setAcc d _ s
  case h_1 d | h_3 d => exact .setAcc d _ s
  case h_4 x | h_5 x => exact .setAx x _ s
  case h_10 => exact .setSr v s
  all_goals exact .setProd _ s

theorem KeepsStores.sendHigh (m : MailboxId) (v : BitVec 16) (s : State) : KeepsStores s (s.sendHigh m v) := by
  cases m
  · rw [State.sendHigh_cmb]; exact .of_same rfl (fun _ => rfl) rfl rfl
  · rw [State.sendHigh_dmb]; exact .of_same rfl (fun _ => rfl) rfl rfl

theorem KeepsStores.sendLow (m : MailboxId) (v : BitVec 16) (s : State) : KeepsStores s (s.sendLow m v) := by
  cases m
  · rw [State.sendLow_cmb]; exact .of_same rfl (fun _ => rfl) rfl rfl
  · rw [State.sendLow_dmb]; exact .of_same rfl (fun _ => rfl) rfl rfl

theorem KeepsStores.requestHostIrq (v : BitVec 16) (s : State) : KeepsStores s (s.requestHostIrq v) := by
  unfold State.requestHostIrq
  split <;> exact .of_same rfl (fun _ => rfl) rfl rfl

theorem KeepsStores.unknownAccess (p : Port) (w : Dir) (a : BitVec 16) (s : State) :
    KeepsStores s (s.unknownAccess p w a) := by
  unfold State.unknownAccess
  split
  · cases w
    · cases p <;> exact .of_same rfl (fun _ => rfl) rfl rfl
    · exact .of_same rfl (fun _ => rfl) rfl rfl
  · exact .raise _ _

/-- A DSBL write: the check phase keeps the copy in bounds (45_dma.md R305). -/
theorem KeepsStores.runDma (v : BitVec 16) (s : State) : KeepsStores s (s.runDma v) := by
  rcases runDma_cases v s with ⟨f, h⟩ | ⟨iram, dram, main, h, wi, wd, wm, bi, bd, bm⟩ <;> rw [h]
  · exact .raise f s
  · refine ⟨rfl, fun r ⟨hw, hb⟩ => ?_, id⟩
    cases r with
    | iram => exact ⟨wi hw, bi hb⟩
    | dram => exact ⟨wd hw, bd hb⟩
    | main => exact ⟨wm hw, bm hb⟩
    | irom | drom => exact ⟨hw, hb⟩

/-- The id an access queues is one of the three (46_accelerator.md R340). -/
theorem overflowId_cases (c : ExcIds) (f : Format) (w : Dir) :
    overflowId c f w = c.rawReadOvf ∨ overflowId c f w = c.rawWriteOvf ∨ overflowId c f w = c.adpcmOvf := by
  unfold overflowId
  split
  · exact .inr (.inr rfl)
  · cases w
    · exact .inl rfl
    · exact .inr (.inl rfl)

theorem KeepsStores.advanceStream (f : Format) (w : Dir) (pre a : BitVec 32) (s : State) :
    KeepsStores s (s.advanceStream f w pre a) := by
  rw [advanceStream_eq]
  split
  · exact ⟨rfl, fun _ => id, fun _ => (vectorLegal_iff _).2 fun _ => overflowId_cases s.cfg.excId f w⟩
  · exact .of_same rfl (fun _ => rfl) rfl rfl

theorem KeepsStores.fetchSample (s : State) : KeepsStores s s.fetchSample := by
  rcases fetchSample_cases s with ⟨f, h⟩ | ⟨f, y, v, pre, a, h, hy, -⟩ <;> rw [h]
  · exact .raise f s
  · have hload : KeepsStores s { s with accel := y } := .of_same rfl (fun _ => rfl) (by rw [hy]) (by rw [hy])
    exact (hload.trans (.advanceStream f .read pre a _)).trans (.toCore v _)

theorem KeepsStores.writeSample (v : BitVec 16) (s : State) : KeepsStores s (s.writeSample v) := by
  rcases writeSample_cases v s with ⟨f, h⟩ | ⟨f, m, h, hw, hb⟩ <;> rw [h]
  · exact .raise f s
  · have hstore : KeepsStores s { s with main := m } := by
      refine ⟨rfl, fun r hr => ?_, id⟩
      cases r with
      | main => exact ⟨hw hr.1, hb hr.2⟩
      | iram | irom | dram | drom => exact hr
    exact hstore.trans (.advanceStream f .write _ _ _)

/-- Of all instructions only a DSBL write, an accelerator fetch and an accelerator write reach a memory or the pending
overflow. -/
theorem exec_keepsStores (i : Instr) (h : exec i s = .next t) : KeepsStores s t := by
  cases i with
  | wrDDsbl v | wrHDsbl v => cases h; exact .runDma v s
  | rdDAcdat => cases h; exact .fetchSample s
  | wrDAcdat1 v => cases h; exact .writeSample v s
  | wrHCmbh v => cases h; exact .sendHigh .cmb v s
  | wrDDmbh v => cases h; exact .sendHigh .dmb v s
  | wrHCmbl v => cases h; exact .sendLow .cmb v s
  | wrDDmbl v => cases h; exact .sendLow .dmb v s
  | wrDDirq v => cases h; exact .requestHostIrq v s
  | unknownD w lo v => cases h; exact .unknownAccess .dsp w _ s
  | unknownH w lo v => cases h; exact .unknownAccess .host w _ s
  | wreg r v => cases h; exact .writeReg r v s
  | clr | add | addr | addax | addp | addi | addis | sub | subr | subax | subp | inc | dec | incm | decm | neg | abs | mov
  | movr | movax | movp | movnp | andr | orr | xorr | andc | orc | xorc | andi | ori | xori | not | lsl | lsr | asl | asr
  | lsl16 | lsr16 | asr16 => cases h; exact (KeepsStores.setAcc _ _ s).trans (.setSr _ _)
  | mulac | mulmv => cases h; exact ((KeepsStores.setAcc _ _ s).trans (.setSr _ _)).trans (.setProd _ _)
  | _ => cases h; exact .of_same rfl (fun _ => rfl) rfl rfl

end Stores

section Invariant

variable {s t u : State}

/-! ### What the operations of a core instruction leave alone -/

/-- The fields no operation of a core instruction touches: those of `ExecFrame` but for the stacks and the core's own
registers. -/
def OpFrame (s t : State) : Prop :=
  t = { s with
        alu := t.alu, callStack := t.callStack, dataStack := t.dataStack, coreFile := t.coreFile
        cmb := t.cmb, dmb := t.dmb, dma := t.dma, accel := t.accel, hostIrqCount := t.hostIrqCount
        fault := t.fault, log := t.log, iram := t.iram, dram := t.dram, main := t.main
        coreData := t.coreData, hostData := t.hostData }

theorem ExecFrame.opFrame (h : ExecFrame s t) : OpFrame s t := by
  unfold ExecFrame at h
  unfold OpFrame
  rw [h]

theorem OpFrame.trans (h1 : OpFrame s t) (h2 : OpFrame t u) : OpFrame s u := by
  unfold OpFrame at *
  refine h2.trans ?_
  rw [h1]

theorem OpFrame.pc (h : OpFrame s t) : t.pc = s.pc := by rw [h]

theorem OpFrame.resetLine (h : OpFrame s t) : t.resetLine = s.resetLine := by rw [h]

theorem exec_frame {i : Instr} (h : exec i s = .next t) : ExecFrame s t := by
  obtain ⟨t', ht', hframe, -⟩ := exec_next i s
  rw [h] at ht'
  cases ht'
  exact hframe

theorem coreOp_opFrame {op : CoreOp} (h : s.coreOp op = .next t) : OpFrame s t := by
  rcases coreOp_next h with ⟨f, rfl⟩ | ⟨x, rfl⟩ | ⟨k, v, -, rfl⟩ | ⟨i, -, he⟩ | ⟨st, v, -, rfl⟩ | ⟨st, v, l, -, rfl⟩ |
    ⟨f, rfl⟩
  · rfl
  · rfl
  · rfl
  · exact (exec_frame he).opFrame
  · cases st <;> rfl
  · cases st <;> rfl
  · rfl

theorem opsGive_opFrame {ops : List CoreOp} (h : OpsGive ops s u) : OpFrame s u := by
  induction ops generalizing s with
  | nil => cases h; rfl
  | cons op rest ih =>
    obtain ⟨t, ht, -, hrest⟩ := h
    exact (coreOp_opFrame ht).trans (ih hrest)

/-! ### The parts of the invariant -/

theorem KeepsStores.memWf_memBounded (h : KeepsStores s t) (hs : s.Inv) : t.memWf = true ∧ t.memBounded = true := by
  obtain ⟨hregions, himages⟩ := (memWf_memBounded_iff s).1 ⟨hs.memWf, hs.memBounded⟩
  rw [memWf_memBounded_iff, h.cfg]
  exact ⟨fun r => h.regions r (hregions r), himages⟩

theorem countsWithin_iff (s : State) :
    s.countsWithin = true ↔
      s.intCount ≤ s.cfg.intDelay ∧ s.srCount ≤ s.cfg.softResetDelay ∧ (s.intPending = false → s.intCount = 0) ∧
        (s.srPending = false → s.srCount = 0) := by
  unfold State.countsWithin
  cases s.intPending <;> cases s.srPending <;> simp [and_assoc]

/-- With the reset line low the core may stand anywhere. -/
theorem heldAtEntry_of_low (h : s.resetLine = false) : s.heldAtEntry = true := by simp [State.heldAtEntry, h]

theorem Ticked_le (b : Bool) (n : Nat) : Ticked b n ≤ n := by
  unfold Ticked
  split <;> omega

/-! ### The invariant under each move of the machine -/

/-- The end of every core step (60_exceptions.md R380). -/
theorem State.Inv.tick (h : s.Inv) : s.tick.Inv := by
  obtain ⟨hint, hsr, hintZero, hsrZero⟩ := (countsWithin_iff s).1 h.countsWithin
  rw [tick_eq]
  refine { h with countsWithin := (countsWithin_iff _).2 ⟨?_, ?_, fun hp => ?_, fun hp => ?_⟩ }
  · exact (Ticked_le _ _).trans hint
  · exact (Ticked_le _ _).trans hsr
  · exact Nat.le_zero.1 ((Ticked_le _ _).trans_eq (hintZero hp))
  · exact Nat.le_zero.1 ((Ticked_le _ _).trans_eq (hsrZero hp))

theorem State.Inv.of_execFrame (h : s.Inv) (hstores : KeepsStores s t) (hframe : ExecFrame s t) : t.Inv where
  memWf := (hstores.memWf_memBounded h).1
  memBounded := (hstores.memWf_memBounded h).2
  callWithin := by rw [hframe]; exact h.callWithin
  dataWithin := by rw [hframe]; exact h.dataWithin
  vectorLegal := hstores.vector h.vectorLegal
  countsWithin := by rw [hframe]; exact h.countsWithin
  heldAtEntry := by rw [hframe]; exact h.heldAtEntry

theorem State.Inv.exec {i : Instr} (h : s.Inv) (he : exec i s = .next t) : t.Inv :=
  h.of_execFrame (exec_keepsStores i he) (exec_frame he)

theorem State.Inv.storeDram {k : Nat} (h : s.Inv) (hk : k < 4096) (v : BitVec 16) :
    State.Inv { s with dram := s.dram.writeHalf (2 * k) v } := by
  refine h.of_execFrame ⟨rfl, fun r hr => ?_, id⟩ rfl
  cases r with
  | dram => exact ⟨Memory.writeHalf_wf hr.1 _ _, Memory.writeHalf_below hr.2 (by change _ < 8192; omega) _⟩
  | iram | irom | drom | main => exact hr

/-- A stack of a core that is not held in reset may change, within `stackDepth` (10_state.md R23). -/
theorem State.Inv.setStack {l : List (BitVec 16)} (h : s.Inv) (hlow : s.resetLine = false) (st : StackId)
    (hl : stackWithin s.cfg l = true) : (s.setStack st l).Inv := by
  cases st with
  | call => exact { h with callWithin := hl, heldAtEntry := heldAtEntry_of_low hlow }
  | data => exact { h with dataWithin := hl, heldAtEntry := heldAtEntry_of_low hlow }

theorem State.Inv.stackWithin (h : s.Inv) (st : StackId) : stackWithin s.cfg (s.stack st) = true := by
  cases st with
  | call => exact h.callWithin
  | data => exact h.dataWithin

theorem State.Inv.coreOp {op : CoreOp} (h : s.Inv) (hlow : s.resetLine = false) (hop : s.coreOp op = .next t) :
    t.Inv := by
  rcases coreOp_next hop with ⟨f, rfl⟩ | ⟨x, rfl⟩ | ⟨k, v, hk, rfl⟩ | ⟨i, -, he⟩ | ⟨st, v, hroom, rfl⟩ |
    ⟨st, v, l, hl, rfl⟩ | ⟨f, rfl⟩
  · exact { h with }
  · exact { h with }
  · exact h.storeDram hk v
  · exact h.exec he
  · exact h.setStack hlow st (stackWithin_cons hroom)
  · have hpop := h.setStack hlow st (stackWithin_tail (hl ▸ h.stackWithin st))
    exact { hpop with }
  · exact { h with heldAtEntry := heldAtEntry_of_low hlow }

theorem State.Inv.opsGive {ops : List CoreOp} (h : s.Inv) (hlow : s.resetLine = false) (hops : OpsGive ops s u) :
    u.Inv := by
  induction ops generalizing s with
  | nil => cases hops; exact h
  | cons op rest ih =>
    obtain ⟨t, ht, -, hrest⟩ := hops
    exact ih (h.coreOp hlow ht) ((coreOp_opFrame ht).resetLine.trans hlow) hrest

/-- The end of an instruction, a return from an exception among them, which pops both stacks (60_exceptions.md R379). -/
theorem State.Inv.flow (h : s.Inv) (hlow : s.resetLine = false) (c : CoreInstr) : (s.flow c).Inv := by
  rcases flow_cases c s with ⟨p, hp⟩ | ⟨p, hp⟩ | ⟨sr, ds, pc, cs, hd, hc, hp⟩ | ⟨f, hp⟩ <;> rw [hp]
  · exact { h with heldAtEntry := heldAtEntry_of_low hlow }
  · exact { h with heldAtEntry := heldAtEntry_of_low hlow }
  · exact { h with
            callWithin := stackWithin_tail (hc ▸ h.callWithin)
            dataWithin := stackWithin_tail (hd ▸ h.dataWithin)
            heldAtEntry := heldAtEntry_of_low hlow }
  · exact { h with }

/-- A due soft reset (R386). -/
theorem State.Inv.softReset (h : s.Inv) (hlow : s.resetLine = false) (hdue : SoftResetDue s) : s.softReset.Inv := by
  obtain ⟨hint, hsr, hintZero, -⟩ := (countsWithin_iff s).1 h.countsWithin
  exact { h with
          countsWithin := (countsWithin_iff _).2 ⟨hint, hsr, hintZero, fun _ => hdue.2⟩
          heldAtEntry := heldAtEntry_of_low hlow }

/-- An external interrupt is admitted only when it is due (R380). -/
theorem interruptDue_of_admitted {id : BitVec 3} (h : s.admitted = some (.interrupt, id)) : InterruptDue s := by
  unfold State.admitted at h
  split at h
  · split at h
    next hlower => exact (interruptAdmitted_iff s).1 (Bool.and_eq_true_iff.1 hlower).1
    next => cases h
  · split at h
    next hi => exact (interruptAdmitted_iff s).1 hi
    next => cases h

/-- Exception entry without a fault: both stacks had room, and the source cleared had a count of 0 (R381). -/
theorem State.Inv.takeException {src : ExcSource} {id : BitVec 3} (h : s.Inv) (hlow : s.resetLine = false)
    (hadmitted : s.admitted = some (src, id)) (hf : (s.takeException src id).fault = none) :
    (s.takeException src id).Inv := by
  by_cases hroom : HasRoom s.cfg s.callStack ∧ HasRoom s.cfg s.dataStack
  · obtain ⟨hcall, hdata⟩ := hroom
    rw [takeException_ok hcall hdata]
    cases src with
    | overflow =>
      exact { h with
              callWithin := stackWithin_cons hcall
              dataWithin := stackWithin_cons hdata
              vectorLegal := (vectorLegal_iff _).2 nofun
              heldAtEntry := heldAtEntry_of_low hlow }
    | interrupt =>
      obtain ⟨hint, hsr, -, hsrZero⟩ := (countsWithin_iff s).1 h.countsWithin
      obtain ⟨-, hzero, -⟩ := interruptDue_of_admitted hadmitted
      exact { h with
              callWithin := stackWithin_cons hcall
              dataWithin := stackWithin_cons hdata
              countsWithin := (countsWithin_iff _).2 ⟨hint, hsr, fun _ => hzero, hsrZero⟩
              heldAtEntry := heldAtEntry_of_low hlow }
  · rw [takeException_full (not_and_or.1 hroom)] at hf
    cases hf

/-- A core held by a line or by HALT has no step (10_state.md R44). -/
theorem coreStep_held (h : s.coreHeld = true) : s.coreStep = .next s := by rw [State.coreStep, if_pos h]

theorem State.Inv.coreStep (h : s.Inv) (hf : s.fault = none) (hstep : s.coreStep = .next t) : t.Inv := by
  cases hlow : s.resetLine with
  | true =>
    rw [coreStep_held (by simp [State.coreHeld, hlow])] at hstep
    cases hstep
    exact h
  | false =>
    rcases coreStep_next hf hstep with rfl | ⟨f, rfl⟩ | ⟨hdue, rfl⟩ | ⟨src, id, hadmitted, hnone, rfl⟩ |
      ⟨c, more, ws, u, -, -, hops, -, rfl⟩
    · exact h
    · exact { h with }
    · exact (h.softReset hlow hdue).tick
    · exact (h.takeException hlow hadmitted hnone).tick
    · have hend := ((h.opsGive hlow hops).flow ((opsGive_opFrame hops).resetLine.trans hlow) c).tick
      exact { hend with }

theorem stackWithin_nil (c : Config) : stackWithin c [] = true := by
  unfold stackWithin
  cases c.stackDepth <;> simp

/-- The hard reset: the RAMs hold their reset images, and the core stands at its entry point (70_reset_and_hazards.md
R410, R412). -/
theorem State.Inv.assertReset (h : s.Inv) : (s.hostInput .assertReset).Inv := by
  obtain ⟨hregions, hiram, hdram⟩ := (memWf_memBounded_iff s).1 ⟨h.memWf, h.memBounded⟩
  have hmem := (memWf_memBounded_iff (s.hostInput .assertReset)).2 ⟨fun r => ?_, hiram, hdram⟩
  · exact { memWf := hmem.1
            memBounded := hmem.2
            callWithin := stackWithin_nil s.cfg
            dataWithin := stackWithin_nil s.cfg
            vectorLegal := (vectorLegal_iff _).2 nofun
            countsWithin := (countsWithin_iff _).2 ⟨Nat.zero_le _, Nat.zero_le _, fun _ => rfl, fun _ => rfl⟩
            heldAtEntry := rfl }
  · cases r with
    | iram => exact hiram
    | dram => exact hdram
    | irom | drom | main => exact hregions _

/-- A host control input: a first request starts its count at the delay (R383, R385), and the reset line that goes low
leaves the core free to stand anywhere. -/
theorem State.Inv.hostInput (h : s.Inv) (c : HostInput) : (s.hostInput c).Inv := by
  obtain ⟨hint, hsr, hintZero, hsrZero⟩ := (countsWithin_iff s).1 h.countsWithin
  cases c with
  | assertInterrupt =>
    by_cases hp : s.intPending = true
    · rwa [State.hostInput, if_pos hp]
    · rw [State.hostInput, if_neg hp]
      exact { h with countsWithin := (countsWithin_iff _).2 ⟨Nat.le_refl _, hsr, nofun, hsrZero⟩ }
  | requestSoftReset =>
    by_cases hp : s.srPending = true
    · rwa [State.hostInput, if_pos hp]
    · rw [State.hostInput, if_neg hp]
      exact { h with countsWithin := (countsWithin_iff _).2 ⟨hint, Nat.le_refl _, hintZero, nofun⟩ }
  | assertReset => exact h.assertReset
  | deassertReset => exact { h with heldAtEntry := heldAtEntry_of_low rfl }
  | assertHalt | deassertHalt => exact { h with }

theorem State.Inv.runEvent {e : Event} (h : s.Inv) (hf : s.fault = none) (hstep : s.runEvent e = .next t) : t.Inv := by
  cases e with
  | core => exact h.coreStep hf hstep
  | hostTxn w v =>
    obtain ⟨i, -, -, he⟩ := issueWord_next hstep
    exact h.exec he
  | hostInput c => cases hstep; exact h.hostInput c

/-- A next state of a machine without a fault: it stands still with no event to come, or is what the next event gives, that
event taken from the schedule unless it raised a fault. -/
theorem step_next (hf : s.fault = none) (h : step s = .next t) :
    t = s ∨ ∃ e rest u,
      s.schedule = e :: rest ∧ s.runEvent e = .next u ∧ (t = u ∨ t = { u with schedule := rest }) := by
  have hrun : step s = s.runSchedule := by simp only [step, State.runStep, hf]
  rw [hrun, State.runSchedule] at h
  split at h
  next => cases h; exact .inl rfl
  next e rest hs =>
    rcases andNext_next h with ⟨f, he, -⟩ | ⟨u, he, -, hu⟩
    · exact .inr ⟨e, rest, t, hs, he, .inl rfl⟩
    · cases hu; exact .inr ⟨e, rest, u, hs, he, .inr rfl⟩

end Invariant

/-- Settles O59: each event keeps the invariant, and so does the hard reset that a faulted state's next step is. -/
theorem stepKeepsInvariant : Obligations.StepKeepsInvariant := by
  unfold Obligations.StepKeepsInvariant
  intro s t h hstep
  cases hf : s.fault with
  | none =>
    rcases step_next hf hstep with rfl | ⟨e, rest, u, -, he, rfl | rfl⟩
    · exact h
    · exact h.runEvent hf he
    · exact { h.runEvent hf he with }
  | some f =>
    obtain ⟨rest, -, rfl⟩ := step_faulted_next hf hstep
    exact { h.assertReset with }

end Sys2Proof.Machine
end

section
/-! PROOFS. State (10_state.md R22, R23, R28, R35, R36, R44): SR's control bits, the product register, the condition codes, the
core's turn, the end of an instruction and the stacks. -/

namespace Sys2Proof.Machine

open Sys2Proof.Claim

/-! ### SR bits 15:8 (10_state.md R35) -/

/-- Bits 15:8 are as before. -/
def KeepsControl (old new : BitVec 16) : Prop := ∀ n, 8 ≤ n → new.getLsbD n = old.getLsbD n

theorem KeepsControl.of_eq {old new : BitVec 16} (h : new = old) : KeepsControl old new := fun n _ => by rw [h]

theorem KeepsControl.srPut_bitTest (sr : BitVec 16) (b : Bool) : KeepsControl sr (srPut sr .bitTest b) := fun n hn => by
  have h6 : n ≠ Flag.bitTest.bit := by change n ≠ 6; omega
  rw [srPut_bit, if_neg h6]

theorem KeepsControl.flags40 (sr : BitVec 16) (v : Acc) (c o : Bool) : KeepsControl sr (flags40 sr v c o) := by
  obtain ⟨-, -, -, -, -, -, -, -, hmodes⟩ := flags40_spec sr v c o
  exact hmodes

theorem KeepsControl.flags16 (sr w : BitVec 16) (as32 : Bool) : KeepsControl sr (flags16 sr w as32) := by
  obtain ⟨-, -, -, -, -, -, -, -, hmodes⟩ := flags16_spec sr w as32
  exact hmodes

/-- WREG writes SR only by its name (43_alu_regs_modes.md R245). -/
theorem writeReg_sr {r : Reg} (hr : r ≠ .sr) (v : BitVec 16) (s : State) : (s.writeReg r v).alu.sr = s.alu.sr := by
  cases r with
  | sr => exact absurd rfl hr
  | acH d => exact State.setAcc_sr d _ s
  | acL d => exact State.setAcc_sr d _ s
  | acM d =>
    rw [State.writeReg]
    split <;> exact State.setAcc_sr d _ s
  | axL x => exact State.setAx_sr x _ s
  | axH x => exact State.setAx_sr x _ s
  | prodL | prodM1 | prodH | prodM2 => rfl

/-- A command's word is no transaction word: a transaction word has op 0 (30_encoding.md R111). -/
theorem encode_ne_txnWord {m : IfxMap} {w : Word} {v : BitVec 16} {i : Instr} (h : decode m w v = some i)
    (hop : w.toNat / 2 ^ 24 ≠ 0) (p : Port) (d : Dir) (a : BitVec 16) : (encode m i).word ≠ txnWord p d a := by
  obtain ⟨-, hw⟩ := encodeInvertsDecode m w v i h
  rw [hw]
  rintro rfl
  refine hop ?_
  rw [← op_toNat, Fields.ofWord, txnWord_op]
  rfl

/-- Settles O22: a command writes SR by flags40, by flags16, by the LZ bit, or not at all. -/
theorem aluKeepsControlBits : Obligations.AluKeepsControlBits := by
  unfold Obligations.AluKeepsControlBits
  intro m s t w v i hdecode hop hmode hwholeSr hexec
  change KeepsControl s.alu.sr t.alu.sr
  have hcommand := encode_ne_txnWord hdecode hop
  cases i with
  | clr | add | addr | addax | addp | addi | addis | sub | subr | subax | subp | inc | dec | incm | decm | neg | abs | cmp
  | cmpi | tst | mov | movr | movax | movp | movnp | lsl | lsr | asl | asr | lsl16 | lsr16 | asr16 | mulac | mulmv
  | tstprod => cases hexec; exact .flags40 _ _ _ _
  | tstaxh | andr | orr | xorr | andc | orc | xorc | andi | ori | xori | not => cases hexec; exact .flags16 _ _ _
  | andf | andcf => cases hexec; exact .srPut_bitTest _ _
  | mul | mulx | mulc | madd | msub | maddx | msubx | maddc | msubc | clrp | rreg => cases hexec; exact .of_eq rfl
  | wreg r u =>
    cases hexec
    exact .of_eq (writeReg_sr (fun hr => hwholeSr u (by rw [hr])) u s)
  | set15 | clr15 | set40 | clr40 | m2 | m0 => exact (hmode (by simp)).elim
  | _ => exact (hcommand _ _ _ rfl).elim

/-! ### The product register (R28) -/

/-- Settles O15: each command is one `storeProd` of the product the statement names. -/
theorem productsStored : Obligations.ProductsStored := by
  unfold Obligations.ProductsStored
  intro s
  refine ⟨fun x => ?_, fun h0 h1 => ?_, fun d x => ?_⟩
  · rw [← mulAx_eq, ← prod_toInt]
    exact ⟨storeProd_stores _ s, storeProd_stores _ s, storeProd_stores _ s⟩
  · rw [← mulX_eq, ← prod_toInt]
    exact ⟨storeProd_stores _ s, storeProd_stores _ s, storeProd_stores _ s⟩
  · rw [← mulC_eq, ← prod_toInt]
    exact ⟨storeProd_stores _ s, storeProd_stores _ s, storeProd_stores _ s⟩

/-! ### The condition codes (R36) -/

/-- Settles O23: the table row by row; row 0xB is the negation of row 0xA. -/
theorem conditionCodes : Obligations.ConditionCodes := by
  unfold Obligations.ConditionCodes
  rintro sr c o z s as32 tt lz rfl rfl rfl rfl rfl rfl rfl
  have hA : condHolds 0xA sr = true ↔
      (sr.getLsbD 4 = true ∨ sr.getLsbD 5 = true) ∧ sr.getLsbD 2 = false := by
    simp [condHolds, srGet, Flag.bit]
  have hB : condHolds 0xB sr = !condHolds 0xA sr := rfl
  have hNotA : condHolds 0xB sr = true ↔ ¬condHolds 0xA sr = true := by rw [hB, Bool.not_eq_true', Bool.not_eq_true]
  refine ⟨?_, ?_, ?_, ?_, ?_, ?_, ?_, ?_, ?_, ?_, hA, hNotA.trans (not_congr hA), ?_, ?_, ?_, rfl⟩
  all_goals simp [condHolds, srGet, Flag.bit]

/-! ### The end of an instruction (R22, R36) -/

theorem coreHeld_iff (s : State) : s.coreHeld = true ↔ s.resetLine = true ∨ s.haltLine = true ∨ s.halted = true := by
  simp only [State.coreHeld, Bool.or_eq_true, or_assoc]

/-- The step of a machine without a fault is its next event, taken from the schedule. -/
theorem step_event {s : State} {e : Event} {rest : List Event} (hf : s.fault = none) (hs : s.schedule = e :: rest) :
    step s = andNext (s.runEvent e) (fun t => .next { t with schedule := rest }) := by
  simp only [step, State.runStep, hf, State.runSchedule, hs]

/-- Settles O56: the core's turn is an event that gives the state itself. -/
theorem heldCoreStands : Obligations.HeldCoreStands := by
  unfold Obligations.HeldCoreStands
  intro s rest hf hs hheld
  rw [step_event hf hs, State.runEvent, coreStep_held ((coreHeld_iff s).2 hheld), andNext_ok hf]

/-- The pc past an instruction of length `len` (10_state.md R22). -/
theorem add_slots (pc : BitVec 16) (len : InstrLen) :
    pc + len.slots = BitVec.ofNat 16 (pc.toNat + if len = .two then 2 else 1) := by
  apply BitVec.eq_of_toNat_eq
  cases len <;> rw [BitVec.toNat_add, BitVec.toNat_ofNat] <;> rfl

/-- Settles O46: the operations leave the pc alone, so the end of the instruction finds it where it stood. -/
theorem instructionEnds : Obligations.InstructionEnds := by
  unfold Obligations.InstructionEnds
  intro s u c more rest hnext hops
  have hu : u.fault = none := ((coreOps_iff hnext.1.1).2 hops).2
  have hpc : u.pc + c.len.slots = advanced s c.len := by rw [(opsGive_opFrame hops).pc, advanced_eq]
  have hends : ∀ {v : State}, u.flow c = v → v.fault = none → step s = .next (Finished s v c.len more rest) := by
    rintro v rfl hv
    exact step_finishes hnext hops hv
  refine ⟨fun hflow => ?_, fun cc target hflow => ?_, fun cc nextLen hflow => ?_, fun hflow => ?_⟩
  · exact hends (by rw [State.flow, hflow, ← hpc]) hu
  · split
    next hcc => exact hends (by simp only [State.flow, hflow, if_pos hcc]) hu
    next hcc => exact hends (by simp only [State.flow, hflow, if_neg hcc, hpc]) hu
  · split
    next hcc => exact hends (by simp only [State.flow, hflow, if_pos hcc, hpc]) hu
    next hcc => exact hends (by simp only [State.flow, hflow, if_neg hcc, hpc, add_slots]) hu
  · exact hends (by rw [State.flow, hflow, ← hpc]) hu

/-! ### The stacks (R23) -/

/-- The one operation of an instruction that leaves the pc to advance. -/
theorem step_oneOp {s t : State} {op : CoreOp} {len : InstrLen} {more : List CoreInstr} {rest : List Event}
    (h : NextInstr s (oneOp op len) more rest) (hop : s.coreOp op = .next t) (ht : t.fault = none) :
    step s = .next (Advanced s t len more rest) :=
  (instructionEnds s t (oneOp op len) more rest h ⟨t, hop, ht, rfl⟩).1 rfl

/-- The one operation of an instruction, and its fault (60_exceptions.md R373). -/
theorem step_oneOp_faults {s : State} {op : CoreOp} {len : InstrLen} {more : List CoreInstr} {rest : List Event}
    {f : Fault} (h : NextInstr s (oneOp op len) more rest) (hop : s.coreOp op = .next (s.raise f)) :
    Faults f s (step s) :=
  step_opFaults (pre := []) (post := []) h rfl rfl hop rfl

theorem coreOp_push {s : State} {st : StackId} (v : CoreVal) (h : HasRoom s.cfg (s.stack st)) :
    s.coreOp (.push st v) = .next (s.setStack st (s.coreVal v :: s.stack st)) := by
  rw [State.coreOp, push_ok h]
  rfl

theorem coreOp_push_full {s : State} {st : StackId} (v : CoreVal) (h : ¬HasRoom s.cfg (s.stack st)) :
    s.coreOp (.push st v) = .next (s.raise .stackOverflow) := by
  rw [State.coreOp, push_full h]
  rfl

theorem coreOp_pop {s : State} {st : StackId} {top : BitVec 16} {below : List (BitVec 16)}
    (h : s.stack st = top :: below) : s.coreOp (.pop st) = .next ((s.setStack st below).toCore top) := by
  rw [State.coreOp, pop_cons h]

theorem coreOp_pop_empty {s : State} {st : StackId} (h : s.stack st = []) :
    s.coreOp (.pop st) = .next (s.raise .stackUnderflow) := by
  rw [State.coreOp, pop_nil h]

theorem stack_setStack_ne {st q : StackId} (h : q ≠ st) (l : List (BitVec 16)) (s : State) :
    (s.setStack st l).stack q = s.stack q := by
  cases st with
  | call => cases q with
    | call => exact absurd rfl h
    | data => rfl
  | data => cases q with
    | call => rfl
    | data => exact absurd rfl h

theorem stack_advanced (q : StackId) (s t : State) (len : InstrLen) (more : List CoreInstr) (rest : List Event) :
    (Advanced s t len more rest).stack q = t.stack q := by
  cases q <;> rfl

theorem setStack_sameBytes (st : StackId) (l : List (BitVec 16)) (s : State) : SameBytes s (s.setStack st l) := by
  cases st <;> exact sameBytes_of_mems rfl rfl rfl rfl rfl

/-- Settles O47: each instruction is its one operation, which leaves its stack as the operation's lemma says. -/
theorem stacksLifo : Obligations.StacksLifo := by
  unfold Obligations.StacksLifo
  intro s st v len more rest
  refine ⟨fun hpush => ⟨fun hroom => ?_, fun hfull => ?_⟩, fun hpop => ⟨fun top below hstack => ?_, fun hempty => ?_⟩⟩
  · refine ⟨_, step_oneOp hpush (coreOp_push v hroom) ?_, ?_, ?_, fun q hq => ?_, setStack_sameBytes st _ s⟩
    · cases st <;> exact hpush.1.1
    · rw [stack_advanced, State.stack_setStack]
    · cases st <;> rfl
    · rw [stack_advanced, stack_setStack_ne hq]
  · exact step_oneOp_faults hpush (coreOp_push_full v hfull)
  · refine ⟨_, step_oneOp hpop (coreOp_pop hstack) ?_, ?_, rfl, ?_, fun q hq => ?_, setStack_sameBytes st _ s⟩
    · cases st <;> exact hpop.1.1
    · rw [stack_advanced]; exact State.stack_setStack st below s
    · cases st <;> rfl
    · rw [stack_advanced]; exact stack_setStack_ne hq below s
  · exact step_oneOp_faults hpop (coreOp_pop_empty hempty)

end Sys2Proof.Machine
end

section
/-! PROOFS. Memory (20_memory.md R71 to R77, R82, R85, R86): the core's data accesses and its moves between memory and the
ALU registers, the instruction fetch, the step of a decoded word, and what no step changes. -/

namespace Sys2Proof.Machine

open Sys2Proof.Claim

section Instructions

variable {s t u : State} {op : CoreOp} {pre : List CoreOp} {len : InstrLen} {more : List CoreInstr} {rest : List Event}

/-! ### The step of one instruction (R85, R86; 60_exceptions.md R373) -/

theorem nextInstr_fault {c : CoreInstr} (h : NextInstr s c more rest) : s.fault = none := by
  obtain ⟨⟨hs, -⟩, -⟩ := h
  exact hs

theorem opsGive_fault (hs : s.fault = none) (h : OpsGive pre s u) : u.fault = none := by
  obtain ⟨-, hu⟩ := (coreOps_iff hs).2 h
  exact hu

theorem exec_law {i : Instr} (h : exec i s = .next t) : ExecLaw s t := by
  obtain ⟨t', ht', hlaw⟩ := exec_next i s
  rw [h] at ht'
  cases ht'
  exact hlaw

/-- An instruction from a state without a fault raises one from that state, or none. -/
theorem exec_clean {i : Instr} (hs : s.fault = none) (h : exec i s = .next t) : t.fault = none ∨ ∃ f, t = s.raise f := by
  obtain ⟨-, hfault, -⟩ := exec_law h
  rwa [hs] at hfault

theorem opsGive_snoc (hs : s.fault = none) (hpre : OpsGive pre s u) (hop : u.coreOp op = .next t)
    (ht : t.fault = none) : OpsGive (pre ++ [op]) s t := by
  induction pre generalizing s with
  | nil => cases hpre; exact ⟨t, hop, ht, rfl⟩
  | cons p pre ih =>
    obtain ⟨v, hv, hclean, hrest⟩ := hpre
    exact ⟨v, hv, hclean, ih hclean hrest⟩

/-- An instruction whose last operation is reached: it ends there, or that operation's fault undoes it. -/
theorem step_lastOp (h : NextInstr s (allOps (pre ++ [op]) len) more rest) (hpre : OpsGive pre s u)
    (hop : u.coreOp op = .next t) :
    step s = .next (if t.fault = none then Advanced s t len more rest else { s with fault := t.fault }) := by
  cases ht : t.fault with
  | none =>
    rw [if_pos rfl]
    exact (instructionEnds s t _ more rest h (opsGive_snoc (nextInstr_fault h) hpre hop ht)).1 rfl
  | some f => exact step_opFaults (post := []) h rfl hpre hop ht

/-- The one operation that runs one instruction of the engine. -/
theorem step_oneOp_exec {i : Instr} (h : NextInstr s (oneOp op len) more rest) (hop : s.coreOp op = exec i s) :
    ∃ t, exec i s = .next t ∧ step s = .next (if t.fault = none then Advanced s t len more rest else t) := by
  obtain ⟨t, ht, -⟩ := exec_next i s
  refine ⟨t, ht, ?_⟩
  rw [step_lastOp (pre := []) h rfl (hop.trans ht)]
  rcases exec_clean (nextInstr_fault h) ht with hnone | ⟨f, rfl⟩
  · rw [if_pos hnone, if_pos hnone]
  · rfl

/-- The host's word that runs one instruction of the engine. -/
theorem step_host_exec {i : Instr} {w : Word} {v : BitVec 16} (hs : s.fault = none)
    (hsched : s.schedule = .hostTxn w v :: rest) (hword : s.issueWord .host w v = exec i s) :
    ∃ t, exec i s = .next t ∧ step s = .next (if t.fault = none then { t with schedule := rest } else t) := by
  obtain ⟨t, ht, -⟩ := exec_next i s
  refine ⟨t, ht, ?_⟩
  rw [step_host hs hsched, hword, ht]
  rcases exec_clean hs ht with hnone | ⟨f, rfl⟩
  · rw [andNext_ok hnone, if_pos hnone]
  · rfl

end Instructions

/-- Settles O6: the one word is the instruction's one operation, several words are its operations in their order, and the
host's word is its event. -/
theorem stepRunsDecodedWord : Obligations.StepRunsDecodedWord := by
  unfold Obligations.StepRunsDecodedWord
  intro s rest
  refine ⟨fun w v i len more hdecode hport hnext => ?_, fun c is u more hnext hflow hissues hruns => ?_,
    fun w v i hdecode hport hfault hsched => ?_⟩
  · obtain ⟨t, ht, hstep⟩ := step_oneOp_exec hnext (issueWord_eq hdecode hport)
    rw [ht]
    exact hstep
  · exact (instructionEnds s u c more rest hnext (issues_opsGive hissues hruns)).1 hflow
  · obtain ⟨t, ht, hstep⟩ := step_host_exec hfault hsched (issueWord_eq hdecode hport)
    rw [ht]
    exact hstep

/-! ### The instruction fetch (R71, R75, R82; 60_exceptions.md R380) -/

/-- With nothing due the core's step is the instruction offered. -/
theorem coreStep_runs {s : State} {c : CoreInstr} {more : List CoreInstr} {rest : List Event} (hturn : CoreTurn s rest)
    (hdue : NothingDue s) (hprog : s.program = c :: more) : s.coreStep = s.runInstr c more := by
  obtain ⟨hreset, hoverflow, hinterrupt⟩ := hdue
  rw [State.coreStep, coreHeld_turn hturn, if_neg Bool.false_ne_true,
    if_neg (fun h => hreset ((softReset_due_iff s).1 h)), admitted_none hoverflow hinterrupt]
  dsimp only
  rw [hprog]

/-- Settles O45: the fetch answers the slots or the fault, and the instruction notes what it answered. -/
theorem fetchAtBoundary : Obligations.FetchAtBoundary := by
  unfold Obligations.FetchAtBoundary
  intro s c more rest hturn hdue hprog
  have hstep : step s = andNext (s.runInstr c more) (fun t => .next { t with schedule := rest }) := by
    rw [step_core hturn, coreStep_runs hturn hdue hprog]
  refine ⟨fun hfetch => ?_, fun hfetch => ⟨fun t ht hclean => ?_, fun hc => ?_⟩⟩
  · rw [hstep, State.runInstr, fetchInstr_error hfetch]
    rfl
  · rw [hstep] at ht
    rcases andNext_next ht with ⟨f, -, hf⟩ | ⟨u, hu, hnone, hnext⟩
    · rw [hclean] at hf
      cases hf
    · cases hnext
      rcases runInstr_next hturn.1 hu with ⟨f, rfl⟩ | ⟨ws, v, hws, -, -, rfl⟩
      · cases hnone
      · rw [fetchInstr_ok hfetch] at hws
        cases hws
        exact ⟨rfl, rfl, rfl⟩
  · have hops : OpsGive c.ops s s := by rw [hc]; rfl
    exact (instructionEnds s s c more rest ⟨hturn, hdue, hprog, hfetch⟩ hops).1 (by rw [hc]; rfl)

section Persistence

variable {s t u : State}

/-! ### What no step changes (R77; 10_state.md R46) -/

/-- From `s` to `t` the ROMs and the parameters are the same and the log only grew. -/
structure Persists (s t : State) : Prop where
  irom : t.irom = s.irom
  drom : t.drom = s.drom
  cfg : t.cfg = s.cfg
  log : s.log <+: t.log

theorem Persists.of_same (hirom : t.irom = s.irom) (hdrom : t.drom = s.drom) (hcfg : t.cfg = s.cfg)
    (hlog : t.log = s.log) : Persists s t := ⟨hirom, hdrom, hcfg, by rw [hlog]⟩

theorem Persists.trans (h1 : Persists s t) (h2 : Persists t u) : Persists s u :=
  ⟨h2.irom.trans h1.irom, h2.drom.trans h1.drom, h2.cfg.trans h1.cfg, h1.log.trans h2.log⟩

theorem Persists.raise (f : Fault) (s : State) : Persists s (s.raise f) := .of_same rfl rfl rfl rfl

theorem Persists.exec {i : Instr} (h : exec i s = .next t) : Persists s t := by
  obtain ⟨hframe, -, l, hl⟩ := exec_law h
  exact ⟨by rw [hframe], by rw [hframe], by rw [hframe], l, hl.symm⟩

theorem Persists.coreOp {op : CoreOp} (h : s.coreOp op = .next t) : Persists s t := by
  rcases coreOp_next h with ⟨f, rfl⟩ | ⟨x, rfl⟩ | ⟨k, v, -, rfl⟩ | ⟨i, -, he⟩ | ⟨st, v, -, rfl⟩ | ⟨st, v, l, -, rfl⟩ |
    ⟨f, rfl⟩
  case inr.inr.inr.inl => exact .exec he
  case inr.inr.inr.inr.inl => cases st <;> exact .of_same rfl rfl rfl rfl
  case inr.inr.inr.inr.inr.inl => cases st <;> exact .of_same rfl rfl rfl rfl
  all_goals exact .of_same rfl rfl rfl rfl

theorem Persists.opsGive {ops : List CoreOp} (h : OpsGive ops s u) : Persists s u := by
  induction ops generalizing s with
  | nil => cases h; exact .of_same rfl rfl rfl rfl
  | cons op rest ih =>
    obtain ⟨t, ht, -, hrest⟩ := h
    exact (Persists.coreOp ht).trans (ih hrest)

theorem Persists.flow (c : CoreInstr) (s : State) : Persists s (s.flow c) := by
  rcases flow_cases c s with ⟨p, h⟩ | ⟨p, h⟩ | ⟨sr, ds, pc, cs, -, -, h⟩ | ⟨f, h⟩ <;> rw [h] <;>
    exact .of_same rfl rfl rfl rfl

theorem Persists.takeException (src : ExcSource) (id : BitVec 3) (s : State) : Persists s (s.takeException src id) := by
  by_cases hroom : HasRoom s.cfg s.callStack ∧ HasRoom s.cfg s.dataStack
  · obtain ⟨hcall, hdata⟩ := hroom
    rw [takeException_ok hcall hdata]
    cases src <;> exact .of_same rfl rfl rfl rfl
  · rw [takeException_full (not_and_or.1 hroom)]
    exact .raise _ s

theorem Persists.coreStep (hf : s.fault = none) (h : s.coreStep = .next t) : Persists s t := by
  rcases coreStep_next hf h with rfl | ⟨f, rfl⟩ | ⟨-, rfl⟩ | ⟨src, id, -, -, rfl⟩ | ⟨c, more, ws, u, -, -, hops, -, rfl⟩
  · exact .of_same rfl rfl rfl rfl
  · exact .raise f s
  · exact .of_same rfl rfl rfl rfl
  · exact (Persists.takeException src id s).trans (.of_same rfl rfl rfl rfl)
  · exact ((Persists.opsGive hops).trans (.flow c u)).trans (.of_same rfl rfl rfl rfl)

/-- A control input, the hard reset among them: it resets both RAMs and neither ROM (70_reset_and_hazards.md R410). -/
theorem Persists.hostInput (c : HostInput) (s : State) : Persists s (s.hostInput c) := by
  cases c with
  | assertInterrupt | requestSoftReset =>
    rw [State.hostInput]
    split <;> exact .of_same rfl rfl rfl rfl
  | assertReset | deassertReset | assertHalt | deassertHalt => exact .of_same rfl rfl rfl rfl

theorem Persists.runEvent {e : Event} (hf : s.fault = none) (h : s.runEvent e = .next t) : Persists s t := by
  cases e with
  | core => exact .coreStep hf h
  | hostTxn w v =>
    obtain ⟨i, -, -, he⟩ := issueWord_next h
    exact .exec he
  | hostInput c => cases h; exact .hostInput c s

theorem Persists.step (h : step s = .next t) : Persists s t := by
  cases hf : s.fault with
  | none =>
    rcases step_next hf h with rfl | ⟨e, rest, u, -, he, rfl | rfl⟩
    · exact .of_same rfl rfl rfl rfl
    · exact .runEvent hf he
    · exact (Persists.runEvent hf he).trans (.of_same rfl rfl rfl rfl)
  | some f =>
    obtain ⟨rest, -, rfl⟩ := step_faulted_next hf h
    exact (Persists.hostInput .assertReset s).trans (.of_same rfl rfl rfl rfl)

end Persistence

/-- Settles O60: every event persists the ROMs, the parameters and the log, and so does the reset of a faulted state. -/
theorem romsAndLogPersist : Obligations.RomsAndLogPersist := by
  unfold Obligations.RomsAndLogPersist
  intro s t h
  obtain ⟨hirom, hdrom, hcfg, l, hl⟩ := Persists.step h
  exact ⟨hirom, hdrom, hcfg, l, hl.symm⟩

section DataAccesses

variable {s u : State} {a x : BitVec 16} {pre : List CoreOp} {len : InstrLen} {more : List CoreInstr} {rest : List Event}

/-! ### The core's data accesses (R72 to R74, R76) -/

/-- A readable data address is a slot (R72), and only one of data RAM may be written (R74). -/
theorem dtrans_readable {a : Nat} (h : ReadableAddr false a) :
    ∃ r k, dtrans a = .slot r k ∧ (∀ s, slotAt s false a = s.slot r k) ∧ (¬RamAddr a → r.isRam = false) := by
  by_cases hram : a < 0x1000
  · exact ⟨.dram, a, dtrans_ram hram, fun s => if_pos hram, fun hrom => absurd hram hrom⟩
  · by_cases hdrom : a < 0x1800
    · exact ⟨.drom, a - 0x1000, dtrans_drom (by omega) hdrom,
        fun s => by rw [slotAt, if_neg hram, if_pos hdrom], fun _ => rfl⟩
    · obtain ⟨hlo, hhi⟩ : 0x8000 ≤ a ∧ a < 0x9000 := by unfold ReadableAddr at h; omega
      exact ⟨.irom, a - 0x8000, dtrans_irom hlo hhi,
        fun s => by rw [slotAt, if_neg hram, if_neg hdrom], fun _ => rfl⟩

theorem dtrans_unmapped {a : Nat} (h : ¬ReadableAddr false a) (hlow : a < 0xFF00) : dtrans a = .unmapped := by
  simp only [ReadableAddr, true_and, not_or] at h
  obtain ⟨hram, hdrom, hirom⟩ := h
  rw [dtrans, if_neg (by omega), if_neg (by omega), if_neg (by omega), if_neg (by omega)]

theorem dtrans_registers {a : Nat} (hblock : 0xFF00 ≤ a) (h : a ≤ 0xFFFF) : dtrans a = .registers := by
  rw [dtrans, if_neg (by omega), if_neg (by omega), if_neg (by omega), if_pos ⟨hblock, h⟩]

theorem dataAccess_read (h : ReadableAddr false a.toNat) (x : BitVec 16) (s : State) :
    s.dataAccess .read a x = .next (s.toCore (slotAt s false a.toNat)) := by
  obtain ⟨r, k, htrans, hslot, -⟩ := dtrans_readable h
  rw [State.dataAccess, htrans, hslot]

theorem dataAccess_write_ram (h : RamAddr a.toNat) (x : BitVec 16) (s : State) :
    s.dataAccess .write a x = .next { s with dram := s.dram.writeHalf (2 * a.toNat) x } := by
  rw [State.dataAccess, dtrans_ram h]
  rfl

theorem dataAccess_write_rom (hram : ¬RamAddr a.toNat) (h : ReadableAddr false a.toNat) (x : BitVec 16) (s : State) :
    s.dataAccess .write a x = .next (s.raise (.romWrite a)) := by
  obtain ⟨r, k, htrans, -, hrom⟩ := dtrans_readable h
  rw [State.dataAccess, htrans]
  dsimp only
  rw [State.storeSlot, hrom hram, if_neg Bool.false_ne_true]

theorem dataAccess_unmapped (h : ¬ReadableAddr false a.toNat) (hlow : a.toNat < 0xFF00) (w : Dir) (x : BitVec 16)
    (s : State) : s.dataAccess w a x = .next (s.raise (.unmappedData a w)) := by
  rw [State.dataAccess, dtrans_unmapped h hlow]

theorem port_txnInstr (p : Port) (w : Dir) (r : IfxReg) (x : BitVec 16) : (txnInstr p w r x).port = p := by
  cases p <;> cases w <;> cases r <;> rfl

theorem port_unknownInstr (p : Port) (w : Dir) (lo : BitVec 8) (x : BitVec 16) : (unknownInstr p w lo x).port = p := by
  cases p <;> rfl

/-- A transaction word of a port encodes an instruction of that port. -/
theorem port_of_decode_txnWord {m : IfxMap} {p : Port} {w : Dir} {i : Instr} (h : decode m (txnWord p w a) x = some i) :
    i.port = p := by
  rcases decode_txnWord_cases h with ⟨r, -, rfl⟩ | ⟨lo, -, -, rfl⟩
  · exact port_txnInstr p w r x
  · exact port_unknownInstr p w lo x

/-- An access of the register block is the DSP-port transaction at its address (R76). -/
theorem dataAccess_registers {w : Dir} {i : Instr} (hdecode : decode s.cfg.ifxMap (txnWord .dsp w a) x = some i) :
    s.dataAccess w a x = exec i s := by
  rw [State.dataAccess, dtrans_registers (block_of_decode_txnWord hdecode) (by have := a.isLt; omega)]
  exact issueWord_eq hdecode (port_of_decode_txnWord hdecode)

/-! ### A write as the last operation of an instruction -/

theorem dram_wf_of_memWf (h : s.memWf = true) : s.dram.wf = true := by
  simp only [State.memWf, Bool.and_eq_true] at h
  tauto

theorem readByte_advanced (q : Region) (b : Nat) : (Advanced s u len more rest).readByte q b = u.readByte q b := by
  cases q <;> rfl

/-- The slot of data RAM that a write stores, and the bytes it leaves alone (R72, R78). -/
theorem advanced_writeHalf (hmem : ∀ q, u.mem q = s.mem q) (hwf : s.dram.wf = true) {k : Nat} (hk : RamAddr k)
    (x : BitVec 16) (len : InstrLen) (more : List CoreInstr) (rest : List Event) :
    let t := Advanced s { u with dram := u.dram.writeHalf (2 * k) x } len more rest
    slotAt t false k = x ∧
      ∀ q b, ¬(q = .dram ∧ 2 * k ≤ b ∧ b ≤ 2 * k + 1) → t.readByte q b = s.readByte q b := by
  have hdram : u.dram = s.dram := hmem .dram
  refine ⟨?_, fun q b hqb => ?_⟩
  · rw [slotAt, if_pos hk]
    change (u.dram.writeHalf (2 * k) x).readHalf (2 * k) = x
    rw [hdram, Memory.readHalf_writeHalf_same hwf]
  · rw [readByte_advanced]
    by_cases hq : q = .dram
    · subst hq
      change (u.dram.writeHalf (2 * k) x).read b = s.dram.read b
      have hb : ¬(2 * k ≤ b ∧ b ≤ 2 * k + 1) := fun h => hqb ⟨rfl, h⟩
      rw [hdram, Memory.read_writeHalf_other _ _ (by omega) (by omega)]
    · exact congrArg (Memory.read · b) ((State.mem_setMem_ne hq _ u).trans (hmem q))

/-- An instruction that ends with a write below 0xFF00: the slot of data RAM alone is stored, a ROM and an address that
holds nothing fault (R72 to R74). -/
theorem step_write {v : CoreVal} (h : NextInstr s (allOps (pre ++ [.access .write a v]) len) more rest)
    (hpre : OpsGive pre s u) (hmem : ∀ q, u.mem q = s.mem q) (hwf : s.memWf = true) (hlow : a.toNat < 0xFF00) :
    if RamAddr a.toNat then
      ∃ t, step s = .next t ∧ slotAt t false a.toNat = u.coreVal v ∧
        (∀ q b, ¬(q = .dram ∧ 2 * a.toNat ≤ b ∧ b ≤ 2 * a.toNat + 1) → t.readByte q b = s.readByte q b) ∧
        t = Advanced s { u with dram := t.dram } len more rest
    else if ReadableAddr false a.toNat then Faults (.romWrite a) s (step s)
    else Faults (.unmappedData a .write) s (step s) := by
  have hu : u.fault = none := opsGive_fault (nextInstr_fault h) hpre
  split
  next hram =>
    have hstep := step_lastOp h hpre (dataAccess_write_ram hram (u.coreVal v) u)
    rw [if_pos (by exact hu)] at hstep
    obtain ⟨hslot, hframe⟩ :=
      advanced_writeHalf hmem (dram_wf_of_memWf hwf) hram (u.coreVal v) len more rest
    exact ⟨_, hstep, hslot, hframe, rfl⟩
  next hram =>
    split
    next hread => exact step_lastOp h hpre (dataAccess_write_rom hram hread (u.coreVal v) u)
    next hread => exact step_lastOp h hpre (dataAccess_unmapped hread hlow .write (u.coreVal v) u)

/-! ### The values of a load and of a store (43_alu_regs_modes.md R245, R246) -/

theorem mkAcc_toInt (h : BitVec 8) (m l : BitVec 16) :
    (mkAcc h m l).toInt = 2 ^ 16 * (2 ^ 16 * h.toInt + m.toNat) + l.toNat := by
  rw [mkAcc, BitVec.toInt_append, if_neg nofun, BitVec.toInt_append, if_neg nofun]

/-- A middle slice sign-extended into the high one, over a low one of 0. -/
theorem mkAcc_signExtend (x : BitVec 16) :
    (mkAcc (if x.getLsbD 15 then 0xFF else 0x00) x 0).toInt = x.toInt * 2 ^ 16 := by
  rw [mkAcc_toInt, BitVec.toInt_eq_msb_cond x, BitVec.msb_eq_getLsbD_last]
  cases x.getLsbD (16 - 1) with
  | true =>
    change (2 : Int) ^ 16 * (2 ^ 16 * (-1) + x.toNat) + 0 = (x.toNat - 2 ^ 16) * 2 ^ 16
    omega
  | false =>
    change (2 : Int) ^ 16 * (2 ^ 16 * 0 + x.toNat) + 0 = x.toNat * 2 ^ 16
    omega

/-- Under SXM = 1 WREG sign-extends into the accumulator. -/
theorem writeReg_acM_accVal {d : AccId} (hsxm : s.alu.sr.getLsbD 14 = true) (x : BitVec 16) :
    accVal (s.writeReg (.acM d) x) d = x.toInt * 2 ^ 16 := by
  have hget : srGet s.alu.sr .sxm = true := hsxm
  rw [State.writeReg, if_pos hget, accVal, State.acc_setAcc_same, mkAcc_signExtend]

/-- Under SXM = 1 RREG saturates an accumulator that does not fit in 32 bits. -/
theorem readReg_acM_saturated {d : AccId} (hsxm : s.alu.sr.getLsbD 14 = true) (hwide : ¬Fits32 (accVal s d)) :
    s.readReg (.acM d) = if 0 < accVal s d then 0x7FFF else 0x8000 := by
  have hget : srGet s.alu.sr .sxm = true := hsxm
  have hfits : fits32 (s.acc d) = false := Bool.eq_false_iff.2 fun h => hwide ((fits32_iff _).1 h)
  rw [State.readReg, hget, hfits]
  rfl

theorem writeReg_fault (r : Reg) (x : BitVec 16) (s : State) : (s.writeReg r x).fault = s.fault := by
  cases r with
  | acL d | acH d => exact State.setAcc_fault d _ s
  | acM d =>
    rw [State.writeReg]
    split <;> exact State.setAcc_fault d _ s
  | axL y | axH y => exact State.setAx_fault y _ s
  | prodL | prodM1 | prodH | prodM2 | sr => rfl

/-! ### The moves (R251; 30_encoding.md R108) -/

/-- An instruction that ends with WREG of a value it has. -/
theorem step_writeReg {r : Reg} {v : CoreVal} (h : NextInstr s (allOps (pre ++ [.writeReg r v]) len) more rest)
    (hpre : OpsGive pre s u) : step s = .next (Advanced s (u.writeReg r (u.coreVal v)) len more rest) := by
  have hu : u.fault = none := opsGive_fault (nextInstr_fault h) hpre
  have hclean : (u.writeReg r (u.coreVal v)).fault = none := (writeReg_fault r _ u).trans hu
  rw [step_lastOp h hpre rfl, if_pos hclean]

theorem loadsRegister {r : Reg} (h : NextInstr s (allOps (loadOps r a) len) more rest) :
    LoadsRegister r a s len more rest := by
  have hs := nextInstr_fault h
  unfold LoadsRegister
  split
  next hlow =>
    split
    next hread =>
      refine ⟨_, rfl, ?_, ?_⟩
      · exact step_writeReg (pre := [.access .read a (.given 0)]) h ⟨_, dataAccess_read hread 0 s, hs, rfl⟩
      · rintro d rfl hsxm
        exact writeReg_acM_accVal (s := s.toCore (slotAt s false a.toNat)) hsxm _
    next hread => exact step_opFaults (pre := []) h rfl rfl (dataAccess_unmapped hread hlow .read 0 s) rfl
  next hhigh =>
    intro i hdecode
    obtain ⟨t, ht, -⟩ := exec_next i s
    have hop : s.coreOp (.access .read a (.given 0)) = .next t := (dataAccess_registers hdecode).trans ht
    refine ⟨t, ht, ?_⟩
    rcases exec_clean hs ht with hnone | ⟨f, rfl⟩
    · rw [if_pos hnone]
      exact ⟨_, rfl, step_writeReg (pre := [.access .read a (.given 0)]) h ⟨t, hop, hnone, rfl⟩⟩
    · exact step_opFaults (pre := []) h rfl rfl hop rfl

theorem storesRegister {r : Reg} (hwf : s.memWf = true) (h : NextInstr s (allOps (storeOps r a) len) more rest) :
    StoresRegister r a s len more rest := by
  have hs := nextInstr_fault h
  have hpre : OpsGive [.readReg r] s (s.toCore (s.readReg r)) := ⟨_, rfl, hs, rfl⟩
  refine ⟨s.toCore (s.readReg r), rfl, ?_, ?_⟩
  · rintro d rfl hsxm hwide
    exact readReg_acM_saturated hsxm hwide
  · split
    next hlow => exact step_write (pre := [.readReg r]) h hpre (fun q => by cases q <;> rfl) hwf hlow
    next hhigh =>
      intro i hdecode
      obtain ⟨t, ht, -⟩ := exec_next i (s.toCore (s.readReg r))
      have haccess := dataAccess_registers (s := s.toCore (s.readReg r)) hdecode
      exact ⟨t, ht, step_lastOp (pre := [.readReg r]) h hpre (haccess.trans ht)⟩

end DataAccesses

/-- Settles O44: each kind of access is what the map gives for its address, and a move is its two operations in turn. -/
theorem coreDataAccess : Obligations.CoreDataAccess := by
  unfold Obligations.CoreDataAccess
  intro s a v len more rest
  refine ⟨fun hlow hnext => ?_, fun hlow hwf hnext => step_write (pre := []) hnext rfl (fun _ => rfl) hwf hlow,
    fun w i hblock hnext hdecode => step_oneOp_exec hnext (dataAccess_registers hdecode),
    fun r hnext => loadsRegister hnext, fun r hwf hnext => storesRegister hwf hnext, fun dst src hnext => ?_⟩
  · split
    next hread => exact step_oneOp hnext (dataAccess_read hread _ s) (nextInstr_fault hnext)
    next hread => exact step_oneOp_faults hnext (dataAccess_unmapped hread hlow .read _ s)
  · exact ⟨_, _, rfl, rfl, step_writeReg (pre := [.readReg src]) hnext ⟨_, rfl, nextInstr_fault hnext, rfl⟩⟩

end Sys2Proof.Machine
end

section
/-! PROOFS. Encoding (30_encoding.md R102, R104 to R108): the words of every format as numbers, words written out from the
tables, and the accesses the register map denies or does not hold. -/

namespace Sys2Proof

open Sys2Proof.Machine Sys2Proof.Claim

/-! ### The formats of R107 as numbers -/

theorem append_toNat_add {m n : Nat} (a : BitVec m) (b : BitVec n) :
    (a ++ b).toNat = a.toNat * 2 ^ n + b.toNat := by
  rw [BitVec.toNat_append, Nat.shiftLeft_eq, Nat.mul_comm]
  exact (Nat.two_pow_add_eq_or_of_lt b.isLt a.toNat).symm

/-- Unused high bits, which are 0, add nothing to a field's number (R109). -/
theorem zero_append_toNat {m n : Nat} (b : BitVec n) : (0#m ++ b).toNat = b.toNat := by
  rw [append_toNat_add, BitVec.toNat_ofNat, Nat.zero_mod, Nat.zero_mul, Nat.zero_add]

/-- A command word is the sum of its fields at their bit positions (R106). -/
theorem toWord_eq_sum (op : BitVec 8) (d : BitVec 1) (s : BitVec 3) (z : BitVec 4) (imm : BitVec 16) :
    (Fields.mk op d s z imm).toWord =
      BitVec.ofNat 32 (op.toNat * 2 ^ 24 + d.toNat * 2 ^ 23 + s.toNat * 2 ^ 20 + z.toNat * 2 ^ 16 + imm.toNat) := by
  have hsum : (Fields.mk op d s z imm).toWord.toNat =
      op.toNat * 2 ^ 24 + d.toNat * 2 ^ 23 + s.toNat * 2 ^ 20 + z.toNat * 2 ^ 16 + imm.toNat := by
    simp only [Fields.toWord, append_toNat_add]
    omega
  rw [← hsum, BitVec.ofNat_toNat, BitVec.setWidth_eq]

/-- The command words other than RREG's and WREG's have bits 19:16 clear (R107). -/
theorem code_word (op : BitVec 8) (d : BitVec 1) (s : BitVec 3) (imm : BitVec 16) :
    (Fields.mk op d s 0 imm).code.word = aluWord op.toNat d.toNat s.toNat imm.toNat := by
  have hz : (0 : BitVec 4).toNat = 0 := rfl
  rw [Fields.code, toWord_eq_sum, hz, Nat.zero_mul, Nat.add_zero, aluWord]

theorem codeA_word (op : BitVec 8) (d : AccId) : (codeA op d).word = aluWord op.toNat d.bit.toNat 0 0 :=
  code_word op d.bit 0 0

theorem codeAR_word (op : BitVec 8) (d : AccId) (r : AxReg) :
    (codeAR op d r).word = aluWord op.toNat d.bit.toNat r.bits.toNat 0 := by
  rw [codeAR, code_word, zero_append_toNat]
  rfl

theorem codeAX_word (op : BitVec 8) (d : AccId) (x : AxId) :
    (codeAX op d x).word = aluWord op.toNat d.bit.toNat x.bit.toNat 0 := by
  rw [codeAX, code_word, zero_append_toNat]
  rfl

theorem codeX1_word (op : BitVec 8) (x : AxId) : (codeX1 op x).word = aluWord op.toNat 0 x.bit.toNat 0 := by
  rw [codeX1, code_word, zero_append_toNat]
  rfl

/-- Format X2's selector: the half of ax0 above the half of ax1 (R107, R213). -/
theorem codeX2_word (op : BitVec 8) (h0 h1 : AxHalf) :
    (codeX2 op h0 h1).word = aluWord op.toNat 0 (2 * h0.bit.toNat + h1.bit.toNat) 0 := by
  rw [codeX2, code_word, append_toNat_add, zero_append_toNat, pow_one, Nat.mul_comm]
  rfl

theorem codeAI_word (op : BitVec 8) (d : AccId) (imm : BitVec 16) :
    (codeAI op d imm).word = aluWord op.toNat d.bit.toNat 0 imm.toNat :=
  code_word op d.bit 0 imm

theorem codeAI8_word (op : BitVec 8) (d : AccId) (imm : BitVec 8) :
    (codeAI8 op d imm).word = aluWord op.toNat d.bit.toNat 0 imm.toNat := by
  rw [codeAI8, code_word, zero_append_toNat]
  rfl

theorem codeAS6_word (op : BitVec 8) (d : AccId) (n : BitVec 6) :
    (codeAS6 op d n).word = aluWord op.toNat d.bit.toNat 0 n.toNat := by
  rw [codeAS6, code_word, zero_append_toNat]
  rfl

theorem codeN_word (op : BitVec 8) : (codeN op).word = aluWord op.toNat 0 0 0 :=
  code_word op 0 0 0

/-- Format R: the register number stands in bits 23:16, across d, s and z (R106). -/
theorem codeR_word (op : BitVec 8) (r : Reg) (v : BitVec 16) :
    (codeR op r v).word = BitVec.ofNat 32 (op.toNat * 2 ^ 24 + r.num.toNat * 2 ^ 16 + v.toNat) := by
  have hnum := congrArg BitVec.toNat (regNum_parts r.num)
  simp only [append_toNat_add] at hnum
  rw [codeR, Fields.code, toWord_eq_sum]
  exact congrArg (BitVec.ofNat 32) (by omega)

theorem codeRead_word (op : BitVec 8) (r : Reg) :
    (codeRead op r).word = BitVec.ofNat 32 (op.toNat * 2 ^ 24 + r.num.toNat * 2 ^ 16) := by
  rw [codeRead, codeR_word, BitVec.ofNat_eq_ofNat, BitVec.toNat_zero, Nat.add_zero]

/-- Settles O3: each command is encoded in its format, and each format's word is the number of its fields. -/
theorem commandWordLayout : Obligations.CommandWordLayout := by
  unfold Obligations.CommandWordLayout
  intro m
  exact ⟨codeA_word 0x02, codeAR_word 0x03, codeAX_word 0x04, codeAI_word 0x06, codeAI8_word 0x07, codeAS6_word 0x30,
    codeAX_word 0x20, codeX1_word 0x40, codeX2_word 0x41, codeN_word 0x50, codeRead_word 0x58,
    codeR_word 0x59⟩

/-! ### Words written out -/

/-- With the default register map, the word and data an instruction is encoded to stand for it (R102). -/
theorem decode_standard_of_encode {i : Instr} {w : Word} {v : BitVec 16} (hwf : i.wf .standard = true)
    (h : encode .standard i = ⟨w, v⟩) : decode .standard w v = some i := by
  have hround := decodeInvertsEncode .standard i IfxMap.standard_distinct hwf
  rwa [h] at hround

/-- Settles O5: each word is the encoding of its instruction, and O1 takes it back. -/
theorem sampleWordsDecode : Obligations.SampleWordsDecode := by
  unfold Obligations.SampleWordsDecode
  refine ⟨?_, ?_, ?_, ?_, ?_, ?_, ?_, ?_, ?_, ?_⟩
  all_goals exact decode_standard_of_encode rfl (by decide)

end Sys2Proof

namespace Sys2Proof.Machine

open Sys2Proof.Claim

/-! ### Accesses marked F (R105) -/

/-- An access the map denies, register by register of R102's table: on the host's port the accelerator's registers, DIRQ
and writes of the host's own mailbox; on the DSP's, writes of ACDAT and of the DSP's own mailbox. -/
theorem exec_denied {p : Port} {w : Dir} {r : IfxReg} (h : Denied p w r = true) (v : BitVec 16) (s : State) :
    exec (txnInstr p w r v) s = .next (s.deny p r w) := by
  cases p with
  | host =>
    cases r with
    | dscr | dsbl | dspa | dsmah | dsmal | cmbh | cmbl => cases w <;> cases h
    | dmbh | dmbl =>
      cases w with
      | read => cases h
      | write => rfl
    | _ => cases w <;> rfl
  | dsp =>
    cases r with
    | acdat | cmbh | cmbl =>
      cases w with
      | read => cases h
      | write => rfl
    | _ => cases w <;> cases h

/-- Settles O29: the four accesses of R277 are among those the map marks F. -/
theorem deniedAccessesFault : Obligations.DeniedAccessesFault := by
  unfold Obligations.DeniedAccessesFault
  intro s v
  have hdenied (p : Port) (w : Dir) (r : IfxReg) (h : Denied p w r = true) :
      Faults (.accessDenied p (s.cfg.ifxMap.addr r) w) s (exec (txnInstr p w r v) s) := exec_denied h v s
  exact ⟨hdenied .host .write .dmbh rfl, hdenied .host .write .dmbl rfl, hdenied .dsp .write .cmbh rfl,
    hdenied .dsp .write .cmbl rfl, hdenied⟩

/-! ### Addresses the register map does not hold (R104) -/

theorem exec_unknownInstr (p : Port) (w : Dir) (lo : BitVec 8) (v : BitVec 16) (s : State) :
    exec (unknownInstr p w lo v) s = .next (s.unknownAccess p w (blockAddr lo)) := by
  cases p <;> rfl

section KnownUnknown

variable {s : State} {a : BitVec 16}

theorem unknownAccess_read (p : Port) (h : a ∈ s.cfg.knownUnknown) :
    s.unknownAccess p .read a = (s.toPort p 0).report (.knownUnknown a) :=
  if_pos (List.contains_iff_mem.2 h)

theorem unknownAccess_write (p : Port) (h : a ∈ s.cfg.knownUnknown) :
    s.unknownAccess p .write a = s.report (.knownUnknown a) :=
  if_pos (List.contains_iff_mem.2 h)

theorem unknownAccess_fault (p : Port) (w : Dir) (h : a ∉ s.cfg.knownUnknown) :
    s.unknownAccess p w a = s.raise (.unknownRegister a) :=
  if_neg fun hc => h (List.contains_iff_mem.1 hc)

end KnownUnknown

/-- Settles O30: the access is a report, with 0 returned by a read, at a known unknown, and a fault elsewhere. -/
theorem unknownAddresses : Obligations.UnknownAddresses := by
  unfold Obligations.UnknownAddresses
  refine ⟨rfl, fun s lo v _ => ?_⟩
  split
  next hknown =>
    have hread (p : Port) : exec (unknownInstr p .read lo v) s =
        .next ((s.toPort p 0).report (.knownUnknown (blockAddr lo))) := by
      rw [exec_unknownInstr, unknownAccess_read p hknown]
    have hwrite (p : Port) : exec (unknownInstr p .write lo v) s =
        .next (s.report (.knownUnknown (blockAddr lo))) := by
      rw [exec_unknownInstr, unknownAccess_write p hknown]
    exact ⟨⟨_, hread .dsp, rfl, rfl, rfl, fun _ _ => rfl⟩, ⟨_, hread .host, rfl, rfl, rfl, fun _ _ => rfl⟩,
      ⟨_, hwrite .dsp, rfl, rfl, fun _ _ => rfl⟩, ⟨_, hwrite .host, rfl, rfl, fun _ _ => rfl⟩⟩
  next hfree =>
    have hfault (p : Port) (w : Dir) :
        Faults (.unknownRegister (blockAddr lo)) s (exec (unknownInstr p w lo v) s) := by
      rw [exec_unknownInstr, unknownAccess_fault p w hfree]
      rfl
    exact ⟨hfault .dsp .read, hfault .host .read, hfault .dsp .write, hfault .host .write⟩

end Sys2Proof.Machine
end

section
/-! PROOFS. Additive, move, compare and test commands (40_alu_arith.md R130 to R158; 42_alu_multiply.md R226): every command
is one shared operation on an operand, so each obligation is that operation's law at the operand's integer value. -/

namespace Sys2Proof.Machine

open Sys2Proof.Claim

/-! ### The operands as integers (R132, R135, R140, R141) -/

theorem hi16_axReg_toInt (r : AxReg) (s : State) : (hi16 (s.axReg r)).toInt = hi (axWord s r) := by
  rw [hi16_toInt, axReg_word]

/-- The constant operands of INC, DEC, INCM, DECM, NEG and CLR are in range, so `wrap40` keeps them. -/
theorem wrap40_toInt_of_bounds {v : Int} (hlow : -2 ^ 39 ≤ v) (hhigh : v < 2 ^ 39) : (wrap40 v).toInt = v := by
  rw [wrap40_toInt, wrap_of_bounds hlow hhigh]

theorem wrap40_zero_toInt : (wrap40 0).toInt = 0 := wrap40_toInt_of_bounds (by norm_num) (by norm_num)

theorem wrap40_one_toInt : (wrap40 1).toInt = 1 := wrap40_toInt_of_bounds (by norm_num) (by norm_num)

/-- One unit of the middle slice. -/
theorem wrap40_mid_toInt : (wrap40 0x10000).toInt = 0x10000 := wrap40_toInt_of_bounds (by norm_num) (by norm_num)

section Operations

variable {a b : Acc} {v w : Int}

/-! ### Additions (R134 to R141) -/

theorem addInto_adds_of_toInt (hb : b.toInt = v) (d : AccId) (s : State) : Adds d v s (.next (s.addInto d b)) :=
  hb ▸ addInto_adds d b s

/-! ### Subtractions (R142 to R148) -/

theorem subOf_subtracts_of_toInt (ha : a.toInt = v) (hb : b.toInt = w) (d : AccId) (s : State) :
    Subtracts d v w s (.next (s.subOf d a b)) :=
  ha ▸ hb ▸ subOf_subtracts d a b s

theorem subInto_subtracts_of_toInt (hb : b.toInt = v) (d : AccId) (s : State) :
    Subtracts d (accVal s d) v s (.next (s.subInto d b)) :=
  subOf_subtracts_of_toInt rfl hb d s

/-! ### Compares and tests (R150 to R153, R226) -/

theorem compare_compares_of_toInt (hb : b.toInt = v) (a : Acc) (s : State) :
    Compares a.toInt v s (.next (s.compare a b)) :=
  hb ▸ compare_compares a b s

/-- The carry and overflow a test or a move writes are clear (R132, R152). -/
theorem flags40_clear_spec (sr : BitVec 16) (v : Acc) : Flags40 sr (flags40 sr v false false) v False False :=
  flags40_imp (flags40_spec sr v false false) (iff_of_false nofun id) (iff_of_false nofun id)

theorem testAcc_tests (v : Acc) (s : State) :
    Flags40 s.alu.sr (s.testAcc v).alu.sr v False False ∧ OnlySr s (s.testAcc v) :=
  ⟨flags40_clear_spec s.alu.sr v, onlySr_setSr _ s⟩

/-! ### Moves (R133, R149, R154 to R158) -/

theorem moves_of_wrap {d : AccId} {s : State} {r : Result} (h : Moves d (wrap v) s r) : Moves d v s r := by
  unfold Moves at h ⊢
  rwa [wrap_wrap] at h

theorem moveInto_moves_of_toInt (hb : b.toInt = v) (d : AccId) (s : State) : Moves d v s (.next (s.moveInto d b)) :=
  hb ▸ moveInto_moves d b s

/-- A move of a value that may lie outside 40 bits, as MOVNP and ABS make of `-2 ^ 39`. -/
theorem moveInto_wrap40_moves (v : Int) (d : AccId) (s : State) : Moves d v s (.next (s.moveInto d (wrap40 v))) :=
  moves_of_wrap (moveInto_moves_of_toInt (wrap40_toInt v) d s)

end Operations

/-- ABS (R149). -/
theorem execAbs_moves (d : AccId) (s : State) :
    Moves d (if accVal s d < 0 then -accVal s d else accVal s d) s (execAbs d s) := by
  unfold execAbs
  split
  next hneg => rw [if_pos (by exact hneg)]; exact moveInto_wrap40_moves _ d s
  next hpos => rw [if_neg (by exact hpos)]; exact moveInto_moves d (s.acc d) s

/-! ### Exact sums and SXM (R131) -/

/-- An addition whose sum fits in 40 bits leaves the sum, with AS set exactly when it does not fit in 32. -/
theorem Adds.exact {d : AccId} {v : Int} {s : State} {r : Result} (h : Adds d v s r)
    (hfits : ¬Outside40 (accVal s d + v)) :
    ∃ t, r = .next t ∧ accVal t d = accVal s d + v ∧
      (t.alu.sr.getLsbD 4 = true ↔ ¬Fits32 (accVal s d + v)) := by
  obtain ⟨t, hr, hval, ⟨-, -, -, -, has, -⟩, -⟩ := h
  obtain ⟨hlow, hhigh⟩ := not_or.1 hfits
  rw [wrap_of_bounds (not_lt.1 hlow) (not_le.1 hhigh)] at hval
  exact ⟨t, hr, hval, hval ▸ has⟩

/-- Two values of SR that differ in the mode bits 15:8 alone give the same flags (10_state.md R32). -/
theorem flags40_low_congr {sr sr' : BitVec 16} (h : ∀ n, n < 8 → sr'.getLsbD n = sr.getLsbD n) (v : Acc) (c o : Bool)
    (n : Nat) (hn : n < 8) : (flags40 sr' v c o).getLsbD n = (flags40 sr v c o).getLsbD n := by
  unfold flags40
  cases o <;> simp [srPut_bit, h n hn]

/-- SXM is none of the flags. -/
theorem srPut_sxm_low (sr : BitVec 16) (b : Bool) (n : Nat) (hn : n < 8) :
    (srPut sr .sxm b).getLsbD n = sr.getLsbD n :=
  (srPut_onlyBit sr .sxm b).2 n (Nat.ne_of_lt (Nat.lt_trans hn (by decide)))

/-- Whatever SR is, `i` writes the same value to the same accumulator, with the flags of that value and the same carry and
overflow. -/
def SrBlind (i : Instr) (s : State) : Prop :=
  ∃ (d : AccId) (v : Acc) (c o : Bool), ∀ sr : BitVec 16,
    exec i (s.setSr sr) = .next ((s.setAcc d v).setSr (flags40 sr v c o))

section SrBlind

variable {i : Instr} {s : State} {d : AccId} {a b : Acc}

theorem setSr_setAcc_setSr (d : AccId) (v : Acc) (x y : BitVec 16) (s : State) :
    ((s.setSr x).setAcc d v).setSr y = (s.setAcc d v).setSr y := by
  cases d <;> rfl

theorem SrBlind.of_addInto (h : ∀ sr, exec i (s.setSr sr) = .next ((s.setSr sr).addInto d b)) : SrBlind i s :=
  ⟨d, wrap40 ((s.acc d).toInt + b.toInt), addC (s.acc d) b, addO (s.acc d) b, fun sr => by
    rw [h, State.addInto, State.acc_setSr, setSr_setAcc_setSr]; rfl⟩

theorem SrBlind.of_subOf (h : ∀ sr, exec i (s.setSr sr) = .next ((s.setSr sr).subOf d a b)) : SrBlind i s :=
  ⟨d, wrap40 (a.toInt - b.toInt), subC a b, subO a b, fun sr => by
    rw [h, State.subOf, setSr_setAcc_setSr]; rfl⟩

theorem SrBlind.of_subInto (h : ∀ sr, exec i (s.setSr sr) = .next ((s.setSr sr).subInto d b)) : SrBlind i s :=
  .of_subOf (d := d) (a := s.acc d) (b := b) fun sr => by rw [h, State.subInto, State.acc_setSr]

/-- No operand of an additive command is read through SR: command by command, in the order of `additive`. -/
theorem additive_srBlind (hi : i ∈ additive) (s : State) : SrBlind i s := by
  rcases hi with ⟨d, rfl | rfl | rfl | rfl | rfl | rfl | rfl | rfl | rfl⟩ | ⟨d, r, rfl | rfl⟩ | ⟨d, x, rfl | rfl⟩ |
    ⟨d, imm, rfl⟩ | ⟨d, imm, rfl⟩
  · exact .of_addInto (b := s.acc d.other) fun _ => rfl
  · exact .of_addInto (b := s.prod) fun _ => rfl
  · exact .of_subInto (b := s.acc d.other) fun _ => rfl
  · exact .of_subInto (b := s.prod) fun _ => rfl
  · exact .of_addInto fun _ => rfl
  · exact .of_subInto fun _ => rfl
  · exact .of_addInto fun _ => rfl
  · exact .of_subInto fun _ => rfl
  · exact .of_subOf (b := s.acc d) fun _ => rfl
  · exact .of_addInto (b := hi16 (s.axReg r)) fun _ => rfl
  · exact .of_subInto (b := hi16 (s.axReg r)) fun _ => rfl
  · exact .of_addInto (b := s.axAcc x) fun _ => rfl
  · exact .of_subInto (b := s.axAcc x) fun _ => rfl
  · exact .of_addInto fun _ => rfl
  · exact .of_addInto fun _ => rfl

theorem SrBlind.sxm_independent (h : SrBlind i s) (b : Bool) :
    ∃ t u, exec i s = .next t ∧ exec i (s.putFlag .sxm b) = .next u ∧ u.alu.ac0 = t.alu.ac0 ∧ u.alu.ac1 = t.alu.ac1 ∧
      ∀ n, n < 8 → u.alu.sr.getLsbD n = t.alu.sr.getLsbD n := by
  obtain ⟨d, v, c, o, hexec⟩ := h
  have hself : exec i s = .next ((s.setAcc d v).setSr (flags40 s.alu.sr v c o)) := hexec s.alu.sr
  refine ⟨_, _, hself, hexec (srPut s.alu.sr .sxm b), ?_, ?_, fun n hn => ?_⟩
  · rw [State.setSr_alu, State.setSr_alu]
  · rw [State.setSr_alu, State.setSr_alu]
  · rw [State.setSr_alu, State.setSr_alu]
    exact flags40_low_congr (srPut_sxm_low s.alu.sr b) v c o n hn

end SrBlind

/-! ### The obligations -/

/-- Settles O7: each command is `addInto` of its operand. -/
theorem additionsAdd : Obligations.AdditionsAdd := by
  unfold Obligations.AdditionsAdd
  intro s d
  exact ⟨addInto_adds d (s.acc d.other) s,
    fun r => addInto_adds_of_toInt (hi16_axReg_toInt r s) d s,
    fun x => addInto_adds_of_toInt (axAcc_toInt x s) d s,
    addInto_adds_of_toInt (prod_toInt s) d s,
    fun imm => addInto_adds_of_toInt (hi16_toInt imm) d s,
    fun imm => addInto_adds_of_toInt (hi8_toInt imm) d s,
    addInto_adds_of_toInt wrap40_one_toInt d s,
    addInto_adds_of_toInt wrap40_mid_toInt d s⟩

/-- Settles O8: each command is `subInto` of its operand, and NEG the subtraction from 0. -/
theorem subtractionsSubtract : Obligations.SubtractionsSubtract := by
  unfold Obligations.SubtractionsSubtract
  intro s d
  exact ⟨subInto_subtracts_of_toInt rfl d s,
    fun r => subInto_subtracts_of_toInt (hi16_axReg_toInt r s) d s,
    fun x => subInto_subtracts_of_toInt (axAcc_toInt x s) d s,
    subInto_subtracts_of_toInt (prod_toInt s) d s,
    subInto_subtracts_of_toInt wrap40_one_toInt d s,
    subInto_subtracts_of_toInt wrap40_mid_toInt d s,
    subOf_subtracts_of_toInt wrap40_zero_toInt rfl d s⟩

/-- Settles O9: a compare writes the flags of its subtraction, a test those of its value. -/
theorem comparesAndTestsSetFlagsOnly : Obligations.ComparesAndTestsSetFlagsOnly := by
  unfold Obligations.ComparesAndTestsSetFlagsOnly
  intro s
  refine ⟨compare_compares (s.acc .ac0) (s.acc .ac1) s,
    fun d imm => compare_compares_of_toInt (hi16_toInt imm) (s.acc d) s,
    fun d => ⟨_, rfl, testAcc_tests (s.acc d) s⟩,
    fun x => ⟨_, rfl, ?_, onlySr_setSr _ s⟩,
    ⟨_, s.prod, rfl, prod_toInt s, testAcc_tests s.prod s⟩⟩
  rw [← axHigh_word]
  exact flags16_imp (flags16_spec s.alu.sr (s.axHigh x) false) (iff_of_false nofun id)

/-- Settles O10: each command is `moveInto` of its operand; MOVNP and ABS wrap the value they negate. -/
theorem movesWriteAccumulator : Obligations.MovesWriteAccumulator := by
  unfold Obligations.MovesWriteAccumulator
  intro s d
  exact ⟨moveInto_wrap40_moves 0 d s,
    moveInto_moves d (s.acc d.other) s,
    fun r => moveInto_moves_of_toInt (hi16_axReg_toInt r s) d s,
    fun x => moveInto_moves_of_toInt (axAcc_toInt x s) d s,
    moveInto_moves_of_toInt (prod_toInt s) d s,
    prod_toInt s ▸ moveInto_wrap40_moves (-s.prod.toInt) d s,
    execAbs_moves d s⟩

/-- Settles O11: a sum in range is not changed by `wrap`, and an additive command is blind to SR's mode bits. -/
theorem wideResultsExact : Obligations.WideResultsExact := by
  unfold Obligations.WideResultsExact
  exact ⟨fun s d hfits => Adds.exact (addInto_adds d (s.acc d.other) s) hfits,
    fun s b i hi => (additive_srBlind hi s).sxm_independent b⟩

end Sys2Proof.Machine
end

section
/-! PROOFS. Logic, bit-test and shift commands (41_alu_logic_shift.md R180 to R200): a logic command is `logicInto` of a word,
a shift `moveInto` of the shifted accumulator, and a bit test writes LZ from a comparison under the mask. -/

namespace Sys2Proof.Machine

open Sys2Proof.Claim

/-! ### Logic commands (R180, R182 to R191) -/

theorem logicInto_logics_of_eq {w w' : BitVec 16} (h : w = w') (d : AccId) (s : State) :
    Logics d w' s (.next (s.logicInto d w)) :=
  h ▸ logicInto_logics d w s

/-- Settles O12: each command is `logicInto` of its word; what axS.h reads as is `axHigh_word`. -/
theorem logicWritesMiddleSlice : Obligations.LogicWritesMiddleSlice := by
  unfold Obligations.LogicWritesMiddleSlice
  intro s d
  have hsource (op : BitVec 16 → BitVec 16 → BitVec 16) (x : AxId) :
      op (accM (s.acc d)) (s.axHigh x) = op (accMid s d) (axH s x) := congrArg (op _) (axHigh_word x s)
  exact ⟨fun x => ⟨logicInto_logics_of_eq (hsource (· &&& ·) x) d s, logicInto_logics_of_eq (hsource (· ||| ·) x) d s,
      logicInto_logics_of_eq (hsource (· ^^^ ·) x) d s⟩,
    logicInto_logics d (accMid s d &&& accMid s d.other) s,
    logicInto_logics d (accMid s d ||| accMid s d.other) s,
    logicInto_logics d (accMid s d ^^^ accMid s d.other) s,
    fun imm => ⟨logicInto_logics d (accMid s d &&& imm) s, logicInto_logics d (accMid s d ||| imm) s,
      logicInto_logics d (accMid s d ^^^ imm) s⟩,
    logicInto_logics d (accMid s d ^^^ 0xFFFF) s⟩

/-! ### Bit tests (R192, R193) -/

/-- A comparison under a mask looks at the mask's bits alone. The tests are its two cases: every such bit wanted 0, and every
one wanted 1. -/
theorem and_mask_eq_iff {n : Nat} {a mask want : BitVec n} (hwant : ∀ k, mask.getLsbD k = false → want.getLsbD k = false) :
    a &&& mask = want ↔ ∀ k, mask.getLsbD k = true → a.getLsbD k = want.getLsbD k := by
  constructor
  · rintro rfl k hk
    rw [BitVec.getLsbD_and, hk, Bool.and_true]
  · intro h
    refine BitVec.eq_of_getLsbD_eq fun k _ => ?_
    rw [BitVec.getLsbD_and]
    cases hk : mask.getLsbD k with
    | false => rw [Bool.and_false, hwant k hk]
    | true => rw [Bool.and_true, h k hk]

theorem and_mask_eq_zero_iff {n : Nat} (a mask : BitVec n) :
    a &&& mask = 0 ↔ ∀ k, mask.getLsbD k = true → a.getLsbD k = false := by
  have hzero (k : Nat) : (0 : BitVec n).getLsbD k = false := BitVec.getLsbD_zero
  rw [and_mask_eq_iff fun k _ => hzero k]
  simp only [hzero]

theorem and_mask_eq_mask_iff {n : Nat} (a mask : BitVec n) :
    a &&& mask = mask ↔ ∀ k, mask.getLsbD k = true → a.getLsbD k = true := by
  rw [and_mask_eq_iff fun _ hk => hk]
  exact forall₂_congr fun k hk => by rw [hk]

/-- A bit test writes LZ with the answer to its question and nothing else. -/
theorem putFlag_bitTest_sets {p q : Prop} [Decidable p] (h : p ↔ q) (s : State) :
    ∃ z : Bool, (z = true ↔ q) ∧ SetsBit 6 z s (.next (s.putFlag .bitTest (decide p))) :=
  ⟨decide p, decide_eq_true_iff.trans h, putFlag_sets .bitTest (decide p) s⟩

/-- Settles O13: ANDF's mask bits are all 0 in acD.m, ANDCF's all 1. -/
theorem bitTestsSetLzOnly : Obligations.BitTestsSetLzOnly := by
  unfold Obligations.BitTestsSetLzOnly
  intro s d imm
  exact ⟨putFlag_bitTest_sets (and_mask_eq_zero_iff (accMid s d) imm) s,
    putFlag_bitTest_sets (and_mask_eq_mask_iff (accMid s d) imm) s⟩

/-! ### Shifts (R181, R194 to R200) -/

section Shifts

variable (d : AccId) (n : Nat) (s : State)

/-- Left, of either kind: the bits above 39 are lost, which `Moves` says with `wrap`. -/
theorem shl_moves : Moves d (u40 (accVal s d) * 2 ^ n) s (.next (s.moveInto d (shl (s.acc d) n))) :=
  moves_of_wrap (moveInto_moves_of_toInt (shl_toInt (s.acc d) n) d s)

/-- Right, with zeros shifted in. By 0 the value may lie above the signed range, and `wrap` brings it back. -/
theorem shrl_moves : Moves d (u40 (accVal s d) / 2 ^ n) s (.next (s.moveInto d (shrl (s.acc d) n))) :=
  moves_of_wrap (moveInto_moves_of_toInt (shrl_toInt (s.acc d) n) d s)

/-- Right, with the sign shifted in. -/
theorem shra_moves : Moves d (accVal s d / 2 ^ n) s (.next (s.moveInto d (shra (s.acc d) n))) :=
  moveInto_moves_of_toInt (shra_toInt (s.acc d) n) d s

end Shifts

/-- Settles O14: each command is one of the three shifts, by its operand or by 16. -/
theorem shiftsMoveWholeAccumulator : Obligations.ShiftsMoveWholeAccumulator := by
  unfold Obligations.ShiftsMoveWholeAccumulator
  intro s d
  exact ⟨fun n => ⟨shl_moves d n.toNat s, shrl_moves d n.toNat s, shl_moves d n.toNat s, shra_moves d n.toNat s⟩,
    shl_moves d 16 s, shrl_moves d 16 s, shra_moves d 16 s⟩

end Sys2Proof.Machine
end

section
/-! PROOFS. Multiply commands (42_alu_multiply.md R217, R218, R225): MULAC and MULMV are `moveInto` and then `storeProd` of the
product of the state before, and CLRP is `setProd` of the parameter's slices. -/

namespace Sys2Proof.Machine

open Sys2Proof.Claim

/-! ### Commands that write an accumulator and the product (R217, R218) -/

/-- The value `v` in accumulator `d` with its flags (C = O = 0), the product `p` stored, and everything else as before. -/
def MovesAndStores (d : AccId) (v p : Int) (s : State) (r : Result) : Prop :=
  ∃ t, r = .next t ∧ accVal t d = v ∧ prodVal t = wrap p ∧ t.alu.prod.m2 = 0 ∧
    Flags40 s.alu.sr t.alu.sr (t.acc d) False False ∧ t.acc d.other = s.acc d.other ∧
    t.alu.ax0 = s.alu.ax0 ∧ t.alu.ax1 = s.alu.ax1 ∧ t = { s with alu := t.alu } ∧ SameBytes s t

/-- Storing a product after a move disturbs neither the accumulators nor the flags. -/
theorem Moves.storeProd {d : AccId} {v : Int} {s u : State} (h : Moves d v s (.next u)) (p : Int) :
    MovesAndStores d (wrap v) p s (.next (u.storeProd p)) := by
  obtain ⟨_, ⟨rfl⟩, hacc, hflags, hframe, hother, hax0, hax1, -, hbytes⟩ := h
  obtain ⟨_, ⟨rfl⟩, hprod, -, -, -, hm2, -, hprodBytes⟩ := storeProd_stores p u
  have hkeep (e : AccId) : (u.storeProd p).acc e = u.acc e := State.acc_setProd e _ u
  refine ⟨_, rfl, ?_, hprod, hm2, ?_, (hkeep _).trans hother, hax0, hax1, ?_,
    fun r a => (hprodBytes r a).trans (hbytes r a)⟩
  · rw [accVal, hkeep]; exact hacc
  · rw [hkeep]; exact hflags
  · rw [hframe]; rfl

theorem wrap_prodVal (s : State) : wrap (prodVal s) = prodVal s := wrap_wrap _

theorem execMulac_movesAndStores (d : AccId) (x : AxId) (s : State) :
    MovesAndStores d (wrap (accVal s d + prodVal s)) (mulAx s x) s (execMulac d x s) := by
  rw [← mulAx_eq, ← prod_toInt]
  exact Moves.storeProd (moveInto_wrap40_moves _ d s) _

theorem execMulmv_movesAndStores (d : AccId) (x : AxId) (s : State) :
    MovesAndStores d (prodVal s) (mulAx s x) s (execMulmv d x s) := by
  rw [← mulAx_eq, ← wrap_prodVal]
  exact Moves.storeProd (moveInto_moves_of_toInt (prod_toInt s) d s) _

/-- Settles O16: both commands move a value of the old product, and then store the product of the same state. -/
theorem mulacMulmvUseOldProduct : Obligations.MulacMulmvUseOldProduct := by
  unfold Obligations.MulacMulmvUseOldProduct
  exact fun s d x => ⟨execMulac_movesAndStores d x s, execMulmv_movesAndStores d x s⟩

/-! ### CLRP (R225) -/

/-- The product register keeps bits 7:0 of the slice h (10_state.md R27). -/
theorem clrpProd_h_toNat (c : Config) : (clrpProd c).h.toNat = c.clrpSlices.2.2.1.toNat % 2 ^ 8 := by
  rw [clrpProd, BitVec.extractLsb'_toNat, Nat.shiftRight_zero]

/-- The default's slices stand for 0: h = -1, and m1 + m2 = 0x10000 carries into it. -/
theorem clrpProd_value_of_default {c : Config} (h : c.clrpSlices = (0x0000, 0xFFF0, 0x00FF, 0x0010)) :
    (clrpProd c).value = 0 := by
  rw [clrpProd, h]; rfl

/-- Settles O17: CLRP is `setProd` of the parameter's slices. -/
theorem clrpWritesItsSlices : Obligations.ClrpWritesItsSlices := by
  unfold Obligations.ClrpWritesItsSlices
  refine fun s => ⟨s.setProd (clrpProd s.cfg), rfl, rfl, rfl, clrpProd_h_toNat s.cfg, rfl, fun hdefault => ?_,
    onlyProd_setProd _ s⟩
  calc prodVal (s.setProd (clrpProd s.cfg))
      = (clrpProd s.cfg).value.toInt := (prod_toInt _).symm
    _ = 0 := by rw [clrpProd_value_of_default hdefault]; rfl

end Sys2Proof.Machine
end

section
/-! PROOFS. Mode commands and register access (43_alu_regs_modes.md R240 to R246; 10_state.md R24 to R31): RREG and WREG
are settled one register kind at a time, from the integer value of an accumulator's three slices. -/

namespace Sys2Proof.Machine

open Sys2Proof.Claim

/-! ### The slices of an accumulator as integers (10_state.md R24, R25) -/

theorem acc_toInt_slices (a : Acc) : a.toInt = (accH a).toInt * 2 ^ 32 + (accM a).toNat * 2 ^ 16 + (accL a).toNat := by
  have hslices := mkAcc_toInt (accH a) (accM a) (accL a)
  rw [mkAcc_slices] at hslices
  omega

theorem accL_eq_ofInt (a : Acc) : accL a = BitVec.ofInt 16 a.toInt := by
  have ha := acc_toInt_slices a
  refine BitVec.eq_of_toNat_eq ?_
  rw [BitVec.toNat_ofInt]
  omega

theorem accM_eq_ofInt (a : Acc) : accM a = BitVec.ofInt 16 (a.toInt / 2 ^ 16) := by
  have ha := acc_toInt_slices a
  refine BitVec.eq_of_toNat_eq ?_
  rw [BitVec.toNat_ofInt]
  omega

theorem accH_toInt (a : Acc) : (accH a).toInt = a.toInt / 2 ^ 32 := by
  have ha := acc_toInt_slices a
  omega

/-- The low 32 bits are the slices m and l. -/
theorem low32_eq_slices (a : Acc) : a.extractLsb' 0 32 = accM a ++ accL a :=
  (BitVec.extractLsb'_append_extractLsb'_eq_extractLsb' (show 16 = 0 + 16 from rfl)).symm

/-! ### RREG (R246) -/

/-- A value returned to the core is the only thing that changes. -/
theorem toCore_returns (v : BitVec 16) (s : State) : Returns .dsp v s (.next (s.toCore v)) :=
  ⟨_, rfl, rfl, rfl, sameBytes_of_mems rfl rfl rfl rfl rfl⟩

theorem rreg_returns {r : Reg} {v : BitVec 16} {s : State} (h : s.readReg r = v) :
    Returns .dsp v s (exec (.rreg r) s) :=
  h ▸ toCore_returns (s.readReg r) s

/-- acN.m saturates exactly when SXM is set and the accumulator does not fit in 32 bits. -/
theorem saturates_iff (a : Acc) (s : State) :
    (srGet s.alu.sr .sxm && !fits32 a) = true ↔ s.alu.sr.getLsbD 14 = true ∧ ¬Fits32 a.toInt := by
  rw [Bool.and_eq_true, Bool.not_eq_true', ← Bool.not_eq_true, fits32_iff]
  rfl

theorem readReg_acM (d : AccId) (s : State) :
    s.readReg (.acM d) =
      if s.alu.sr.getLsbD 14 = true ∧ ¬Fits32 (accVal s d) then (if 0 < accVal s d then 0x7FFF else 0x8000)
      else BitVec.ofInt 16 (accVal s d / 2 ^ 16) := by
  rw [State.readReg, accM_eq_ofInt]
  exact if_congr (saturates_iff (s.acc d) s) rfl rfl

/-- The slice h is read sign-extended. -/
theorem readReg_acH (d : AccId) (s : State) : s.readReg (.acH d) = BitVec.ofInt 16 (accVal s d / 2 ^ 32) := by
  rw [accVal, ← accH_toInt]
  rfl

/-- Settles O19: RREG returns `readReg`, whose slices are the integer's digits. -/
theorem rregReturnsRegister : Obligations.RregReturnsRegister := by
  unfold Obligations.RregReturnsRegister
  intro s
  exact ⟨fun d => ⟨rreg_returns (accL_eq_ofInt (s.acc d)), rreg_returns (readReg_acM d s),
      rreg_returns (readReg_acH d s)⟩,
    fun x => ⟨rreg_returns (axLow_word x s), rreg_returns (axHigh_word x s)⟩,
    rreg_returns rfl, rreg_returns rfl, rreg_returns rfl, rreg_returns rfl, rreg_returns rfl⟩

/-! ### WREG of an accumulator slice (R245) -/

/-- Writing an accumulator and no SR bit is a case of the frame of an accumulator and SR. -/
theorem onlyAccSr_setAcc (d : AccId) (v : Acc) (s : State) : OnlyAccSr d s (s.setAcc d v) := by
  have hsame : s.setAcc d v = (s.setAcc d v).setSr s.alu.sr := by cases d <;> rfl
  rw [hsame]
  exact onlyAccSr_setAcc_setSr d v s.alu.sr s

/-- WREG of a slice of acD, of which `P` says what acD holds afterwards, writes `a` to acD. -/
theorem wreg_setAcc {P : Acc → Prop} {r : Reg} {v : BitVec 16} {d : AccId} {a : Acc} {s : State}
    (hwrite : s.writeReg r v = s.setAcc d a) (hvalue : P a) :
    ∃ t, exec (.wreg r v) s = .next t ∧ P (t.acc d) ∧ t.alu.sr = s.alu.sr ∧ OnlyAccSr d s t := by
  refine ⟨s.setAcc d a, congrArg _ hwrite, ?_, State.setAcc_sr d a s, onlyAccSr_setAcc d a s⟩
  rwa [State.acc_setAcc_same]

/-- A new slice l in place of the old one. -/
theorem mkAcc_low_toInt (a : Acc) (v : BitVec 16) :
    (mkAcc (accH a) (accM a) v).toInt = wrap (a.toInt / 2 ^ 16 * 2 ^ 16 + v.toNat) := by
  have ha := acc_toInt_slices a
  have hnew := mkAcc_toInt (accH a) (accM a) v
  rw [← wrap_acc]
  congr 1
  omega

/-- What WREG of acD.m leaves in acD that held `old`. -/
def MidWritten (sxm : Bool) (v : BitVec 16) (old new : Acc) : Prop :=
  if sxm = true then new.toInt = v.toInt * 2 ^ 16
  else accM new = v ∧ accL new = accL old ∧ accH new = accH old

theorem wreg_acM (d : AccId) (v : BitVec 16) (s : State) :
    ∃ t, exec (.wreg (.acM d) v) s = .next t ∧ MidWritten (s.alu.sr.getLsbD 14) v (s.acc d) (t.acc d) ∧
      t.alu.sr = s.alu.sr ∧ OnlyAccSr d s t := by
  by_cases hsxm : s.alu.sr.getLsbD 14 = true
  · refine wreg_setAcc (P := MidWritten _ v (s.acc d)) (if_pos hsxm) ?_
    rw [MidWritten, if_pos hsxm]
    exact mkAcc_signExtend v
  · refine wreg_setAcc (P := MidWritten _ v (s.acc d)) (if_neg hsxm) ?_
    rw [MidWritten, if_neg hsxm]
    exact ⟨accM_mkAcc _ _ _, accL_mkAcc _ _ _, accH_mkAcc _ _ _⟩

theorem wreg_acH (d : AccId) (v : BitVec 16) (s : State) :
    ∃ t, exec (.wreg (.acH d) v) s = .next t ∧
      (accH (t.acc d) = BitVec.ofNat 8 v.toNat ∧ (t.acc d).extractLsb' 0 32 = (s.acc d).extractLsb' 0 32) ∧
      t.alu.sr = s.alu.sr ∧ OnlyAccSr d s t := by
  refine wreg_setAcc (P := fun a => accH a = _ ∧ a.extractLsb' 0 32 = _) rfl ⟨accH_mkAcc _ _ _, ?_⟩
  rw [low32_eq_slices, low32_eq_slices, accM_mkAcc, accL_mkAcc]

/-- Settles O20: WREG of a slice is `setAcc` of the accumulator put together from the new slice and the old ones. -/
theorem wregWritesAccumulator : Obligations.WregWritesAccumulator := by
  unfold Obligations.WregWritesAccumulator
  intro s d v
  obtain ⟨t, hexec, ⟨hhigh, hlow⟩, hsr, hframe⟩ := wreg_acH d v s
  exact ⟨wreg_setAcc (P := fun a => a.toInt = _) rfl (mkAcc_low_toInt (s.acc d) v), wreg_acM d v s,
    t, hexec, hhigh, hlow, hsr, hframe⟩

/-! ### Mode commands (R240 to R244) -/

/-- Settles O18: each command is `putFlag` of its mode bit. -/
theorem modeCommandsSetOneBit : Obligations.ModeCommandsSetOneBit := by
  unfold Obligations.ModeCommandsSetOneBit
  intro s
  exact ⟨putFlag_sets .su true s, putFlag_sets .su false s, putFlag_sets .sxm true s, putFlag_sets .sxm false s,
    putFlag_sets .am false s, putFlag_sets .am true s⟩

/-! ### WREG of the other registers (R245; 10_state.md R26, R31) -/

/-- Nothing but axS differs. -/
def OnlyAx (x : AxId) (s t : State) : Prop :=
  (match x with
    | .ax0 => t = { s with alu := { s.alu with ax0 := t.alu.ax0 } }
    | .ax1 => t = { s with alu := { s.alu with ax1 := t.alu.ax1 } }) ∧ SameBytes s t

theorem onlyAx_setAx (x : AxId) (v : BitVec 32) (s : State) : OnlyAx x s (s.setAx x v) := by
  cases x with
  | ax0 | ax1 => exact ⟨rfl, sameBytes_of_mems rfl rfl rfl rfl rfl⟩

theorem axH_setAx (x : AxId) (h l : BitVec 16) (s : State) : axH (s.setAx x (h ++ l)) x = h := by
  rw [← axHigh_word, State.axHigh, State.ax_setAx_same, BitVec.extractLsb'_append_eq_left]

theorem axL_setAx (x : AxId) (h l : BitVec 16) (s : State) : axL (s.setAx x (h ++ l)) x = l := by
  rw [← axLow_word, State.axLow, State.ax_setAx_same, BitVec.extractLsb'_append_eq_right]

theorem wreg_axL (x : AxId) (v : BitVec 16) (s : State) :
    ∃ t, exec (.wreg (.axL x) v) s = .next t ∧ axL t x = v ∧ axH t x = axH s x ∧ OnlyAx x s t :=
  ⟨_, rfl, axL_setAx x _ v s, (axH_setAx x _ v s).trans (axHigh_word x s), onlyAx_setAx x _ s⟩

theorem wreg_axH (x : AxId) (v : BitVec 16) (s : State) :
    ∃ t, exec (.wreg (.axH x) v) s = .next t ∧ axH t x = v ∧ axL t x = axL s x ∧ OnlyAx x s t :=
  ⟨_, rfl, axH_setAx x v _ s, (axL_setAx x v _ s).trans (axLow_word x s), onlyAx_setAx x _ s⟩

theorem wreg_setProd {r : Reg} {v : BitVec 16} {p : ProdReg} {s : State} (hwrite : s.writeReg r v = s.setProd p) :
    ∃ t, exec (.wreg r v) s = .next t ∧ t.alu.prod = p ∧ OnlyProd s t :=
  ⟨s.setProd p, congrArg _ hwrite, rfl, onlyProd_setProd p s⟩

/-- Settles O21: WREG is `setAx` of both halves, `setProd` of the slices, or `setSr`. -/
theorem wregWritesOtherRegisters : Obligations.WregWritesOtherRegisters := by
  unfold Obligations.WregWritesOtherRegisters
  intro s v
  exact ⟨wreg_axL .ax0 v s, wreg_axL .ax1 v s, wreg_axH .ax0 v s, wreg_axH .ax1 v s,
    wreg_setProd rfl, wreg_setProd rfl, wreg_setProd rfl, wreg_setProd rfl, s.setSr v, rfl, rfl, onlySr_setSr v s⟩

end Sys2Proof.Machine
end

section
/-! PROOFS. Mailboxes and DIRQ (44_mailbox.md R271 to R276, R281 to R283): each access is one shared operation, whose law
is said once for both mailboxes; the round trip follows from the laws of its four accesses. -/

namespace Sys2Proof.Machine

open Sys2Proof.Claim

/-! ### The sender's writes (R272, R273) -/

theorem sendHigh_sends (m : MailboxId) (v : BitVec 16) (s : State) : SendsHigh m v s (.next (s.sendHigh m v)) := by
  have hhi : (v.extractLsb' 0 15).toNat = v.toNat % 2 ^ 15 := BitVec.extractLsb'_toNat 0 15 v
  cases m with
  | cmb =>
    rw [State.sendHigh_cmb]
    exact ⟨_, rfl, hhi, rfl, rfl, rfl, rfl, rfl, rfl, sameBytes_of_mems rfl rfl rfl rfl rfl⟩
  | dmb =>
    rw [State.sendHigh_dmb]
    exact ⟨_, rfl, hhi, rfl, rfl, rfl, rfl, rfl, rfl, sameBytes_of_mems rfl rfl rfl rfl rfl⟩

theorem sendLow_sends (m : MailboxId) (v : BitVec 16) (s : State) : SendsLow m v s (.next (s.sendLow m v)) := by
  cases m with
  | cmb =>
    rw [State.sendLow_cmb]
    exact ⟨_, rfl, rfl, rfl, rfl, rfl, rfl, rfl, rfl, sameBytes_of_mems rfl rfl rfl rfl rfl⟩
  | dmb =>
    rw [State.sendLow_dmb]
    exact ⟨_, rfl, rfl, rfl, rfl, rfl, rfl, rfl, rfl, sameBytes_of_mems rfl rfl rfl rfl rfl⟩

/-- Settles O24: the writes are `sendHigh` and `sendLow` of the sender's mailbox. -/
theorem senderWritesMailbox : Obligations.SenderWritesMailbox := by
  unfold Obligations.SenderWritesMailbox
  intro s v
  exact ⟨sendHigh_sends .cmb v s, sendHigh_sends .dmb v s, sendLow_sends .cmb v s, sendLow_sends .dmb v s⟩

/-! ### Reads by either side (R274 to R276) -/

theorem toPort_returns (p : Port) (v : BitVec 16) (s : State) : Returns p v s (.next (s.toPort p v)) := by
  cases p with
  | dsp => exact toCore_returns v s
  | host => exact ⟨_, rfl, rfl, rfl, sameBytes_of_mems rfl rfl rfl rfl rfl⟩

theorem highWord_returns (p : Port) (b : Mailbox) (s : State) :
    Returns p (BitVec.ofNat 16 (highWord b)) s (.next (s.toPort p b.high)) :=
  b.high_eq ▸ toPort_returns p b.high s

theorem receiveLow_receives (p : Port) (m : MailboxId) (s : State) :
    ReceivesLow p m s (.next (s.receiveLow p m)) := by
  cases p with
  | dsp | host =>
    cases m with
    | cmb | dmb => exact ⟨_, rfl, rfl, rfl, rfl, rfl, rfl, rfl, rfl, sameBytes_of_mems rfl rfl rfl rfl rfl⟩

/-- Settles O25: the receiver's read of the low word is `receiveLow`, every other read gives its port a word of the
mailbox. -/
theorem mailboxReads : Obligations.MailboxReads := by
  unfold Obligations.MailboxReads
  intro s
  exact ⟨receiveLow_receives .dsp .cmb s, receiveLow_receives .host .dmb s,
    highWord_returns .host s.cmb s, highWord_returns .dsp s.cmb s,
    highWord_returns .host s.dmb s, highWord_returns .dsp s.dmb s,
    toPort_returns .host s.cmb.lo s, toPort_returns .dsp s.dmb.lo s⟩

/-! ### The round trip (R281) -/

theorem box_eq_of_onlyReturned {p : Port} {s t : State} (h : OnlyReturned p s t) (m : MailboxId) :
    box m t = box m s := by
  obtain ⟨hstate, -⟩ := h
  cases p with
  | dsp | host =>
    have hbox := congrArg (box m) hstate
    exact hbox

/-- With ready set, the high word is bit 15 and the 15 bits that were written. -/
theorem highWord_toNat_of_ready {b : Mailbox} (h : b.ready = true) :
    (BitVec.ofNat 16 (highWord b)).toNat = 0x8000 + b.hi.toNat := by
  have hhi := b.hi.isLt
  rw [BitVec.toNat_ofNat, highWord, if_pos h]
  omega

/-- R281 for any mailbox and receiver: the low write keeps the high word and sets ready, and the high read keeps the
message for the low read. -/
theorem message_roundTrip (p : Port) (m : MailboxId) (h l : BitVec 16) (s : State) :
    let b := (s.sendHigh m h).sendLow m l
    let c := b.toPort p (box m b).high
    let e := c.receiveLow p m
    (returned p c).toNat = 0x8000 + h.toNat % 2 ^ 15 ∧ returned p e = l ∧ (box m e).ready = false := by
  intro b c e
  obtain ⟨_, ⟨⟩, hhi, -⟩ := sendHigh_sends m h s
  obtain ⟨_, ⟨⟩, hhiKept, hlo, hready, -⟩ := sendLow_sends m l (s.sendHigh m h)
  obtain ⟨_, ⟨⟩, hhigh, hframe⟩ := highWord_returns p (box m b) b
  obtain ⟨_, ⟨⟩, hlow, -, -, hfree, -⟩ := receiveLow_receives p m c
  have hkept : box m c = box m b := box_eq_of_onlyReturned (p := p) hframe m
  refine ⟨?_, ?_, hfree⟩
  · rw [hhigh, highWord_toNat_of_ready hready, hhiKept, hhi]
  · rw [hlow, hkept, hlo]

/-- Settles O26: the DSP receives the message of CMB, the host that of DMB. -/
theorem mailboxRoundTrip : Obligations.MailboxRoundTrip := by
  unfold Obligations.MailboxRoundTrip
  intro s h l
  exact ⟨⟨_, _, _, _, rfl, rfl, rfl, rfl, message_roundTrip .dsp .cmb h l s⟩,
    ⟨_, _, _, _, rfl, rfl, rfl, rfl, message_roundTrip .host .dmb h l s⟩⟩

/-! ### DIRQ (R282, R283) -/

theorem State.requestHostIrq_eq (v : BitVec 16) (s : State) :
    s.requestHostIrq v = { s with hostIrqCount := s.hostIrqCount + v.toNat % 2 } := by
  have hbit : v.getLsbD 0 = decide (v.toNat % 2 = 1) := by rw [BitVec.getLsbD, Nat.testBit_zero]
  rw [State.requestHostIrq, hbit]
  obtain heven | hodd := Nat.mod_two_eq_zero_or_one v.toNat
  · rw [heven]; rfl
  · rw [hodd]; rfl

/-- Settles O27: a DSP write adds bit 0 to the count, a DSP read is the reported 0, and the map denies the host both
accesses. -/
theorem dirqRegister : Obligations.DirqRegister := by
  unfold Obligations.DirqRegister
  refine ⟨rfl, fun s v => ⟨⟨_, congrArg Host.Outcome.next (s.requestHostIrq_eq v), rfl, rfl, ?_⟩,
    ⟨_, rfl, rfl, rfl, rfl, ?_⟩, exec_denied (p := .host) (w := .read) (r := .dirq) rfl v s,
    exec_denied (p := .host) (w := .write) (r := .dirq) rfl v s⟩⟩
  all_goals exact sameBytes_of_mems rfl rfl rfl rfl rfl

end Sys2Proof.Machine
end

section
/-! PROOFS. The DMA block transfers (45_dma.md R300 to R309): a descriptor access by either port is one shared operation,
and a DSBL write is `runDma`, which either raises the first check that fails or is the copy whose law `dmaCopy_in` or
`dmaCopy_out` says. -/

namespace Sys2Proof.Machine

open Sys2Proof.Claim

/-! ### The descriptor (R300, R301; 20_memory.md R83) -/

theorem setDma_sets (d : Dma) (s : State) : SetsDma d s (.next { s with dma := d }) :=
  ⟨_, rfl, rfl, rfl, sameBytes_of_mems rfl rfl rfl rfl rfl⟩

/-- Settles O31: each write stores a descriptor with one field replaced. -/
theorem dmaDescriptorWrites : Obligations.DmaDescriptorWrites := by
  unfold Obligations.DmaDescriptorWrites
  intro s v
  have hhigh : SetsDma { s.dma with mmaddr := withHigh s.dma.mmaddr v } s (execWrDDsmah v s) :=
    putHigh_eq s.dma.mmaddr v ▸ setDma_sets _ s
  have hlow : SetsDma { s.dma with mmaddr := withLow s.dma.mmaddr v } s (execWrDDsmal v s) :=
    putLow_eq s.dma.mmaddr v ▸ setDma_sets _ s
  exact ⟨setDma_sets _ s, setDma_sets _ s, setDma_sets _ s, setDma_sets _ s, hhigh, hhigh, hlow, hlow⟩

/-- The mask of a DSCR read has every bit but bit 2. -/
theorem dscrMask_getLsbD : ∀ k < 16, (0xFFFB#16).getLsbD k = decide (k ≠ 2) := by decide

/-- The value a DSCR read returns is the control field with bit 2 clear. -/
theorem dscrMask_eq {ctl c : BitVec 16} (h : ∀ k, c.getLsbD k = (ctl.getLsbD k && decide (k ≠ 2))) :
    ctl &&& 0xFFFB#16 = c := by
  apply BitVec.eq_of_getLsbD_eq
  intro k hk
  rw [BitVec.getLsbD_and, dscrMask_getLsbD k hk, h k]

/-- Settles O32: each read gives its port a stored field or a half of one. -/
theorem dmaDescriptorReads : Obligations.DmaDescriptorReads := by
  unfold Obligations.DmaDescriptorReads
  intro s
  have hreturns : ∀ p v, Returns p v s (.next (s.toPort p v)) := fun p v => toPort_returns p v s
  have hdscr : ∀ c : BitVec 16, (∀ k, c.getLsbD k = (s.dma.ctl.getLsbD k && decide (k ≠ 2))) →
      Returns .dsp c s (exec .rdDDscr s) ∧ Returns .host c s (exec .rdHDscr s) := by
    intro c hc
    have hmask := dscrMask_eq hc
    exact ⟨hmask ▸ hreturns .dsp _, hmask ▸ hreturns .host _⟩
  rw [← highHalf_eq, ← lowHalf_eq]
  exact ⟨hdscr, hreturns .dsp _, hreturns .host _, hreturns .dsp _, hreturns .host _, hreturns .dsp _,
    hreturns .host _, hreturns .dsp _, hreturns .host _⟩

/-! ### The checks (R305, R373) -/

section Checks

variable {s : State} {v : BitVec 16}

theorem runDma_faults {f : Fault} (h : dmaCheck s.cfg { s.dma with len := v } = some f) :
    Faults f s (.next (s.runDma v)) := by
  simp only [Faults, State.runDma, h, State.raise]

theorem dmaLegal_iff_dmaAddr (s : State) (v : BitVec 16) (a : Nat) :
    dmaLegal { s.dma with len := v } a = true ↔ DmaAddr s a := dmaLegal_iff _ a

/-- The first address that may not take part is the one the scan of R305 finds. -/
theorem dmaFirstBad_of_dmaAddr {n a k : Nat} (hk : k < n) (hbad : ¬DmaAddr s (a + k))
    (hgood : ∀ j, j < k → DmaAddr s (a + j)) :
    dmaFirstBad { s.dma with len := v } n a = some (a + k) :=
  dmaFirstBad_some hk (Bool.eq_false_iff.2 fun h => hbad ((dmaLegal_iff_dmaAddr s v _).1 h)) fun j hj =>
    (dmaLegal_iff_dmaAddr s v _).2 (hgood j hj)

theorem dmaRange_iff (v : BitVec 16) (a n : Nat) : (v ≠ 0 ∧ a + v.toNat > n) ↔ (v.toNat ≠ 0 ∧ n < a + v.toNat) :=
  and_congr_left' (BitVec.toNat_ne_iff_ne (n := 16) (x := v) (y := 0)).symm

end Checks

/-- Settles O35: the branches of `dmaCheck` in their order, and the fault of the branch taken. -/
theorem dmaChecksFault : Obligations.DmaChecksFault := by
  unfold Obligations.DmaChecksFault
  intro s v r hr
  obtain rfl : r = .next (s.runDma v) := hr.elim id id
  split
  next hodd => exact runDma_faults (if_pos hodd)
  next hodd =>
    split
    next hmis => exact runDma_faults ((if_neg hodd).trans (if_pos hmis))
    next hmis =>
      split
      next hrange =>
        exact runDma_faults ((if_neg hodd).trans ((if_neg hmis).trans (if_pos ((dmaRange_iff v _ _).2 hrange))))
      next hrange =>
        intro k hk hbad hgood
        refine runDma_faults ((if_neg hodd).trans ((if_neg hmis).trans
          ((if_neg (mt (dmaRange_iff v _ _).1 hrange)).trans ?_)))
        exact congrArg (Option.map Fault.badDspAddress) (dmaFirstBad_of_dmaAddr hk hbad hgood)

/-! ### The copies (R304 to R307) -/

section Copies

variable {s : State} {v : BitVec 16}

theorem mem_wf_of_memWf (h : s.memWf = true) (r : Region) : (s.mem r).wf = true := by
  simp only [State.memWf, Bool.and_eq_true, and_assoc] at h
  obtain ⟨hiram, hirom, hdram, hdrom, hmain, -⟩ := h
  cases r <;> assumption

/-- A new content of one region changes no byte but those in which it differs. -/
theorem readByte_setMem_frame {r : Region} {m : Memory} {P : Nat → Prop}
    (h : ∀ a, ¬P a → m.read a = (s.mem r).read a) (q : Region) (a : Nat) (hqa : ¬(q = r ∧ P a)) :
    (s.setMem r m).readByte q a = s.readByte q a := by
  by_cases hq : q = r
  · subst hq
    rw [State.readByte, State.mem_setMem]
    exact h a fun ha => hqa ⟨rfl, ha⟩
  · rw [State.readByte, State.mem_setMem_ne hq]
    rfl

/-- With a new descriptor and new content of the RAM a copy writes, nothing else differs. -/
theorem setMem_dmaRam_frame (d : Dma) (m : Memory) (s : State) :
    let t := ({ s with dma := d } : State).setMem (dmaRam s) m
    t.dma = d ∧ t = { s with dma := t.dma, iram := t.iram, dram := t.dram } := by
  unfold dmaRam
  split <;> exact ⟨rfl, rfl⟩

/-- The slot that a copy into RAM wrote. -/
theorem slotAt_setMem_dmaRam {a : Nat} (h : RamAddr a) (m : Memory) (s u : State) :
    slotAt (u.setMem (dmaRam s) m) (s.dma.ctl.getLsbD 1) a = m.readHalf (2 * a) := by
  rw [slotAt, if_pos h]
  change ((u.setMem (dmaRam s) m).mem (dmaRam s)).readHalf (2 * a) = _
  rw [State.mem_setMem]

theorem dmaAddr_iff_ram (hdir : s.dma.ctl.getLsbD 0 = false) (a : Nat) : DmaAddr s a ↔ RamAddr a := by
  rw [DmaAddr, hdir]
  exact Iff.rfl

theorem dmaAddr_iff_readable (hdir : s.dma.ctl.getLsbD 0 = true) (a : Nat) :
    DmaAddr s a ↔ ReadableAddr (s.dma.ctl.getLsbD 1) a := by
  rw [DmaAddr, if_pos hdir]

/-- The copy of a checked DSBL write into DSP memory is `dmaCopy_in` from the state with the length stored. -/
theorem runDma_copiesIn (hwf : s.memWf = true) (hdir : s.dma.ctl.getLsbD 0 = false) (hlen : DmaLengthOk s v)
    (hram : ∀ k, k < v.toNat / 2 → RamAddr (s.dma.dspaddr.toNat + k)) : CopiesIn v s (.next (s.runDma v)) := by
  obtain ⟨m, hcopy, -, hslots, hbytes, -⟩ := dmaCopy_in (d := { s.dma with len := v })
    (s := { s with dma := { s.dma with len := v } }) hdir (mem_wf_of_memWf hwf (dmaRam s)) hram
  obtain ⟨hdma, hframe⟩ := setMem_dmaRam_frame { s.dma with len := v } m s
  have heven := hlen.1
  rw [runDma_ok hlen fun k hk => (dmaAddr_iff_ram hdir _).2 (hram k hk), hcopy]
  refine ⟨_, rfl, hdma, hframe, fun k hk => ?_, ?_⟩
  · exact (slotAt_setMem_dmaRam (hram k hk) m s _).trans (hslots k hk)
  · refine readByte_setMem_frame (s := { s with dma := { s.dma with len := v } }) fun a ha => hbytes a ?_
    dsimp only
    omega

/-- The copy of a checked DSBL write out of DSP memory is `dmaCopy_out` from the state with the length stored. -/
theorem runDma_copiesOut (hwf : s.memWf = true) (hdir : s.dma.ctl.getLsbD 0 = true) (hlen : DmaLengthOk s v)
    (hread : ∀ k, k < v.toNat / 2 → ReadableAddr (s.dma.ctl.getLsbD 1) (s.dma.dspaddr.toNat + k)) :
    CopiesOut v s (.next (s.runDma v)) := by
  obtain ⟨m, hcopy, -, hpairs, hbytes, -⟩ := dmaCopy_out (d := { s.dma with len := v })
    (s := { s with dma := { s.dma with len := v } }) hdir (mem_wf_of_memWf hwf .main) hread
  have heven := hlen.1
  rw [runDma_ok hlen fun k hk => (dmaAddr_iff_readable hdir _).2 (hread k hk), hcopy]
  refine ⟨_, rfl, rfl, rfl, hpairs, ?_⟩
  refine readByte_setMem_frame (r := .main) (s := { s with dma := { s.dma with len := v } }) fun a ha => hbytes a ?_
  dsimp only
  omega

end Copies

/-- Settles O33: a DSBL write by either port is `runDma`. -/
theorem dmaCopyIn : Obligations.DmaCopyIn := by
  unfold Obligations.DmaCopyIn
  intro s v hwf hdir hlen hram
  have hcopies := runDma_copiesIn hwf hdir hlen hram
  exact ⟨hcopies, hcopies⟩

/-- Settles O34: a DSBL write by either port is `runDma`. -/
theorem dmaCopyOut : Obligations.DmaCopyOut := by
  unfold Obligations.DmaCopyOut
  intro s v hwf hdir hlen hread
  have hcopies := runDma_copiesOut hwf hdir hlen hread
  exact ⟨hcopies, hcopies⟩

/-! ### The round trip (R309) -/

theorem byte_append_toNat (x y : Byte) : (x ++ y).toNat = x.toNat * 256 + y.toNat := by
  rw [BitVec.toNat_append, Nat.shiftLeft_eq, Nat.mul_comm]
  exact (Nat.two_pow_add_eq_or_of_lt y.isLt x.toNat).symm

/-- Settles O36: the copy into instruction RAM is that of O33, and a fetch there reads its slot. -/
theorem dmaRoundTrip : Obligations.DmaRoundTrip := by
  unfold Obligations.DmaRoundTrip
  intro s v hwf hctl hlen _ hfits
  have hram : ∀ k, k < v.toNat / 2 → RamAddr (s.dma.dspaddr.toNat + k) := fun k hk => by
    unfold RamAddr
    omega
  have himem : s.dma.ctl.getLsbD 1 = true := by rw [hctl]; rfl
  obtain ⟨t, hnext, -, -, hslots, -⟩ := runDma_copiesIn hwf (by rw [hctl]; rfl) hlen hram
  refine ⟨t, hnext, fun k hk => ?_⟩
  have hslot := hslots k hk
  have haddr : (s.dma.dspaddr + BitVec.ofNat 16 k).toNat = s.dma.dspaddr.toNat + k := by
    have hk' : s.dma.dspaddr.toNat + k < 0x1000 := hram k hk
    rw [BitVec.toNat_add, BitVec.toNat_ofNat]
    omega
  have hfetch := fetchSlot_ok (s := t) (a := s.dma.dspaddr + BitVec.ofNat 16 k) (haddr.symm ▸ .inl (hram k hk))
  rw [haddr, ← himem, hslot] at hfetch
  exact ⟨_, hfetch, byte_append_toNat _ _⟩

end Sys2Proof.Machine
end

section
/-! PROOFS. The accelerator (46_accelerator.md R330 to R342): a fetch and a write are each said once as an equation in the
format, the sample and the stream's advance, or as the fault they raise; the obligations are read off these equations. -/

namespace Sys2Proof.Machine

open Sys2Proof.Claim

/-! ### Accesses that are faults, and the read of ACDAT1 (R342) -/

theorem readWriteOnly_reads (r : IfxReg) (s : State) :
    let t := s.readWriteOnly r
    t.coreData = 0 ∧ t.log = s.log ++ [.writeOnlyRead (s.cfg.ifxMap.addr r)] ∧
      t = { s with coreData := t.coreData, log := t.log } ∧ SameBytes s t :=
  ⟨rfl, rfl, rfl, sameBytes_of_mems rfl rfl rfl rfl rfl⟩

/-- Settles O28: the map marks each of these accesses F, and a DSP read of ACDAT1 is that of a write-only register. -/
theorem acceleratorAccessRules : Obligations.AcceleratorAccessRules := by
  unfold Obligations.AcceleratorAccessRules
  refine ⟨rfl, rfl, fun s v => ?_⟩
  have host (w : Dir) (r : IfxReg) (h : Denied .host w r = true) :
      Faults (.accessDenied .host (s.cfg.ifxMap.addr r) w) s (exec (txnInstr .host w r v) s) := exec_denied h v s
  exact ⟨fun i => ⟨host .read (.coef i) rfl, host .write (.coef i) rfl⟩,
    host .read .fmt rfl, host .write .fmt rfl, host .read .acdat1 rfl, host .write .acdat1 rfl,
    host .read .acsah rfl, host .write .acsah rfl, host .read .acsal rfl, host .write .acsal rfl,
    host .read .aceah rfl, host .write .aceah rfl, host .read .aceal rfl, host .write .aceal rfl,
    host .read .accah rfl, host .write .accah rfl, host .read .accal rfl, host .write .accal rfl,
    host .read .ps rfl, host .write .ps rfl, host .read .yn1 rfl, host .write .yn1 rfl,
    host .read .yn2 rfl, host .write .yn2 rfl, host .read .acdat rfl, host .write .acdat rfl,
    host .read .gain rfl, host .write .gain rfl, exec_denied (p := .dsp) (w := .write) (r := .acdat) rfl v s,
    _, rfl, readWriteOnly_reads .acdat1 s⟩

/-! ### The descriptor (R330, R332; 10_state.md R42) -/

theorem setAccel_sets (a : Accel) (s : State) : SetsAccel a s (.next { s with accel := a }) :=
  ⟨_, rfl, rfl, rfl, sameBytes_of_mems rfl rfl rfl rfl rfl⟩

theorem coefAt_putCoef (a : Accel) (i j : BitVec 4) (v : BitVec 16) :
    (a.putCoef i v).coefAt j = if j = i then v else a.coefAt j := by
  simp only [Accel.coefAt, Accel.putCoef, Vector.getElem_set, BitVec.toNat_inj, eq_comm]

/-- Settles O37: each write stores a descriptor with one field, or one coefficient, replaced. -/
theorem accelDescriptorWrites : Obligations.AccelDescriptorWrites := by
  unfold Obligations.AccelDescriptorWrites
  intro s v
  simp only [← putHigh_eq, ← putLow_eq]
  refine ⟨fun i => ⟨_, rfl, rfl, fun j => coefAt_putCoef s.accel i j v, rfl, sameBytes_of_mems rfl rfl rfl rfl rfl⟩, ?_⟩
  exact ⟨setAccel_sets _ s, setAccel_sets _ s, setAccel_sets _ s, setAccel_sets _ s, setAccel_sets _ s,
    setAccel_sets _ s, setAccel_sets _ s, setAccel_sets _ s, setAccel_sets _ s, setAccel_sets _ s, setAccel_sets _ s⟩

/-- Settles O38: each read gives the core a stored field or a half of one. -/
theorem accelDescriptorReads : Obligations.AccelDescriptorReads := by
  unfold Obligations.AccelDescriptorReads
  intro s
  simp only [← highHalf_eq, ← lowHalf_eq]
  exact ⟨fun i => toCore_returns _ s, toCore_returns _ s, toCore_returns _ s, toCore_returns _ s, toCore_returns _ s,
    toCore_returns _ s, toCore_returns _ s, toCore_returns _ s, toCore_returns _ s, toCore_returns _ s,
    toCore_returns _ s, toCore_returns _ s⟩

/-! ### The decoder's history (R339) -/

/-- What the decoder keeps from one sample to the next: yn1, yn2 and ps. -/
def Accel.history (a : Accel) : BitVec 16 × BitVec 16 × BitVec 16 := (a.yn1, a.yn2, a.ps)

theorem Accel.history_ne_iff (a b : Accel) :
    a.history ≠ b.history ↔ a.yn1 ≠ b.yn1 ∨ a.yn2 ≠ b.yn2 ∨ a.ps ≠ b.ps := by
  simp only [Accel.history, ne_eq, Prod.mk.injEq, not_and_or]

/-! Operations that leave the accelerator alone. -/

theorem State.writeReg_accel (r : Reg) (v : BitVec 16) (s : State) : (s.writeReg r v).accel = s.accel := by
  unfold State.writeReg
  split
  case h_2 d => split <;> exact State.setAcc_accel d _ s
  case h_1 d | h_3 d => exact State.setAcc_accel d _ s
  case h_4 x | h_5 x => exact State.setAx_accel x _ s
  all_goals rfl

theorem State.sendHigh_accel (m : MailboxId) (v : BitVec 16) (s : State) : (s.sendHigh m v).accel = s.accel := by
  cases m
  · rw [State.sendHigh_cmb]
  · rw [State.sendHigh_dmb]

theorem State.sendLow_accel (m : MailboxId) (v : BitVec 16) (s : State) : (s.sendLow m v).accel = s.accel := by
  cases m
  · rw [State.sendLow_cmb]
  · rw [State.sendLow_dmb]

theorem State.requestHostIrq_accel (v : BitVec 16) (s : State) : (s.requestHostIrq v).accel = s.accel := by
  rw [State.requestHostIrq_eq]

theorem State.unknownAccess_accel (p : Port) (w : Dir) (a : BitVec 16) (s : State) :
    (s.unknownAccess p w a).accel = s.accel := by
  unfold State.unknownAccess
  split
  · cases w with
    | read => cases p <;> rfl
    | write => rfl
  · rfl

theorem State.runDma_accel (v : BitVec 16) (s : State) : (s.runDma v).accel = s.accel := by
  rcases runDma_cases v s with ⟨f, h⟩ | ⟨_, _, _, h, -⟩
  · rw [h, State.raise_accel]
  · rw [h]

/-! The accelerator's own operations: of these only a fetch in the ADPCM format may change the history. -/

theorem State.advanceStream_history (f : Format) (w : Dir) (pre a : BitVec 32) (s : State) :
    (s.advanceStream f w pre a).accel.history = s.accel.history := by
  rw [advanceStream_eq]
  split <;> rfl

theorem State.writeSample_history (v : BitVec 16) (s : State) : (s.writeSample v).accel.history = s.accel.history := by
  rcases writeSample_cases v s with ⟨f, h⟩ | ⟨f, m, h, -⟩ <;> rw [h]
  · rfl
  · exact State.advanceStream_history f .write _ _ _

theorem eq_codeOf_of_fmtOf {c : FmtCodes} {x : BitVec 16} {f : Format} (h : fmtOf c x = some f) : x = codeOf c f := by
  unfold fmtOf at h
  split_ifs at h <;> cases h <;> assumption

theorem State.fetchSample_history (s : State) :
    s.fetchSample.accel.history = s.accel.history ∨ s.accel.fmt = s.cfg.fmtCode.adpcm4 := by
  rcases fetchSample_cases s with ⟨f, h⟩ | ⟨f, y, v, pre, a, h, -, hf, hy⟩ <;> rw [h]
  · exact .inl rfl
  · by_cases hadpcm : f = .adpcm4
    · exact .inr (eq_codeOf_of_fmtOf (hadpcm ▸ hf))
    · exact .inl (hy hadpcm ▸ State.advanceStream_history f .read pre a { s with accel := y })

/-- Instruction by instruction: the history is kept, or the instruction is one of R339's four. -/
theorem exec_history {s t : State} (i : Instr) (h : exec i s = .next t) :
    t.accel.history = s.accel.history ∨ (i = .rdDAcdat ∧ s.accel.fmt = s.cfg.fmtCode.adpcm4) ∨
      (∃ v, i = .wrDYn1 v) ∨ (∃ v, i = .wrDYn2 v) ∨ ∃ v, i = .wrDPs v := by
  have keeps {a : Accel} (ha : a = s.accel) : a.history = s.accel.history := congrArg Accel.history ha
  cases i with
  | rdDAcdat => cases h; exact s.fetchSample_history.imp_right fun hfmt => .inl ⟨rfl, hfmt⟩
  | wrDYn1 v => exact .inr (.inr (.inl ⟨v, rfl⟩))
  | wrDYn2 v => exact .inr (.inr (.inr (.inl ⟨v, rfl⟩)))
  | wrDPs v => exact .inr (.inr (.inr (.inr ⟨v, rfl⟩)))
  | wrDAcdat1 v => cases h; exact .inl (s.writeSample_history v)
  | wrDDsbl v | wrHDsbl v => cases h; exact .inl (keeps (s.runDma_accel v))
  | wrHCmbh v | wrDDmbh v => cases h; exact .inl (keeps (s.sendHigh_accel _ v))
  | wrHCmbl v | wrDDmbl v => cases h; exact .inl (keeps (s.sendLow_accel _ v))
  | wrDDirq v => cases h; exact .inl (keeps (s.requestHostIrq_accel v))
  | unknownD w lo v | unknownH w lo v => cases h; exact .inl (keeps (s.unknownAccess_accel _ w _))
  | wreg r v => cases h; exact .inl (keeps (s.writeReg_accel r v))
  | clr | add | addr | addax | addp | addi | addis | sub | subr | subax | subp | inc | dec | incm | decm | neg | abs | mov
  | movr | movax | movp | movnp | andr | orr | xorr | andc | orc | xorc | andi | ori | xori | not | lsl | lsr | asl | asr
  | lsl16 | lsr16 | asr16 | mulac | mulmv => cases h; exact .inl (keeps (State.setAcc_accel _ _ s))
  | _ => cases h; exact .inl rfl

/-- Settles O43: `exec_history`, with the history taken apart. -/
theorem historyChangesOnlyByAdpcm : Obligations.HistoryChangesOnlyByAdpcm := by
  unfold Obligations.HistoryChangesOnlyByAdpcm
  exact fun i s t h hne => (exec_history i h).resolve_left ((Accel.history_ne_iff t.accel s.accel).2 hne)

/-! ### The stream and its frame (R334, R340, R341) -/

section Streams

variable {s : State} {f : Format} {v : BitVec 16}

/-- The advance changes the pointer, the pending overflow and the log alone. -/
theorem advanceStream_frame (f : Format) (w : Dir) (pre a : BitVec 32) (s : State) :
    let t := s.advanceStream f w pre a
    t = { s with
          accel := { s.accel with cur := t.accel.cur, ovfPending := t.accel.ovfPending, ovfVector := t.accel.ovfVector }
          log := t.log } := by
  rw [advanceStream_eq]
  split <;> rfl

theorem advanceStream_sameBytes (f : Format) (w : Dir) (pre a : BitVec 32) (s : State) :
    SameBytes s (s.advanceStream f w pre a) := by
  rw [advanceStream_eq]
  split <;> exact sameBytes_of_mems rfl rfl rfl rfl rfl

/-! The format the descriptor selects, where its code is that of one format or of one of two. -/

theorem fmtOf_accel (hcodes : CodesDistinct s.cfg.fmtCode) (hfmt : s.accel.fmt = codeOf s.cfg.fmtCode f) :
    fmtOf s.cfg.fmtCode s.accel.fmt = some f :=
  hfmt ▸ fmtOf_code hcodes f

theorem fmtOf_accel_or {g : Format} (hcodes : CodesDistinct s.cfg.fmtCode)
    (hfmt : s.accel.fmt = codeOf s.cfg.fmtCode f ∨ s.accel.fmt = codeOf s.cfg.fmtCode g) :
    ∃ k, (k = f ∨ k = g) ∧ fmtOf s.cfg.fmtCode s.accel.fmt = some k :=
  hfmt.elim (fun h => ⟨f, .inl rfl, fmtOf_accel hcodes h⟩) fun h => ⟨g, .inr rfl, fmtOf_accel hcodes h⟩

theorem ne_adpcm4_of_byte (h8 : f = .raw8 ∨ f = .pcm8) : f ≠ .adpcm4 := by rcases h8 with rfl | rfl <;> nofun

theorem ne_adpcm4_of_pair (h16 : f = .raw16 ∨ f = .pcm16) : f ≠ .adpcm4 := by rcases h16 with rfl | rfl <;> nofun

theorem exec_rdDAcdat (s : State) : exec .rdDAcdat s = .next s.fetchSample := rfl

theorem exec_wrDAcdat1 (v : BitVec 16) (s : State) : exec (.wrDAcdat1 v) s = .next (s.writeSample v) := rfl

/-! ### The fetch (R334 to R336) -/

/-- A fetch whose header and sample are read: the descriptor they leave, advanced, and the sample to the core. -/
theorem fetchSample_ok {x y : Accel} (hf : fmtOf s.cfg.fmtCode s.accel.fmt = some f) (hx : s.loadHeader f = .ok x)
    (hy : s.sampleAt f x = .ok (v, y)) :
    s.fetchSample = (({ s with accel := y }).advanceStream f .read s.accel.cur x.cur).toCore v := by
  simp only [State.fetchSample, hf, hx, hy]

theorem loadHeader_of_ne (hf : f ≠ .adpcm4) : s.loadHeader f = .ok s.accel := by
  rw [State.loadHeader, if_neg fun h => hf h.1]

theorem fetchSample_streams {P : BitVec 16 → Prop} (hf : fmtOf s.cfg.fmtCode s.accel.fmt = some f) (hne : f ≠ .adpcm4)
    (hsample : s.sampleAt f s.accel = .ok (v, s.accel)) (hP : P v) : Streams P s (.next s.fetchSample) := by
  have hid : overflowId s.cfg.excId f .read = s.cfg.excId.rawReadOvf := if_neg hne
  rw [fetchSample_ok hf (loadHeader_of_ne hne) hsample]
  refine ⟨_, rfl, hP, hid ▸ advanceStream_after s s.accel v f .read _ _ rfl rfl rfl rfl, ?_, ?_⟩
  · exact congrArg (State.toCore v) (advanceStream_frame f .read s.accel.cur s.accel.cur s)
  · exact advanceStream_sameBytes f .read s.accel.cur s.accel.cur s

theorem sampleAt_raw8 (h : s.accel.cur.toNat + 1 ≤ s.cfg.mainMemSize) :
    s.sampleAt .raw8 s.accel = .ok ((mainAt s s.accel.cur.toNat).setWidth 16, s.accel) := by
  simp only [State.sampleAt, mainByte_ok h]

theorem sampleAt_pcm8 (h : s.accel.cur.toNat + 1 ≤ s.cfg.mainMemSize) :
    s.sampleAt .pcm8 s.accel =
      .ok (pcmScale s.cfg ((mainAt s s.accel.cur.toNat).toInt * 256) s.accel.gain, s.accel) := by
  simp only [State.sampleAt, mainByte_ok h]

theorem sampleAt_raw16 (h : pairAddr s + 2 ≤ s.cfg.mainMemSize) :
    s.sampleAt .raw16 s.accel = .ok (mainPair s (pairAddr s), s.accel) := by
  simp only [State.sampleAt, wordAddr_pair, mainHalf_ok h]

theorem sampleAt_pcm16 (h : pairAddr s + 2 ≤ s.cfg.mainMemSize) :
    s.sampleAt .pcm16 s.accel = .ok (pcmScale s.cfg (mainPair s (pairAddr s)).toInt s.accel.gain, s.accel) := by
  simp only [State.sampleAt, wordAddr_pair, mainHalf_ok h]

end Streams

/-- Settles O39: in each format the sample is read at the pointer, and the stream advances from there. -/
theorem fetchRawAndPcm : Obligations.FetchRawAndPcm := by
  unfold Obligations.FetchRawAndPcm
  intro s hcodes
  have streams {f : Format} {v : BitVec 16} {P : BitVec 16 → Prop} (hfmt : s.accel.fmt = codeOf s.cfg.fmtCode f)
      (hne : f ≠ .adpcm4) (hsample : s.sampleAt f s.accel = .ok (v, s.accel)) (hP : P v) :
      Streams P s (exec .rdDAcdat s) := fetchSample_streams (fmtOf_accel hcodes hfmt) hne hsample hP
  refine ⟨fun hfmt hin => ?_, fun hfmt hin => ?_, fun hfmt hin hscale => ?_, fun hfmt hin hscale => ?_⟩
  · exact streams hfmt nofun (sampleAt_raw8 hin) (BitVec.toNat_setWidth_of_le (by decide))
  · exact streams hfmt nofun (sampleAt_raw16 hin) rfl
  · exact streams hfmt nofun (sampleAt_pcm8 hin) (pcmScale_standard hscale _ _)
  · exact streams hfmt nofun (sampleAt_pcm16 hin) (pcmScale_standard hscale _ _)

/-! ### The ADPCM fetch (R334, R337, R338) -/

section Adpcm

variable {s : State}

/-- The descriptor past the frame header, as the decoder sees it. -/
def decoderAt (s : State) : Accel := { s.accel with ps := psAt s, cur := nibbleAddr s }

/-- The sample of the default decoder, as a word. -/
def adpcmWord (s : State) : BitVec 16 :=
  let k := (psAt s).extractLsb' 4 3
  adpcmSample (nibbleAt s) (psAt s) (s.accel.coefAt (k ++ 0#1)) (s.accel.coefAt (k ++ 1#1)) s.accel.yn1 s.accel.yn2

/-- The descriptor after the decode: the sample is the new yn1, the old yn1 the new yn2. -/
def decodedAt (s : State) : Accel := { decoderAt s with yn1 := adpcmWord s, yn2 := s.accel.yn1 }

theorem scale_toNat (ps : BitVec 16) : (ps.extractLsb' 0 4).toNat = ps.toNat % 16 := by
  rw [BitVec.extractLsb'_toNat, Nat.shiftRight_zero]

theorem adpcmWord_toInt (s : State) : (adpcmWord s).toInt = adpcmValue s := by
  simp only [adpcmWord, adpcmSample, pairIndex_zero, pairIndex_one, scale_toNat]
  exact ofInt_clamp _ (by decide) (by decide) (by decide)

theorem adpcmDecode_standard (h : s.cfg.adpcmDecode = .standard) :
    adpcmDecode s.cfg (nibbleAt s) (decoderAt s) = (adpcmWord s, adpcmWord s, s.accel.yn1) := by
  rw [adpcmDecode, h]
  rfl

theorem sampleAt_adpcm4 (hstd : s.cfg.adpcmDecode = .standard) (hin : (nibbleAddr s).toNat / 2 + 1 ≤ s.cfg.mainMemSize) :
    s.sampleAt .adpcm4 (decoderAt s) = .ok (adpcmWord s, decodedAt s) := by
  have hbyte : s.mainByte ((decoderAt s).cur >>> 1).toNat = .ok (mainAt s ((nibbleAddr s).toNat / 2)) := by
    rw [half_toNat]
    exact mainByte_ok hin
  have hnibble : nibbleOf (decoderAt s).cur (mainAt s ((nibbleAddr s).toNat / 2)) = nibbleAt s := nibbleOf_eq s
  simp only [State.sampleAt, hbyte, hnibble, adpcmDecode_standard hstd, decodedAt]

theorem advanceStream_onlyAdpcm (f : Format) (w : Dir) (v : BitVec 16) (pre a : BitVec 32) (s : State) :
    let t := (({ s with accel := decodedAt s }).advanceStream f w pre a).toCore v
    t.accel.yn1 = adpcmWord s ∧ t.accel.yn2 = s.accel.yn1 ∧ t.accel.ps = psAt s ∧ OnlyAdpcm s t := by
  intro t
  subst t
  rw [advanceStream_eq]
  split <;> exact ⟨rfl, rfl, rfl, rfl, sameBytes_of_mems rfl rfl rfl rfl rfl⟩

end Adpcm

/-- Settles O40: the header, the nibble and the sample are read, and the stream advances from the nibble. -/
theorem fetchAdpcm : Obligations.FetchAdpcm := by
  unfold Obligations.FetchAdpcm
  intro s hcodes hfmt hstd hheader hnibble
  have hfetch := fetchSample_ok (fmtOf_accel hcodes hfmt) (loadHeader_ok hheader) (sampleAt_adpcm4 hstd hnibble)
  obtain ⟨hyn1, hyn2, hps, honly⟩ := advanceStream_onlyAdpcm .adpcm4 .read (adpcmWord s) s.accel.cur (nibbleAddr s) s
  exact ⟨_, congrArg Host.Outcome.next hfetch, adpcmWord_toInt s, hyn1, hyn2, hps,
    advanceStream_after s _ _ _ .read _ _ rfl rfl rfl rfl, honly⟩

/-! ### The raw write (R341) -/

section Writes

variable {s : State} {f : Format} {m : Memory} {v : BitVec 16}

theorem setMainByte_ok {a : Nat} (h : a + 1 ≤ s.cfg.mainMemSize) (b : Byte) :
    s.setMainByte a b = .ok { s with main := s.main.write a b } := by
  rw [State.setMainByte, if_neg (Nat.not_lt.2 h)]

theorem setMainByte_error {a : Nat} (h : s.cfg.mainMemSize < a + 1) (b : Byte) :
    s.setMainByte a b = .error (.mainOutOfRange a 1) := by
  rw [State.setMainByte, if_pos h]

theorem setMainHalf_ok {a : Nat} (h : a + 2 ≤ s.cfg.mainMemSize) (w : BitVec 16) :
    s.setMainHalf a w = .ok { s with main := s.main.writeHalf a w } := by
  rw [State.setMainHalf, if_neg (Nat.not_lt.2 h)]

theorem setMainHalf_error {a : Nat} (h : s.cfg.mainMemSize < a + 2) (w : BitVec 16) :
    s.setMainHalf a w = .error (.mainOutOfRange a 2) := by
  rw [State.setMainHalf, if_pos h]

/-- A write in an 8-bit format stores the low byte at the pointer. -/
theorem writeSample_byte (hf : fmtOf s.cfg.fmtCode s.accel.fmt = some f) (h8 : f = .raw8 ∨ f = .pcm8)
    (hin : s.accel.cur.toNat + 1 ≤ s.cfg.mainMemSize) :
    s.writeSample v =
      ({ s with main := s.main.write s.accel.cur.toNat (v.extractLsb' 0 8) }).advanceStream f .write s.accel.cur
        s.accel.cur := by
  rcases h8 with rfl | rfl <;> simp only [State.writeSample, hf, setMainByte_ok hin]

/-- A write in a 16-bit format stores the pair at twice the pointer. -/
theorem writeSample_pair (hf : fmtOf s.cfg.fmtCode s.accel.fmt = some f) (h16 : f = .raw16 ∨ f = .pcm16)
    (hin : pairAddr s + 2 ≤ s.cfg.mainMemSize) :
    s.writeSample v =
      ({ s with main := s.main.writeHalf (pairAddr s) v }).advanceStream f .write s.accel.cur s.accel.cur := by
  rcases h16 with rfl | rfl <;> simp only [State.writeSample, hf, wordAddr_pair, setMainHalf_ok hin]

/-- The new main memory `m` differs from the old in the `n` bytes from `a` on, and the stream advances. -/
theorem advanceStream_storesSample {a n : Nat} {bytes : State → Prop} (hne : f ≠ .adpcm4)
    (hbytes : ∀ t : State, SameBytes { s with main := m } t → bytes t)
    (hother : ∀ b, ¬(a ≤ b ∧ b < a + n) → m.read b = s.main.read b) :
    StoresSample a n bytes s
      (.next (({ s with main := m }).advanceStream f .write s.accel.cur s.accel.cur)) := by
  have hid : overflowId s.cfg.excId f .write = s.cfg.excId.rawWriteOvf := if_neg hne
  have hsame := advanceStream_sameBytes f .write s.accel.cur s.accel.cur { s with main := m }
  refine ⟨_, rfl, hbytes _ hsame, fun q b hqb => ?_, ?_, ?_⟩
  · rw [hsame]
    exact readByte_setMem_frame (r := .main) (s := s) hother q b hqb
  · exact hid ▸ advanceStream_after { s with main := m } s.accel 0 f .write _ _ rfl rfl rfl rfl
  · rw [advanceStream_eq]
    split <;> rfl

end Writes

/-- Settles O41: the byte or the pair is stored, and the stream advances. -/
theorem rawWriteStoresSample : Obligations.RawWriteStoresSample := by
  unfold Obligations.RawWriteStoresSample
  intro s v hwf hcodes
  have hmain : s.main.wf = true := mem_wf_of_memWf hwf .main
  refine ⟨fun hfmt hin => ?_, fun hfmt hin => ?_⟩
  · obtain ⟨f, h8, hf⟩ := fmtOf_accel_or hcodes hfmt
    rw [exec_wrDAcdat1, writeSample_byte hf h8 hin]
    refine advanceStream_storesSample (ne_adpcm4_of_byte h8) (fun t ht => ?_) fun b hb => ?_
    · rw [mainAt, ht]
      exact (congrArg BitVec.toNat (Memory.read_write_same hmain _ _)).trans (BitVec.extractLsb'_toNat 0 8 v)
    · exact Memory.read_write_other _ _ (by omega)
  · obtain ⟨f, h16, hf⟩ := fmtOf_accel_or hcodes hfmt
    rw [exec_wrDAcdat1, writeSample_pair hf h16 hin]
    refine advanceStream_storesSample (ne_adpcm4_of_pair h16) (fun t ht => ?_) fun b hb => ?_
    · rw [mainPair, mainAt, mainAt, ht, ht]
      exact Memory.readHalf_writeHalf_same hmain _ _
    · exact Memory.read_writeHalf_other _ _ (by omega) (by omega)

/-! ### The faults (R334, R341; 20_memory.md R80, R81) -/

section Faults

variable {s : State} {f : Format} {x : Accel} {v : BitVec 16} {e : Fault}

theorem fetchSample_faults_of_format (h : fmtOf s.cfg.fmtCode s.accel.fmt = none) :
    Faults (.unknownFormat s.accel.fmt) s (exec .rdDAcdat s) := by
  simp only [exec_rdDAcdat, State.fetchSample, h]
  rfl

theorem fetchSample_faults_of_header (hf : fmtOf s.cfg.fmtCode s.accel.fmt = some f) (h : s.loadHeader f = .error e) :
    Faults e s (exec .rdDAcdat s) := by
  simp only [exec_rdDAcdat, State.fetchSample, hf, h]
  rfl

theorem fetchSample_faults_of_sample (hf : fmtOf s.cfg.fmtCode s.accel.fmt = some f) (hx : s.loadHeader f = .ok x)
    (h : s.sampleAt f x = .error e) : Faults e s (exec .rdDAcdat s) := by
  simp only [exec_rdDAcdat, State.fetchSample, hf, hx, h]
  rfl

/-- The first access of an ADPCM fetch is the header's at a frame start, the nibble's elsewhere. -/
theorem fetchSample_faults_of_adpcm4 (hf : fmtOf s.cfg.fmtCode s.accel.fmt = some .adpcm4)
    (hout : s.cfg.mainMemSize < s.accel.cur.toNat / 2 + 1) :
    Faults (.mainOutOfRange (s.accel.cur.toNat / 2) 1) s (exec .rdDAcdat s) := by
  have hbyte : s.mainByte (s.accel.cur >>> 1).toNat = .error (.mainOutOfRange (s.accel.cur.toNat / 2) 1) := by
    rw [half_toNat, mainByte_error hout]
  by_cases hstart : s.accel.cur.extractLsb' 0 4 = 0
  · refine fetchSample_faults_of_header hf ?_
    rw [State.loadHeader, if_pos ⟨rfl, hstart⟩, hbyte]
  · refine fetchSample_faults_of_sample (x := s.accel) hf ?_ ?_
    · rw [State.loadHeader, if_neg fun h => hstart h.2]
    · rw [State.sampleAt, hbyte]

theorem writeSample_faults_of_format (h : fmtOf s.cfg.fmtCode s.accel.fmt = none) :
    Faults (.unknownFormat s.accel.fmt) s (exec (.wrDAcdat1 v) s) := by
  simp only [exec_wrDAcdat1, State.writeSample, h]
  rfl

theorem writeSample_faults_of_adpcm4 (hf : fmtOf s.cfg.fmtCode s.accel.fmt = some .adpcm4) :
    Faults .accelAdpcmWrite s (exec (.wrDAcdat1 v) s) := by
  simp only [exec_wrDAcdat1, State.writeSample, hf]
  rfl

/-- In an 8-bit format a fetch and a write access the byte at the pointer. -/
theorem faults_of_byte (hf : fmtOf s.cfg.fmtCode s.accel.fmt = some f) (h8 : f = .raw8 ∨ f = .pcm8)
    (hout : s.cfg.mainMemSize < s.accel.cur.toNat + 1) :
    Faults (.mainOutOfRange s.accel.cur.toNat 1) s (exec .rdDAcdat s) ∧
      Faults (.mainOutOfRange s.accel.cur.toNat 1) s (exec (.wrDAcdat1 v) s) := by
  constructor
  · refine fetchSample_faults_of_sample hf (loadHeader_of_ne (ne_adpcm4_of_byte h8)) ?_
    rcases h8 with rfl | rfl <;> rw [State.sampleAt, mainByte_error hout]
  · rcases h8 with rfl | rfl <;> simp only [exec_wrDAcdat1, State.writeSample, hf, setMainByte_error hout] <;> rfl

/-- In a 16-bit format a fetch and a write access the pair at twice the pointer. -/
theorem faults_of_pair (hf : fmtOf s.cfg.fmtCode s.accel.fmt = some f) (h16 : f = .raw16 ∨ f = .pcm16)
    (hout : s.cfg.mainMemSize < pairAddr s + 2) :
    Faults (.mainOutOfRange (pairAddr s) 2) s (exec .rdDAcdat s) ∧
      Faults (.mainOutOfRange (pairAddr s) 2) s (exec (.wrDAcdat1 v) s) := by
  constructor
  · refine fetchSample_faults_of_sample hf (loadHeader_of_ne (ne_adpcm4_of_pair h16)) ?_
    rcases h16 with rfl | rfl <;> rw [State.sampleAt, wordAddr_pair, mainHalf_error hout]
  · rcases h16 with rfl | rfl <;>
      simp only [exec_wrDAcdat1, State.writeSample, hf, wordAddr_pair, setMainHalf_error hout] <;> rfl

end Faults

/-- Settles O42: format by format, the first check that fails raises its fault. -/
theorem acceleratorFaults : Obligations.AcceleratorFaults := by
  unfold Obligations.AcceleratorFaults
  intro s v hcodes
  refine ⟨fun hnone => ?_, fun hadpcm => ?_, fun hfmt hout => ?_, fun hfmt hout => ?_⟩
  · have hf := fmtOf_none hnone
    exact ⟨fetchSample_faults_of_format hf, writeSample_faults_of_format hf⟩
  · have hf := fmtOf_accel hcodes hadpcm
    exact ⟨writeSample_faults_of_adpcm4 hf, fetchSample_faults_of_adpcm4 hf⟩
  · obtain ⟨f, h8, hf⟩ := fmtOf_accel_or hcodes hfmt
    exact faults_of_byte hf h8 hout
  · obtain ⟨f, h16, hf⟩ := fmtOf_accel_or hcodes hfmt
    exact faults_of_pair hf h16 hout

end Sys2Proof.Machine
end

section
/-! PROOFS. Exceptions (60_exceptions.md R373, R378 to R381, R383, R385, R386): exception entry and its masks, the return
from an exception, the soft reset, the host's requests, and the step that raises a fault. -/

namespace Sys2Proof.Machine

open Sys2Proof.Claim

section Entry

variable {s t : State} {src : ExcSource} {id : BitVec 3} {rest : List Event}

/-! ### Exception entry (R380, R381) -/

theorem admitted_overflow (ho : OverflowDue s)
    (hlower : InterruptDue s → s.accel.ovfVector.toNat < s.cfg.excId.int.toNat) :
    s.admitted = some (.overflow, s.accel.ovfVector) := by
  have hnot : ¬(s.interruptAdmitted && decide (s.cfg.excId.int.toNat < s.accel.ovfVector.toNat)) = true := by
    rw [Bool.and_eq_true, decide_eq_true_eq, interruptAdmitted_iff]
    rintro ⟨hi, hlt⟩
    exact Nat.lt_asymm hlt (hlower hi)
  rw [State.admitted, if_pos ((overflowAdmitted_iff s).2 ho), if_neg hnot]

theorem admitted_interrupt (hi : InterruptDue s)
    (hlower : OverflowDue s → s.cfg.excId.int.toNat < s.accel.ovfVector.toNat) :
    s.admitted = some (.interrupt, s.cfg.excId.int) := by
  have hint := (interruptAdmitted_iff s).2 hi
  by_cases ho : OverflowDue s
  · rw [State.admitted, if_pos ((overflowAdmitted_iff s).2 ho), hint, decide_eq_true (hlower ho)]
    rfl
  · rw [State.admitted, if_neg (mt (overflowAdmitted_iff s).1 ho), if_pos hint]

/-- With a source due one is admitted, of two equal ids the overflow (log 19). -/
theorem admitted_of_due (h : OverflowDue s ∨ InterruptDue s) : ∃ src id, s.admitted = some (src, id) := by
  by_cases ho : OverflowDue s
  · rw [State.admitted, if_pos ((overflowAdmitted_iff s).2 ho)]
    split <;> exact ⟨_, _, rfl⟩
  · exact ⟨_, _, admitted_interrupt (h.resolve_left ho) fun h => absurd h ho⟩

/-- The core's turn with an exception admitted and no soft reset due. -/
theorem step_admitted (hturn : CoreTurn s rest) (hreset : ¬SoftResetDue s) (hadmitted : s.admitted = some (src, id)) :
    step s =
      andNext (andNext (.next (s.takeException src id)) fun t => .next t.tick)
        fun t => .next { t with schedule := rest } := by
  rw [step_core hturn, State.coreStep, coreHeld_turn hturn, if_neg Bool.false_ne_true,
    if_neg (mt (softReset_due_iff s).1 hreset), hadmitted]

/-- The state after a core step that entered exception `id` from `src` with room on both stacks. -/
def Entered (src : ExcSource) (id : BitVec 3) (s : State) (rest : List Event) : State :=
  { (s.takeException src id).tick with schedule := rest }

theorem step_enters (hturn : CoreTurn s rest) (hreset : ¬SoftResetDue s) (hcall : HasRoom s.cfg s.callStack)
    (hdata : HasRoom s.cfg s.dataStack) (hadmitted : s.admitted = some (src, id)) :
    step s = .next (Entered src id s rest) := by
  have hf : (s.takeException src id).fault = none := by
    rw [takeException_ok hcall hdata]
    cases src <;> exact hturn.1
  rw [step_admitted hturn hreset hadmitted, andNext_ok hf, andNext_ok (by exact hf)]
  rfl

theorem step_entry_full (hturn : CoreTurn s rest) (hreset : ¬SoftResetDue s) (hadmitted : s.admitted = some (src, id))
    (hfull : ¬HasRoom s.cfg s.callStack ∨ ¬HasRoom s.cfg s.dataStack) : Faults .stackOverflow s (step s) := by
  rw [step_admitted hturn hreset hadmitted, takeException_full hfull]
  rfl

/-- Entry leaves SR alone, or clears the one enable of its source (R381). -/
theorem entrySr_spec (c : Config) (id : BitVec 3) (sr : BitVec 16) :
    if c.entryClearsEnable then OnlyBit sr (entrySr c id sr) (if id = c.excId.int then 11 else 9) false
    else entrySr c id sr = sr := by
  unfold entrySr
  cases c.entryClearsEnable
  · rfl
  · by_cases hid : id = c.excId.int
    · simp only [if_pos hid]
      exact srPut_onlyBit sr .eie false
    · simp only [if_neg hid]
      exact srPut_onlyBit sr .ie false

/-- What the two sources share, and what each of them clears. -/
theorem entered_spec (hcall : HasRoom s.cfg s.callStack) (hdata : HasRoom s.cfg s.dataStack) (src : ExcSource)
    (id : BitVec 3) (rest : List Event) :
    let t := Entered src id s rest
    Enters id s t ∧ t.schedule = rest ∧
      match src with
      | .overflow => t.accel.ovfPending = false ∧ t.intPending = s.intPending
      | .interrupt => t.intPending = false ∧ t.accel.ovfPending = s.accel.ovfPending := by
  dsimp only
  rw [Entered, takeException_ok hcall hdata, tick_eq]
  cases src <;>
    exact ⟨⟨rfl, rfl, vectorOf_toNat id, entrySr_spec s.cfg id s.alu.sr, rfl, rfl,
      sameBytes_of_mems rfl rfl rfl rfl rfl, rfl⟩, rfl, rfl, rfl⟩

end Entry

/-- Settles O48: the lower id is the one admitted, and its entry pushes or overflows. -/
theorem exceptionEntry : Obligations.ExceptionEntry := by
  unfold Obligations.ExceptionEntry
  intro s rest hturn hreset
  refine ⟨fun hcall hdata => ⟨fun ho hlower => ?_, fun hi hlower => ?_⟩, fun hdue hfull => ?_⟩
  · obtain ⟨henters, hsched, hcleared, hkept⟩ := entered_spec hcall hdata .overflow s.accel.ovfVector rest
    exact ⟨_, step_enters hturn hreset hcall hdata (admitted_overflow ho hlower), henters, hcleared, hkept, hsched⟩
  · obtain ⟨henters, hsched, hcleared, hkept⟩ := entered_spec hcall hdata .interrupt s.cfg.excId.int rest
    exact ⟨_, step_enters hturn hreset hcall hdata (admitted_interrupt hi hlower), henters, hcleared, hkept, hsched⟩
  · obtain ⟨src, id, hadmitted⟩ := admitted_of_due hdue
    exact step_entry_full hturn hreset hadmitted hfull

section Pending

variable {s t u : State}

/-! ### What an instruction leaves pending (R376, R378) -/

/-- From `s` to `t` the external interrupt is as before and a pending overflow stays pending. -/
structure KeepsPending (s t : State) : Prop where
  interrupt : t.intPending = s.intPending
  overflow : s.accel.ovfPending = true → t.accel.ovfPending = true

theorem KeepsPending.of_same (hinterrupt : t.intPending = s.intPending)
    (hoverflow : t.accel.ovfPending = s.accel.ovfPending) : KeepsPending s t :=
  ⟨hinterrupt, hoverflow.trans⟩

theorem KeepsPending.trans (h1 : KeepsPending s t) (h2 : KeepsPending t u) : KeepsPending s u :=
  ⟨h2.interrupt.trans h1.interrupt, fun h => h2.overflow (h1.overflow h)⟩

theorem advanceStream_ovfPending (f : Format) (w : Dir) (pre a : BitVec 32) (h : s.accel.ovfPending = true) :
    (s.advanceStream f w pre a).accel.ovfPending = true := by
  rw [advanceStream_eq]
  split
  · rfl
  · exact h

theorem fetchSample_ovfPending (h : s.accel.ovfPending = true) : s.fetchSample.accel.ovfPending = true := by
  rcases fetchSample_cases s with ⟨f, hf⟩ | ⟨f, y, v, pre, a, hf, hy, -⟩ <;> rw [hf]
  · exact h
  · have hload : y.ovfPending = true := by rw [hy]; exact h
    exact advanceStream_ovfPending (s := { s with accel := y }) f .read pre a hload

theorem writeSample_ovfPending (v : BitVec 16) (h : s.accel.ovfPending = true) :
    (s.writeSample v).accel.ovfPending = true := by
  rcases writeSample_cases v s with ⟨f, hf⟩ | ⟨f, m, hf, -⟩ <;> rw [hf]
  · exact h
  · exact advanceStream_ovfPending (s := { s with main := m }) f .write _ _ h

/-- No instruction clears a pending overflow: a descriptor write has no such field, and the stream only queues one. -/
theorem exec_ovfPending (i : Instr) (h : exec i s = .next t) (hp : s.accel.ovfPending = true) :
    t.accel.ovfPending = true := by
  have keeps {a : Accel} (ha : a = s.accel) : a.ovfPending = true := by rw [ha, hp]
  cases i with
  | rdDAcdat => cases h; exact fetchSample_ovfPending hp
  | wrDAcdat1 v => cases h; exact writeSample_ovfPending v hp
  | wrDDsbl v | wrHDsbl v => cases h; exact keeps (s.runDma_accel v)
  | wrHCmbh v | wrDDmbh v => cases h; exact keeps (s.sendHigh_accel _ v)
  | wrHCmbl v | wrDDmbl v => cases h; exact keeps (s.sendLow_accel _ v)
  | wrDDirq v => cases h; exact keeps (s.requestHostIrq_accel v)
  | unknownD w lo v | unknownH w lo v => cases h; exact keeps (s.unknownAccess_accel _ w _)
  | wreg r v => cases h; exact keeps (s.writeReg_accel r v)
  | clr | add | addr | addax | addp | addi | addis | sub | subr | subax | subp | inc | dec | incm | decm | neg | abs | mov
  | movr | movax | movp | movnp | andr | orr | xorr | andc | orc | xorc | andi | ori | xori | not | lsl | lsr | asl | asr
  | lsl16 | lsr16 | asr16 | mulac | mulmv => cases h; exact keeps (State.setAcc_accel _ _ s)
  | _ => cases h; exact hp

theorem KeepsPending.exec {i : Instr} (h : exec i s = .next t) : KeepsPending s t :=
  ⟨by rw [exec_frame h], exec_ovfPending i h⟩

theorem KeepsPending.coreOp {op : CoreOp} (h : s.coreOp op = .next t) : KeepsPending s t := by
  rcases coreOp_next h with ⟨f, rfl⟩ | ⟨x, rfl⟩ | ⟨k, v, -, rfl⟩ | ⟨i, -, he⟩ | ⟨st, v, -, rfl⟩ | ⟨st, v, l, -, rfl⟩ |
    ⟨f, rfl⟩
  case inr.inr.inr.inl => exact .exec he
  case inr.inr.inr.inr.inl => cases st <;> exact .of_same rfl rfl
  case inr.inr.inr.inr.inr.inl => cases st <;> exact .of_same rfl rfl
  all_goals exact .of_same rfl rfl

theorem KeepsPending.opsGive {ops : List CoreOp} (h : OpsGive ops s u) : KeepsPending s u := by
  induction ops generalizing s with
  | nil => cases h; exact .of_same rfl rfl
  | cons op rest ih =>
    obtain ⟨t, ht, -, hrest⟩ := h
    exact (KeepsPending.coreOp ht).trans (ih hrest)

theorem KeepsPending.flow (c : CoreInstr) (s : State) : KeepsPending s (s.flow c) := by
  rcases flow_cases c s with ⟨p, h⟩ | ⟨p, h⟩ | ⟨sr, ds, pc, cs, -, -, h⟩ | ⟨f, h⟩ <;> rw [h] <;>
    exact .of_same rfl rfl

/-- What the core's step that executes an instruction leaves, where it raises no fault. -/
theorem step_instr_next {c : CoreInstr} {more : List CoreInstr} {rest : List Event} (h : NextInstr s c more rest)
    (hstep : step s = .next t) (hclean : t.fault = none) :
    ∃ u, OpsGive c.ops s u ∧ t = Finished s (u.flow c) c.len more rest := by
  obtain ⟨hturn, hdue, hprog, hfetch⟩ := h
  rw [step_core hturn, coreStep_runs hturn hdue hprog] at hstep
  rcases andNext_next hstep with ⟨f, -, hf⟩ | ⟨v, hv, hnone, hnext⟩
  · rw [hclean] at hf
    cases hf
  · cases hnext
    rcases runInstr_next hturn.1 hv with ⟨f, rfl⟩ | ⟨ws, u, hws, hops, -, rfl⟩
    · cases hnone
    · rw [fetchInstr_ok hfetch] at hws
      cases hws
      exact ⟨u, hops, by rw [tick_eq]; rfl⟩

theorem step_instr_keepsPending {c : CoreInstr} {more : List CoreInstr} {rest : List Event}
    (h : NextInstr s c more rest) (hstep : step s = .next t) (hclean : t.fault = none) :
    t.program = more ∧ KeepsPending s t := by
  obtain ⟨u, hops, rfl⟩ := step_instr_next h hstep hclean
  exact ⟨rfl, ((KeepsPending.opsGive hops).trans (.flow c u)).trans (.of_same rfl rfl)⟩

/-! ### The default mask policy (R378) -/

theorem maskAdmits_standard_overflow {c : Config} (h : c.maskPolicy = .standard) (id : BitVec 3) (sr : BitVec 16) :
    maskAdmits c .overflow id sr = sr.getLsbD 9 := by
  rw [maskAdmits, h]
  rfl

theorem maskAdmits_standard_interrupt {c : Config} (h : c.maskPolicy = .standard) (id : BitVec 3) (sr : BitVec 16) :
    maskAdmits c .interrupt id sr = sr.getLsbD 11 := by
  rw [maskAdmits, h]
  rfl

theorem overflowDue_standard_iff (h : s.cfg.maskPolicy = .standard) :
    OverflowDue s ↔ s.accel.ovfPending = true ∧ s.alu.sr.getLsbD 9 = true := by
  rw [OverflowDue, maskAdmits_standard_overflow h]

theorem interruptDue_standard_iff (h : s.cfg.maskPolicy = .standard) :
    InterruptDue s ↔ s.intPending = true ∧ s.intCount = 0 ∧ s.alu.sr.getLsbD 11 = true := by
  rw [InterruptDue, maskAdmits_standard_interrupt h]

end Pending

/-- Settles O49: a source whose bit is 0 is not due, so the instruction offered is next, or the other source alone is
entered. -/
theorem maskedExceptionWaits : Obligations.MaskedExceptionWaits := by
  unfold Obligations.MaskedExceptionWaits
  intro s rest hturn hreset hpolicy overflowWaits interruptWaits
  have hoverflow : overflowWaits → ¬OverflowDue s := by
    rw [overflowDue_standard_iff hpolicy]
    rintro hwaits ⟨hp, hbit⟩
    exact Bool.false_ne_true ((hwaits hp).symm.trans hbit)
  have hinterrupt : interruptWaits → ¬InterruptDue s := by
    rw [interruptDue_standard_iff hpolicy]
    rintro hwaits ⟨hp, hzero, hbit⟩
    exact Bool.false_ne_true ((hwaits hp hzero).symm.trans hbit)
  obtain ⟨hentry, -⟩ := exceptionEntry s rest hturn hreset
  refine ⟨fun ho hi c more hprog hfetch => ?_, fun hcall hdata => ⟨fun hp hbit hi => ?_, fun hp hzero hbit ho => ?_⟩⟩
  · have hdue : NothingDue s := ⟨hreset, hoverflow ho, hinterrupt hi⟩
    obtain ⟨-, hfetched⟩ := fetchAtBoundary s c more rest hturn hdue hprog
    obtain ⟨-, hadvances⟩ := hfetched hfetch
    refine ⟨hadvances, fun t hstep hclean => ?_⟩
    obtain ⟨hprogram, hpending⟩ := step_instr_keepsPending ⟨hturn, hdue, hprog, hfetch⟩ hstep hclean
    exact ⟨hprogram, hpending.interrupt, hpending.overflow⟩
  · have hdue := (overflowDue_standard_iff hpolicy).2 ⟨hp, hbit⟩
    exact (hentry hcall hdata).1 hdue fun h => absurd h (hinterrupt hi)
  · have hdue := (interruptDue_standard_iff hpolicy).2 ⟨hp, hzero, hbit⟩
    exact (hentry hcall hdata).2 hdue fun h => absurd h (hoverflow ho)

section Faulting

variable {s t : State}

/-! ### The step that raises a fault (R373) -/

theorem takeException_clean (hs : s.fault = none) (src : ExcSource) (id : BitVec 3) :
    (s.takeException src id).fault = none ∨ ∃ f, s.takeException src id = s.raise f := by
  by_cases hroom : HasRoom s.cfg s.callStack ∧ HasRoom s.cfg s.dataStack
  · rw [takeException_ok hroom.1 hroom.2]
    cases src <;> exact .inl hs
  · exact .inr ⟨_, takeException_full (not_and_or.1 hroom)⟩

/-- A core step, with all the operations of its instruction, faults from the state before it or not at all. -/
theorem coreStep_clean (hs : s.fault = none) (h : s.coreStep = .next t) : t.fault = none ∨ ∃ f, t = s.raise f := by
  rcases coreStep_next hs h with rfl | ⟨f, rfl⟩ | ⟨-, rfl⟩ | ⟨src, id, -, hnone, rfl⟩ | ⟨c, more, ws, u, -, -, -, hnone, rfl⟩
  · exact .inl hs
  · exact .inr ⟨f, rfl⟩
  · exact .inl hs
  · exact .inl hnone
  · exact .inl hnone

theorem hostInput_fault (c : HostInput) (s : State) : (s.hostInput c).fault = s.fault := by
  cases c with
  | assertInterrupt | requestSoftReset => rw [State.hostInput]; split <;> rfl
  | assertReset | deassertReset | assertHalt | deassertHalt => rfl

theorem runEvent_clean {e : Event} (hs : s.fault = none) (h : s.runEvent e = .next t) :
    t.fault = none ∨ ∃ f, t = s.raise f := by
  cases e with
  | core => exact coreStep_clean hs h
  | hostTxn w v =>
    obtain ⟨i, -, -, he⟩ := issueWord_next h
    exact exec_clean hs he
  | hostInput c => cases h; exact .inl ((hostInput_fault c s).trans hs)

theorem step_clean (hs : s.fault = none) (h : step s = .next t) : t.fault = none ∨ ∃ f, t = s.raise f := by
  cases hsched : s.schedule with
  | nil =>
    rcases step_next hs h with rfl | ⟨e, rest, u, he, -⟩
    · exact .inl hs
    · rw [hsched] at he
      cases he
  | cons e rest =>
    rw [step_event hs hsched] at h
    rcases andNext_next h with ⟨f, he, -⟩ | ⟨u, -, hnone, hnext⟩
    · exact runEvent_clean hs he
    · cases hnext
      exact .inl hnone

end Faulting

/-- Settles O53: whatever the event, its fault is raised from the state before it. -/
theorem faultingStepUndone : Obligations.FaultingStepUndone := by
  unfold Obligations.FaultingStepUndone
  intro s t f hs hstep hf
  rcases step_clean hs hstep with hnone | ⟨g, rfl⟩
  · rw [hnone] at hf
    cases hf
  · cases hf
    rfl

/-! ### The return from an exception (R379) -/

theorem returnFromException_pops {s : State} {sr pc : BitVec 16} {ds cs : List (BitVec 16)}
    (hdata : s.dataStack = sr :: ds) (hcall : s.callStack = pc :: cs) :
    s.returnFromException = { s with alu := { s.alu with sr := sr }, pc := pc, dataStack := ds, callStack := cs } := by
  rw [State.returnFromException, pop_cons (show s.stack .data = sr :: ds from hdata)]
  dsimp only
  rw [pop_cons (show (s.setStack .data ds).stack .call = pc :: cs from hcall)]
  rfl

theorem returnFromException_underflow {s : State} (h : s.dataStack = [] ∨ s.callStack = []) :
    s.returnFromException = s.raise .stackUnderflow := by
  unfold State.returnFromException
  cases hdata : s.dataStack with
  | nil => rw [pop_nil (show s.stack .data = [] from hdata)]
  | cons sr ds =>
    have hcall : s.callStack = [] := h.resolve_left (by rw [hdata]; exact List.cons_ne_nil sr ds)
    rw [pop_cons (show s.stack .data = sr :: ds from hdata)]
    dsimp only
    rw [pop_nil (show (s.setStack .data ds).stack .call = [] from hcall)]

/-- Settles O50: the instruction has no operation, and its end pops both stacks or underflows. -/
theorem returnFromExceptionPops : Obligations.ReturnFromExceptionPops := by
  unfold Obligations.ReturnFromExceptionPops
  intro s len more rest hnext
  have hs := nextInstr_fault hnext
  have hflow : s.flow (onlyFlow .returnFromException len) = s.returnFromException := rfl
  refine ⟨fun sr ds pc cs hdata hcall => ?_, fun hempty => ?_⟩
  · have hend := hflow.trans (returnFromException_pops hdata hcall)
    rw [← hend]
    exact step_finishes hnext rfl (by rw [hend]; exact hs)
  · have hend := hflow.trans (returnFromException_underflow hempty)
    exact step_endFaults hnext rfl (by rw [hend]; rfl)

/-! ### The soft reset (R386) and the host's requests (R383, R385) -/

/-- Settles O51: the soft reset is the first thing a core step looks for. -/
theorem softResetAction : Obligations.SoftResetAction := by
  unfold Obligations.SoftResetAction
  intro s rest hturn hdue
  have hstep : step s = .next { s.softReset.tick with schedule := rest } := by
    rw [step_core hturn, State.coreStep, coreHeld_turn hturn, if_neg Bool.false_ne_true,
      if_pos ((softReset_due_iff s).2 hdue), andNext_ok (by exact hturn.1)]
  rw [tick_eq] at hstep
  exact ⟨_, hstep, rfl, rfl, rfl, sameBytes_of_mems rfl rfl rfl rfl rfl, rfl⟩

theorem step_hostInput {s : State} {c : HostInput} {rest : List Event} (hs : s.fault = none)
    (hsched : s.schedule = .hostInput c :: rest) : step s = .next { s.hostInput c with schedule := rest } := by
  rw [step_event hs hsched, State.runEvent, andNext_ok ((hostInput_fault c s).trans hs)]

/-- Settles O52: each input is its event, and a request finds its pending bit set or clear. -/
theorem hostControlInputs : Obligations.HostControlInputs := by
  unfold Obligations.HostControlInputs
  intro s rest hs
  refine ⟨fun h => ?_, fun h => ?_, fun h => step_hostInput hs h, fun h => step_hostInput hs h,
    fun h => step_hostInput hs h⟩
  · rw [step_hostInput hs h, State.hostInput]
    split <;> rfl
  · rw [step_hostInput hs h, State.hostInput]
    split <;> rfl

/-- Settles O54: only the reset line moves a faulted machine, and the hard reset keeps the fault. -/
theorem faultIsFinal : Obligations.FaultIsFinal := by
  unfold Obligations.FaultIsFinal
  intro s f hf
  refine ⟨step_faulted_stands hf, fun t hstep => ?_⟩
  obtain ⟨rest, -, rfl⟩ := step_faulted_next hf hstep
  exact (hostInput_fault .assertReset s).trans hf

end Sys2Proof.Machine
end

section
/-! PROOFS. Reset and control lines (70_reset_and_hazards.md R410 to R412): the hard reset, the reset state, and what a host
transaction leaves of the core. -/

namespace Sys2Proof.Machine

open Sys2Proof.Claim

/-! ### The reset values (R411) -/

theorem accVal_of_alu_reset {s : State} (h : s.alu = Alu.reset) (d : AccId) : accVal s d = 0 := by
  cases d <;> simp only [accVal, State.acc, h] <;> rfl

theorem axVal_of_alu_reset {s : State} (h : s.alu = Alu.reset) (x : AxId) : axVal s x = 0 := by
  cases x <;> simp only [axVal, h] <;> rfl

theorem coefAt_reset (i : BitVec 4) : Accel.reset.coefAt i = 0 := Vector.getElem_replicate i.isLt

/-- An assertion of the reset line in one step, from a faulted state or from one where it is the next event. -/
theorem step_assertReset {s : State} {rest : List Event} (hnext : NextReset s.schedule rest)
    (hfirst : s.fault = none → s.schedule = .hostInput .assertReset :: rest) :
    step s = .next { s.hostInput .assertReset with schedule := rest } := by
  cases hf : s.fault with
  | none => exact step_hostInput hf (hfirst hf)
  | some f => exact step_faulted_reset hf hnext

/-- Settles O55: that step is the hard reset, whose every field is a reset value or the value before. -/
theorem hardResetAction : Obligations.HardResetAction := by
  unfold Obligations.HardResetAction
  intro s rest hnext hfirst
  refine ⟨_, step_assertReset hnext hfirst, rfl, rfl, rfl, rfl, accVal_of_alu_reset rfl, axVal_of_alu_reset rfl, ?_⟩
  exact ⟨rfl, rfl, rfl, rfl, rfl, rfl, rfl, coefAt_reset, rfl, rfl, rfl, rfl, rfl, rfl, rfl, rfl, rfl, rfl, rfl, rfl, rfl,
    rfl, rfl, rfl, rfl, rfl, rfl, rfl, rfl, rfl, rfl, rfl, rfl⟩

theorem reset_inv : State.reset.Inv where
  memWf := rfl
  memBounded := rfl
  callWithin := rfl
  dataWithin := rfl
  vectorLegal := rfl
  countsWithin := rfl
  heldAtEntry := rfl

theorem coreFile_reset_quads :
    ∀ q ∈ [CoreFile.reset.ar, CoreFile.reset.ix, CoreFile.reset.wr, CoreFile.reset.gpr],
      q.r0 = 0 ∧ q.r1 = 0 ∧ q.r2 = 0 ∧ q.r3 = 0 := by
  decide

/-- Settles O58: the values are those of the reset records, and the invariant holds of them. -/
theorem resetState : Obligations.ResetState := by
  unfold Obligations.ResetState
  refine ⟨⟨rfl, rfl, rfl, accVal_of_alu_reset rfl, axVal_of_alu_reset rfl, rfl, rfl, coreFile_reset_quads, ?_⟩, ?_, reset_inv⟩
  · exact ⟨rfl, rfl, rfl, rfl, rfl, rfl, coefAt_reset, rfl, rfl, rfl, rfl, rfl, rfl, rfl, rfl, rfl, rfl, rfl, rfl, rfl, rfl,
      rfl, rfl, rfl, rfl, rfl⟩
  · exact ⟨rfl, rfl, rfl, rfl, rfl, rfl, rfl, rfl, rfl, rfl, rfl, rfl, rfl, rfl, rfl⟩

/-! ### What a host transaction leaves of the core (R412) -/

theorem State.runDma_alu (v : BitVec 16) (s : State) : (s.runDma v).alu = s.alu := by
  rcases runDma_cases v s with ⟨f, h⟩ | ⟨_, _, _, h, -⟩
  · rw [h, State.raise_alu]
  · rw [h]

theorem State.unknownAccess_alu (p : Port) (w : Dir) (a : BitVec 16) (s : State) :
    (s.unknownAccess p w a).alu = s.alu := by
  unfold State.unknownAccess
  split
  · cases w with
    | read => cases p <;> rfl
    | write => rfl
  · rfl

/-- No instruction of the host port writes an ALU register. -/
theorem exec_host_alu {s t : State} {i : Instr} (hport : i.port = .host) (h : exec i s = .next t) : t.alu = s.alu := by
  cases i with
  | wrHDsbl v => cases h; exact s.runDma_alu v
  | wrHCmbh v => cases h; rw [State.sendHigh_cmb]
  | wrHCmbl v => cases h; rw [State.sendLow_cmb]
  | unknownH w lo v => cases h; exact s.unknownAccess_alu .host w _
  | rdHCoef | wrHCoef | rdHDscr | wrHDscr | rdHDsbl | rdHDspa | wrHDspa | rdHDsmah | wrHDsmah | rdHDsmal | wrHDsmal
  | rdHFmt | wrHFmt | rdHAcdat1 | wrHAcdat1 | rdHAcsah | wrHAcsah | rdHAcsal | wrHAcsal | rdHAceah | wrHAceah | rdHAceal
  | wrHAceal | rdHAccah | wrHAccah | rdHAccal | wrHAccal | rdHPs | wrHPs | rdHYn1 | wrHYn1 | rdHYn2 | wrHYn2 | rdHAcdat
  | wrHAcdat | rdHGain | wrHGain | rdHDirq | wrHDirq | rdHDmbh | wrHDmbh | rdHDmbl | wrHDmbl | rdHCmbh | rdHCmbl =>
    cases h; rfl
  | _ => cases hport

/-- From `s` to `t` the core is as it was: pc, ALU registers, stacks, its own registers, the instructions offered and
`halted`. -/
structure SparesCore (s t : State) : Prop where
  pc : t.pc = s.pc
  alu : t.alu = s.alu
  callStack : t.callStack = s.callStack
  dataStack : t.dataStack = s.dataStack
  coreFile : t.coreFile = s.coreFile
  program : t.program = s.program
  halted : t.halted = s.halted

theorem SparesCore.exec {s t : State} {i : Instr} (hport : i.port = .host) (h : exec i s = .next t) :
    SparesCore s t where
  alu := exec_host_alu hport h
  pc := by rw [exec_frame h]
  callStack := by rw [exec_frame h]
  dataStack := by rw [exec_frame h]
  coreFile := by rw [exec_frame h]
  program := by rw [exec_frame h]
  halted := by rw [exec_frame h]

theorem SparesCore.issueWord {s t : State} {w : Word} {v : BitVec 16} (h : s.issueWord .host w v = .next t) :
    SparesCore s t := by
  obtain ⟨i, -, hport, he⟩ := issueWord_next h
  exact .exec hport he

/-- Settles O57: the word is an instruction of the host port, and taking its event from the schedule touches no more. -/
theorem hostTransactionsSpareTheCore : Obligations.HostTransactionsSpareTheCore := by
  unfold Obligations.HostTransactionsSpareTheCore
  intro s t w v rest hs hsched hstep
  have hspares : SparesCore s t := by
    rw [step_host hs hsched] at hstep
    rcases andNext_next hstep with ⟨f, he, -⟩ | ⟨u, he, -, hnext⟩
    · exact .issueWord he
    · cases hnext
      exact { SparesCore.issueWord he with }
  obtain ⟨hpc, halu, hcall, hdata, hfile, hprogram, hhalted⟩ := hspares
  exact ⟨hpc, halu, hcall, hdata, hfile, hprogram, hhalted⟩

end Sys2Proof.Machine
end
